-- ==== Sys2Proof/Word.lean ====
section
/-! DEFINITION. The word types of the hardware (spec/00_scope.md R6): a byte is 8 bits, a word 16, a dword 32, a
command word 64. -/

namespace Sys2Proof

/-- 8 bits (R6). -/
abbrev Byte := BitVec 8

/-- The spec's "word", 16 bits (R6); one lane of the data register. -/
abbrev Half := BitVec 16

/-- 32 bits (R6): the width of both ports, of `CA` and of every configuration register. -/
abbrev Dword := BitVec 32

/-- 64 bits (R80): the encoding of one operation. -/
abbrev CommandWord := BitVec 64

end Sys2Proof
end

