-- ==== Sys2Proof/Syntax.lean ====
section
/-! DEFINITION. The six operations (spec/00_scope.md R2, spec/opcode_table.json), and the lines of the spec's assembler
notation (spec/30_encoding.md R93), whose operands are plain numbers that may be out of range. -/

namespace Sys2Proof

/-- The six operations. The operand widths are those of the command word (R81), so that an out-of-range bus, device
or function number cannot be written (R20). -/
inductive Instr where
  /-- `READ_WORD bus, dev, fn, off` (R113). -/
  | readWord (bus : BitVec 8) (dev : BitVec 5) (fn : BitVec 3) (off : BitVec 8)
  /-- `WRITE_WORD bus, dev, fn, off, value16` (R114). -/
  | writeWord (bus : BitVec 8) (dev : BitVec 5) (fn : BitVec 3) (off : BitVec 8) (value : Half)
  /-- `READ_DWORD bus, dev, fn, off` (R111). -/
  | readDword (bus : BitVec 8) (dev : BitVec 5) (fn : BitVec 3) (off : BitVec 8)
  /-- `WRITE_DWORD bus, dev, fn, off, value32` (R112). -/
  | writeDword (bus : BitVec 8) (dev : BitVec 5) (fn : BitVec 3) (off : BitVec 8) (value : Dword)
  /-- `TO_BYTES` (R141). -/
  | toBytes
  /-- `FROM_BYTES` (R142). -/
  | fromBytes
deriving DecidableEq, Repr

/-- One line of the assembler notation (R93), before its operands are checked. -/
inductive AsmLine where
  | readWord (bus dev fn off : Nat)
  | writeWord (bus dev fn off value16 : Nat)
  | readDword (bus dev fn off : Nat)
  | writeDword (bus dev fn off value32 : Nat)
  | toBytes
  | fromBytes
deriving DecidableEq, Repr

/-- A mnemonic and its operands, in the source's order, as a line (R93, R95); no other line exists. -/
def AsmLine.ofTokens (mnemonic : String) (operands : List Nat) : Option AsmLine :=
  match operands with
  | [] =>
    if mnemonic = "TO_BYTES" then some .toBytes
    else if mnemonic = "FROM_BYTES" then some .fromBytes
    else none
  | [b, d, f, o] =>
    if mnemonic = "READ_WORD" then some (.readWord b d f o)
    else if mnemonic = "READ_DWORD" then some (.readDword b d f o)
    else none
  | [b, d, f, o, v] =>
    if mnemonic = "WRITE_WORD" then some (.writeWord b d f o v)
    else if mnemonic = "WRITE_DWORD" then some (.writeDword b d f o v)
    else none
  | _ => none

end Sys2Proof
end

