-- ==== Sys2Proof/WellFormed.lean ====
section
/-! DEFINITION. Which assembler lines are in range (spec/30_encoding.md R93), and the source's alignment precondition
on an operation (spec/70_reset_and_hazards.md R206). An `Instr` is well formed by its operand widths alone. -/

namespace Sys2Proof

/-- Bus at most 255, device at most 31, function at most 7, offset at most 255 (R93). -/
def addressInRange (bus dev fn off : Nat) : Bool :=
  decide (bus ≤ 255) && decide (dev ≤ 31) && decide (fn ≤ 7) && decide (off ≤ 255)

/-- Every operand of the line is in the range of its field (R93). -/
def AsmLine.wellFormed : AsmLine → Bool
  | .readWord b d f o => addressInRange b d f o
  | .writeWord b d f o v => addressInRange b d f o && decide (v ≤ 0xFFFF)
  | .readDword b d f o => addressInRange b d f o
  | .writeDword b d f o v => addressInRange b d f o && decide (v ≤ 0xFFFFFFFF)
  | .toBytes => true
  | .fromBytes => true

/-- The source's precondition "word-aligned" on the offset of a word operation (R89, R206). A client that breaks it
gets the even offset below; the hardware does not refuse it. -/
def Instr.wordAligned : Instr → Bool
  | .readWord _ _ _ off => !off.getLsbD 0
  | .writeWord _ _ _ off _ => !off.getLsbD 0
  | .readDword _ _ _ _ => true
  | .writeDword _ _ _ _ _ => true
  | .toBytes => true
  | .fromBytes => true

end Sys2Proof
end

