-- ==== Sys2Proof/Decode.lean ====
section
/-! DEFINITION. Decoding a command word (spec/30_encoding.md R80 to R83, R87, R88), encoding an operation, and the
assembler of R93. -/

namespace Sys2Proof

/-- Why a command word is none of the six operations. -/
inductive IllegalWord where
  /-- R87: `opc` is one of the ten reserved values. -/
  | reservedOpcode (opc : BitVec 4)
  /-- R88: `opc` is assigned and a reserved field of its format is not zero. -/
  | reservedField (opc : BitVec 4)
deriving DecidableEq, Repr

/-- What the decoder answers. -/
inductive Decoded where
  | instr (i : Instr)
  | illegal (why : IllegalWord)
deriving DecidableEq, Repr

/-- Bits 63:60 (R80). -/
def opcOf (w : CommandWord) : BitVec 4 := w.extractLsb' 60 4
/-- Bits 59:56 (R81). -/
def rsvOf (w : CommandWord) : BitVec 4 := w.extractLsb' 56 4
/-- Bits 55:48 (R81). -/
def busOf (w : CommandWord) : BitVec 8 := w.extractLsb' 48 8
/-- Bits 47:43 (R81). -/
def devOf (w : CommandWord) : BitVec 5 := w.extractLsb' 43 5
/-- Bits 42:40 (R81). -/
def fnOf (w : CommandWord) : BitVec 3 := w.extractLsb' 40 3
/-- Bits 39:32 (R81). -/
def offOf (w : CommandWord) : BitVec 8 := w.extractLsb' 32 8
/-- Bits 31:0 (R81). -/
def dataOf (w : CommandWord) : Dword := w.extractLsb' 0 32
/-- Bits 31:16, reserved in `WRITE_WORD` (R81, R88). -/
def dataHiOf (w : CommandWord) : Half := w.extractLsb' 16 16
/-- Bits 15:0, the value of `WRITE_WORD` (R81). -/
def value16Of (w : CommandWord) : Half := w.extractLsb' 0 16
/-- Bits 59:0, reserved in format F (R82). -/
def formatFZeroOf (w : CommandWord) : BitVec 60 := w.extractLsb' 0 60
/-- Bit 63 routes the word: set to unit FC, clear to unit CSA (R80). -/
def routesToFc (w : CommandWord) : Bool := w.getLsbD 63

/-- The decoder (R83, R87, R88). -/
def decode (w : CommandWord) : Decoded :=
  let opc := opcOf w
  if opc = 0x1#4 then
    if rsvOf w = 0#4 ∧ dataOf w = 0#32 then .instr (.readWord (busOf w) (devOf w) (fnOf w) (offOf w))
    else .illegal (.reservedField opc)
  else if opc = 0x2#4 then
    if rsvOf w = 0#4 ∧ dataHiOf w = 0#16 then
      .instr (.writeWord (busOf w) (devOf w) (fnOf w) (offOf w) (value16Of w))
    else .illegal (.reservedField opc)
  else if opc = 0x3#4 then
    if rsvOf w = 0#4 ∧ dataOf w = 0#32 then .instr (.readDword (busOf w) (devOf w) (fnOf w) (offOf w))
    else .illegal (.reservedField opc)
  else if opc = 0x4#4 then
    if rsvOf w = 0#4 then .instr (.writeDword (busOf w) (devOf w) (fnOf w) (offOf w) (dataOf w))
    else .illegal (.reservedField opc)
  else if opc = 0x8#4 then
    if formatFZeroOf w = 0#60 then .instr .toBytes else .illegal (.reservedField opc)
  else if opc = 0x9#4 then
    if formatFZeroOf w = 0#60 then .instr .fromBytes else .illegal (.reservedField opc)
  else .illegal (.reservedOpcode opc)

/-- A word of format C (table of R81). -/
def formatC (opc : BitVec 4) (bus : BitVec 8) (dev : BitVec 5) (fn : BitVec 3) (off : BitVec 8) (data : Dword) :
    CommandWord :=
  (opc ++ 0#4 ++ bus ++ dev ++ fn ++ off ++ data : BitVec (4 + 4 + 8 + 5 + 3 + 8 + 32))

/-- A word of format F (R82). -/
def formatF (opc : BitVec 4) : CommandWord := (opc ++ 0#60 : BitVec (4 + 60))

/-- The command word of an operation (R81 to R83). -/
def encode : Instr → CommandWord
  | .readWord bus dev fn off => formatC 0x1#4 bus dev fn off 0#32
  | .writeWord bus dev fn off value => formatC 0x2#4 bus dev fn off (0#16 ++ value : BitVec (16 + 16))
  | .readDword bus dev fn off => formatC 0x3#4 bus dev fn off 0#32
  | .writeDword bus dev fn off value => formatC 0x4#4 bus dev fn off value
  | .toBytes => formatF 0x8#4
  | .fromBytes => formatF 0x9#4

/-- One row of the opcode table: `w` selects the row when `w & mask = pattern` (R83). -/
structure TableRow where
  mnemonic : String
  pattern  : CommandWord
  mask     : CommandWord
deriving DecidableEq, Repr

/-- The word selects the row (R83). -/
def TableRow.selects (r : TableRow) (w : CommandWord) : Bool := w &&& r.mask == r.pattern

/-- The row of `READ_WORD` (R83). -/
def rowReadWord : TableRow := ⟨"READ_WORD", 0x1000000000000000#64, 0xFF000000FFFFFFFF#64⟩
/-- The row of `WRITE_WORD` (R83). -/
def rowWriteWord : TableRow := ⟨"WRITE_WORD", 0x2000000000000000#64, 0xFF000000FFFF0000#64⟩
/-- The row of `READ_DWORD` (R83). -/
def rowReadDword : TableRow := ⟨"READ_DWORD", 0x3000000000000000#64, 0xFF000000FFFFFFFF#64⟩
/-- The row of `WRITE_DWORD` (R83). -/
def rowWriteDword : TableRow := ⟨"WRITE_DWORD", 0x4000000000000000#64, 0xFF00000000000000#64⟩
/-- The row of `TO_BYTES` (R83). -/
def rowToBytes : TableRow := ⟨"TO_BYTES", 0x8000000000000000#64, 0xFFFFFFFFFFFFFFFF#64⟩
/-- The row of `FROM_BYTES` (R83). -/
def rowFromBytes : TableRow := ⟨"FROM_BYTES", 0x9000000000000000#64, 0xFFFFFFFFFFFFFFFF#64⟩

/-- The opcode table by match and mask (R83, spec/opcode_table.json). -/
def opcodeTable : List TableRow :=
  [rowReadWord, rowWriteWord, rowReadDword, rowWriteDword, rowToBytes, rowFromBytes]

/-- The row an operation belongs to. -/
def Instr.row : Instr → TableRow
  | .readWord _ _ _ _ => rowReadWord
  | .writeWord _ _ _ _ _ => rowWriteWord
  | .readDword _ _ _ _ => rowReadDword
  | .writeDword _ _ _ _ _ => rowWriteDword
  | .toBytes => rowToBytes
  | .fromBytes => rowFromBytes

/-- The operation a line in range stands for (R93). -/
def AsmLine.toInstr : AsmLine → Instr
  | .readWord b d f o => .readWord (.ofNat 8 b) (.ofNat 5 d) (.ofNat 3 f) (.ofNat 8 o)
  | .writeWord b d f o v => .writeWord (.ofNat 8 b) (.ofNat 5 d) (.ofNat 3 f) (.ofNat 8 o) (.ofNat 16 v)
  | .readDword b d f o => .readDword (.ofNat 8 b) (.ofNat 5 d) (.ofNat 3 f) (.ofNat 8 o)
  | .writeDword b d f o v => .writeDword (.ofNat 8 b) (.ofNat 5 d) (.ofNat 3 f) (.ofNat 8 o) (.ofNat 32 v)
  | .toBytes => .toBytes
  | .fromBytes => .fromBytes

/-- The assembler: the command word of a line in range; an operand out of the range of its field is an error, and
nothing is emitted (R93). -/
def assemble (l : AsmLine) : Option CommandWord :=
  if l.wellFormed then some (encode l.toInstr) else none

/-- The 64-bit command word whose bits the opcode table numbers 0 to `nbits - 1`; the bits above are zero. -/
def tableWord (nbits w : Nat) : CommandWord := BitVec.ofNat 64 (w % 2 ^ nbits)

/-- The operation the decoder reads from a word of the opcode table. A command word is one 64-bit value, handed over
whole (R80, R96): bit 0 of the table is bit 0 of the word. Assumption 26. -/
def decodeTableWord (nbits w : Nat) : Option Instr :=
  match decode (tableWord nbits w) with
  | .instr i => some i
  | .illegal _ => none

end Sys2Proof
end

