-- ==== Sys2Proof/Config.lean ====
section
/-! DEFINITION. What the spec fixes as constants (spec/00_scope.md R3), and what it leaves to the platform: the open
parameters of R4 and the free values, each an opaque constant without a body, so that no proof can see its value. -/

namespace Sys2Proof

/-- The place of one configuration register (R25, R55): bus, device, function, register index. -/
structure CfgSel where
  bus : BitVec 8
  dev : BitVec 5
  fn  : BitVec 3
  reg : BitVec 6
deriving DecidableEq, Repr

/-- The place of one function (R64, the elements of `PRESENT`). -/
structure Bdf where
  bus : BitVec 8
  dev : BitVec 5
  fn  : BitVec 3
deriving DecidableEq, Repr

/-- The function a register belongs to. -/
def CfgSel.bdf (r : CfgSel) : Bdf := ⟨r.bus, r.dev, r.fn⟩

/-- One `CfgWrite`, as `TARGET` records it in its history (R64). -/
structure CfgWrite where
  sel   : CfgSel
  value : Dword
deriving DecidableEq, Repr

namespace Config

/-- Preamble byte `PRE` (R92). -/
def preamble : Byte := 0xAA#8
/-- Start-frame delimiter byte `SFD` (R92). -/
def sfd : Byte := 0xAB#8
/-- Number of preamble bytes (R3, R90). -/
def preambleLen : Nat := 7
/-- `HDR_LEN`: preamble, delimiter, two addresses, length field (R3). -/
def hdrLen : Nat := 22
/-- `MIN_LEN`: the decoder's stated minimum length (R3). -/
def minLen : Nat := 14
/-- `PAYLOAD_MAX` (R3). -/
def payloadMax : Nat := 1454
/-- `FB_SIZE` (R3). -/
def fbSize : Nat := 1504
/-- Bytes of configuration space: 256 x 32 x 8 functions of 256 bytes (R25). -/
def csSize : Nat := 16777216

/-- `P_ADDR_PORT` of the platform (R4, R51): open. Assumption 9. -/
opaque addrPort : BitVec 16

/-- How far `P_DATA_PORT` lies above `P_ADDR_PORT`, less one: open. With `dataPort` it stands for every pair of
DIFFERENT port numbers, the only thing R51 asks of them. Assumption 9. -/
opaque dataPortGap : Fin 65535

/-- `P_DATA_PORT` of the platform (R4, R51): open, and different from `P_ADDR_PORT`. -/
def dataPort : BitVec 16 := addrPort + BitVec.ofNat 16 (dataPortGap.val + 1)

/-- `P_ABSENT` of the platform (R4, R56): open. Assumption 8. -/
opaque absent : Dword

/-- The read function of `TARGET` (R64): from the history of configuration writes, the selected register and a free
choice, the dword the device answers; `none` where no device answers (R56). Open. Assumption 6. -/
opaque targetRead : List CfgWrite → CfgSel → Nat → Option Dword

/-- What a data-port read returns while `CA[31] = 0` (R53: "unspecified"), from `CA` and a free choice. Free value.
Assumption 10. -/
opaque disabledRead : Dword → Nat → Dword

/-- `F_PAY[i]` at and above `F_PCNT` after a `FROM_BYTES` that succeeded (R28: "no specified value"), from a free
choice and the index. Free value. Assumption 13. -/
opaque stalePayload : Nat → Nat → Byte

end Config

end Sys2Proof
end

