-- ==== Sys2Proof/Machine/State.lean ====
section
/-! DEFINITION. All the state of both units, of the target behind the ports, and of the world around them
(spec/10_state.md; INVENTORY.md lists every field with its rule), the reasons a step can stop, and the state after
reset. -/

namespace Sys2Proof.Machine

/-- Bytes by address, in ONE canonical form (`Memory.wf` in Machine/Memory.lean): addresses strictly rising, no entry
equal to what an unlisted address reads as. -/
abbrev Memory := List Host.Cell

/-- The two units (R1). -/
inductive UnitName where
  | csa
  | fc
deriving DecidableEq, Repr

/-- The sequencer phase `PH` (R24). -/
inductive Phase where
  | idle
  | addr
  | dread
  | dwrite
deriving DecidableEq, Repr

/-- The status `ST` (R31, table of R170); codes 5 to 15 are never written, so they have no constructor. -/
inductive Status where
  | ok
  | noStart
  | invalidPacket
  | encodeRefused
  | illegalCommand
deriving DecidableEq, Repr

/-- The two ports (R7, R51). -/
inductive Port where
  | addr
  | data
deriving DecidableEq, Repr

/-- Which target answers the data port (R64). -/
inductive TargetKind where
  /-- Any devices: reads are the open function `Config.targetRead`. -/
  | device
  /-- The reference instance `RamTarget`: a plain store for the functions of `present`. -/
  | ram
deriving DecidableEq, Repr

/-- Who performed a port cycle. -/
inductive Requester where
  | csa
  | other
deriving DecidableEq, Repr

/-- A port cycle as the record keeps it (R119): `AW(v)`, `DR(v)`, `DW(v)`. -/
inductive PortCycle where
  | aw (v : Dword)
  | dr (v : Dword)
  | dw (v : Dword)
deriving DecidableEq, Repr

/-- One entry of the record: who, and what (R119; spec/95_test_vectors.md H1). -/
structure PortEvent where
  who   : Requester
  cycle : PortCycle
deriving DecidableEq, Repr

/-- What a client reads (R36). -/
inductive ClientReg where
  | rd
  | csaSt
  | busy
  | fcSt
  | fDst (i : Fin 6)
  | fSrc (i : Fin 6)
  | fLen
  | fPcnt
  | fPay (i : Fin 1454)
  | fb (i : Fin 1504)
  | blen
deriving DecidableEq, Repr

/-- A client's direct write (R36): the frame registers, `FB` and `BLEN`, with the ranges of R28 and R30. -/
inductive ClientWrite where
  | fDst (i : Fin 6) (v : Byte)
  | fSrc (i : Fin 6) (v : Byte)
  | fLen (v : Half)
  | fPcnt (n : Fin 1455)
  | fPay (i : Fin 1454) (v : Byte)
  | fb (i : Fin 1504) (v : Byte)
  | blen (n : Fin 1505)
deriving DecidableEq, Repr

/-- A step of an agent other than unit CSA and the client (R64). -/
inductive AgentStep where
  /-- A device or another bus master changes a configuration register. -/
  | csChange (sel : CfgSel) (v : Dword)
  /-- A write cycle on the port of that number. -/
  | portWrite (port : BitVec 16) (v : Dword)
  /-- A read cycle on the port of that number. -/
  | portRead (port : BitVec 16)
deriving DecidableEq, Repr

/-- One thing the world does to the hardware (R9, R211). -/
inductive Input where
  /-- A client offers a command word (R80). -/
  | command (w : CommandWord)
  /-- A client writes a register directly (R36). -/
  | write (c : ClientWrite)
  /-- A client reads a register (R36). -/
  | read (r : ClientReg)
  /-- An environment step (R64). -/
  | agent (a : AgentStep)
  /-- The reset of both units (R200). -/
  | reset
deriving DecidableEq, Repr

/-- A client's read and the value it got, zero-extended to 32 bits. -/
structure Observation where
  reg   : ClientReg
  value : Dword
deriving DecidableEq, Repr

/-- Everything the machine holds. -/
structure State where
  /-- `OP` (R20). -/
  op   : BitVec 4
  /-- `BUS` (R20). -/
  bus  : BitVec 8
  /-- `DEV` (R20). -/
  dev  : BitVec 5
  /-- `FN` (R20). -/
  fn   : BitVec 3
  /-- `OFF` (R20). -/
  off  : BitVec 8
  /-- `WD` (R20). -/
  wd   : Dword
  /-- `CA`, the address-port register (R21). -/
  ca   : Dword
  /-- `TMP` (R22). -/
  tmp  : Dword
  /-- `RD` (R23). -/
  rd   : Dword
  /-- `PH` (R24). -/
  ph   : Phase
  /-- `ST` of unit CSA (R31). -/
  csaSt : Status
  /-- `CS`, the configuration space, as `RamTarget` stores it (R25, R64). -/
  cs   : Memory
  /-- The parameter `TARGET` (R4, R64): which target answers. -/
  target : TargetKind
  /-- `PRESENT` of `RamTarget` (R64). -/
  present : List Bdf
  /-- The target's history of configuration writes, oldest first (R64). -/
  cfgWrites : List CfgWrite
  /-- The parameter `P_ADDR_PORT` (R4). -/
  addrPort : BitVec 16
  /-- The parameter `P_DATA_PORT` (R4). -/
  dataPort : BitVec 16
  /-- The parameter `P_ABSENT` (R4, R56). -/
  absent : Dword
  /-- `F_DST[0..5]` (R28). -/
  fDst : Vector Byte 6
  /-- `F_SRC[0..5]` (R28). -/
  fSrc : Vector Byte 6
  /-- `F_LEN` (R28). -/
  fLen : Half
  /-- `F_PCNT` (R28). -/
  fPcnt : BitVec 11
  /-- `F_PAY[0..1453]` (R28). -/
  fPay : Memory
  /-- Model's own: what an unlisted byte of `F_PAY` is. 0: nothing has decoded a frame since reset; otherwise the free
  choice of the last `FROM_BYTES` that succeeded (R28). -/
  fPayGen : Nat
  /-- `FB[0..1503]` (R30). -/
  fb   : Memory
  /-- `BLEN` (R30). -/
  blen : BitVec 11
  /-- `ST` of unit FC (R31). -/
  fcSt : Status
  /-- The record of port cycles, oldest first (R119). -/
  trace : List PortEvent
  /-- The program: what the client and the world do next between commands, in order (R211). -/
  inbox : List Input
  /-- What others do inside operations of unit CSA: one list for each coming gap before a port cycle (R61, R64). -/
  gaps : List (List Input)
  /-- What the client's reads returned, oldest first (R36). -/
  seen : List Observation
  /-- Model's own: the free choices taken so far. -/
  free : Nat
deriving DecidableEq, Repr

/-- Why the machine stops for good. -/
inductive Fault where
  /-- Raised by the sequencer in a phase that the operation in `OP` does not have (R110 gives it no next cycle). No
  state that meets `State.Inv` raises it. Safe: the machine stops. -/
  | phaseNotOfOperation
deriving DecidableEq, Repr

/-- Why a step has no meaning. -/
inductive Refusal where
  /-- Raised by exec for an instruction without a meaning. Safe. -/
  | notModelled (mnemonic : String)
  /-- Raised by a write cycle on the data port while `CA[31] = 0`: R54 leaves the effect unspecified. Unit CSA alone
  never gets there; another agent's write to the address port does (R203). Safe: the machine stops. -/
  | dataWriteWhileDisabled
deriving DecidableEq, Repr

/-- What a step answers. -/
abbrev Result := Host.Outcome State Fault Refusal

/-- The machine right after reset (R34, R200): `PH = IDLE`, `ST = OK` in both units. Every register R34 leaves
unspecified holds zero (assumptions 3 and 4); the parameters of R4 are open (assumptions 6, 8, 9). -/
def State.reset : State where
  op := 0#4
  bus := 0#8
  dev := 0#5
  fn := 0#3
  off := 0#8
  wd := 0#32
  ca := 0#32
  tmp := 0#32
  rd := 0#32
  ph := .idle
  csaSt := .ok
  cs := []
  target := .device
  present := []
  cfgWrites := []
  addrPort := Config.addrPort
  dataPort := Config.dataPort
  absent := Config.absent
  fDst := Vector.replicate 6 0#8
  fSrc := Vector.replicate 6 0#8
  fLen := 0#16
  fPcnt := 0#11
  fPay := []
  fPayGen := 0
  fb := []
  blen := 0#11
  fcSt := .ok
  trace := []
  inbox := []
  gaps := []
  seen := []
  free := 0

end Sys2Proof.Machine
end

