-- ==== Sys2Proof/Machine/Memory.lean ====
section
/-! DEFINITION. The operations on a byte memory in canonical form. `dflt` is what an unlisted address reads as: `some b`
is the byte `b`, `none` says that no fixed byte is named for it, and then every byte written is listed. -/

namespace Sys2Proof.Machine

/-- The listed byte at an address. -/
def Memory.find (a : Nat) : Memory → Option Byte
  | [] => none
  | c :: rest => if c.1 = a then some c.2 else Memory.find a rest

/-- The memory without an entry at `a`. -/
def Memory.erase (a : Nat) : Memory → Memory
  | [] => []
  | c :: rest => if c.1 = a then rest else c :: Memory.erase a rest

/-- The memory with the entry `(a, v)` in its place. -/
def Memory.insert (a : Nat) (v : Byte) : Memory → Memory
  | [] => [(a, v)]
  | c :: rest =>
    if a < c.1 then (a, v) :: c :: rest
    else if c.1 = a then (a, v) :: rest
    else c :: Memory.insert a v rest

/-- Write one byte and keep the canonical form. -/
def Memory.write (dflt : Option Byte) (a : Nat) (v : Byte) (m : Memory) : Memory :=
  if dflt = some v then Memory.erase a m else Memory.insert a v m

/-- The canonical form, from address `lo` up: addresses strictly rising and below `size`, no entry equal to what an
unlisted address reads as. -/
def Memory.wfFrom (dflt : Option Byte) (size : Nat) : Nat → Memory → Bool
  | _, [] => true
  | lo, c :: rest =>
    decide (lo ≤ c.1) && decide (c.1 < size) && decide (dflt ≠ some c.2) && Memory.wfFrom dflt size (c.1 + 1) rest

/-- The canonical form of a memory of `size` bytes. -/
def Memory.wf (dflt : Option Byte) (size : Nat) (m : Memory) : Bool := Memory.wfFrom dflt size 0 m

/-- The memory that holds the bytes `bs` from address `base` on, and nothing else. -/
def Memory.ofBytes (dflt : Option Byte) : Nat → List Byte → Memory
  | _, [] => []
  | base, b :: bs =>
    if dflt = some b then Memory.ofBytes dflt (base + 1) bs else (base, b) :: Memory.ofBytes dflt (base + 1) bs

/-- What an unlisted byte of `CS` and of `FB` reads as (assumptions 4 and 7). -/
def zeroDflt : Option Byte := some 0#8

/-- What an unlisted byte of `F_PAY` reads as: zero as long as nothing has decoded a frame since reset (assumption 4),
no fixed byte afterwards (R28). -/
def payDflt (gen : Nat) : Option Byte := if gen = 0 then some 0#8 else none

/-- One byte of the configuration space (R57), by its 24-bit address. -/
def State.csByte (s : State) (a : Nat) : Byte := (Memory.find a s.cs).getD 0#8

/-- `FB[i]` (R30). -/
def State.fbByte (s : State) (i : Nat) : Byte := (Memory.find i s.fb).getD 0#8

/-- An unlisted byte of `F_PAY`: zero since reset (assumption 4), a free value after a decode (assumption 13). -/
def unlistedPay (gen i : Nat) : Byte := if gen = 0 then 0#8 else Config.stalePayload gen i

/-- `F_PAY[i]` (R28). -/
def State.payByte (s : State) (i : Nat) : Byte := (Memory.find i s.fPay).getD (unlistedPay s.fPayGen i)

end Sys2Proof.Machine
end

