-- ==== Sys2Proof/Machine/Operands.lean ====
section
/-! DEFINITION. The operands of unit CSA: the address word (spec/30_encoding.md R84), the register it selects
(spec/20_memory.md R55), the lane (R86). And the registers a client reads and writes directly (spec/10_state.md R36). -/

namespace Sys2Proof.Machine

/-- The address word `A` (R84). -/
def addressWord (bus : BitVec 8) (dev : BitVec 5) (fn : BitVec 3) (off : BitVec 8) : Dword :=
  0x80000000#32 ||| (bus.setWidth 32 <<< 16) ||| (dev.setWidth 32 <<< 11) ||| (fn.setWidth 32 <<< 8) |||
    (off.setWidth 32 &&& 0xFC#32)

/-- The address word of the request latches (R27: computed per access). -/
def State.addressWord (s : State) : Dword := Machine.addressWord s.bus s.dev s.fn s.off

/-- `CA[31]` (R53, R54). -/
def caEnabled (ca : Dword) : Bool := ca.getLsbD 31

/-- The register a data-port cycle reaches (R55): bits 30:24 and 1:0 of `CA` take no part. -/
def caSelect (ca : Dword) : CfgSel where
  bus := ca.extractLsb' 16 8
  dev := ca.extractLsb' 11 5
  fn := ca.extractLsb' 8 3
  reg := ca.extractLsb' 2 6

/-- The register an operation on (`bus`, `dev`, `fn`, `off`) means (R111 to R114): register `off[7:2]`. -/
def operandSel (bus : BitVec 8) (dev : BitVec 5) (fn : BitVec 3) (off : BitVec 8) : CfgSel :=
  ⟨bus, dev, fn, off.extractLsb' 2 6⟩

/-- The 24-bit byte address of a register in the store: bus, device, function, and the byte offset `reg * 4` (R55). -/
def cfgBase (r : CfgSel) : Nat :=
  r.bus.toNat * 65536 + r.dev.toNat * 2048 + r.fn.toNat * 256 + r.reg.toNat * 4

/-- The lane shift `SH` (R86): 0 or 16. -/
def laneShift (off : BitVec 8) : Nat := (off &&& 2#8).toNat * 8

/-- The lane mask `LM` (R86). -/
def laneMask (off : BitVec 8) : Dword := 0xFFFF#32 <<< laneShift off

/-- The lane a read takes of the dword `d` (R86). -/
def laneRead (d : Dword) (off : BitVec 8) : Half := (d >>> laneShift off).extractLsb' 0 16

/-- The dword a write forms from the dword `d` and the 16-bit value `v` (R86). -/
def laneMerge (d : Dword) (off : BitVec 8) (v : Half) : Dword :=
  (d &&& ~~~(laneMask off)) ||| (v.setWidth 32 <<< laneShift off)

/-- The opcode of each operation of unit CSA (R83). -/
def opReadWord : BitVec 4 := 0x1#4
/-- R83. -/
def opWriteWord : BitVec 4 := 0x2#4
/-- R83. -/
def opReadDword : BitVec 4 := 0x3#4
/-- R83. -/
def opWriteDword : BitVec 4 := 0x4#4

/-- A client's direct write of a frame register, of `FB` or of `BLEN` (R36). -/
def clientWrite (c : ClientWrite) (s : State) : State :=
  match c with
  | .fDst i v => { s with fDst := s.fDst.set i.val v i.isLt }
  | .fSrc i v => { s with fSrc := s.fSrc.set i.val v i.isLt }
  | .fLen v => { s with fLen := v }
  | .fPcnt n => { s with fPcnt := BitVec.ofNat 11 n.val }
  | .fPay i v => { s with fPay := Memory.write (payDflt s.fPayGen) i.val v s.fPay }
  | .fb i v => { s with fb := Memory.write zeroDflt i.val v s.fb }
  | .blen n => { s with blen := BitVec.ofNat 11 n.val }

end Sys2Proof.Machine
end

