-- ==== Sys2Proof/Machine/Flags.lean ====
section
/-! DEFINITION. The flag-like state (spec/10_state.md R32): the hardware has no condition codes; it has one status
register per unit, with the codes of spec/60_exceptions.md R170, and the derived signal `BUSY`. And what a client's
read returns (R36). -/

namespace Sys2Proof.Machine

/-- The 4-bit code of a status (table of R170). -/
def statusCode : Status → BitVec 4
  | .ok => 0#4
  | .noStart => 1#4
  | .invalidPacket => 2#4
  | .encodeRefused => 3#4
  | .illegalCommand => 4#4

/-- `BUSY`, true exactly when `PH` is not `IDLE` (R32). -/
def State.busy (s : State) : Bool := decide (s.ph ≠ .idle)

/-- Write a unit's status register, and nothing else (R31). -/
def setStatus (u : UnitName) (c : Status) (s : State) : State :=
  match u with
  | .csa => { s with csaSt := c }
  | .fc => { s with fcSt := c }

/-- A unit's status register (R31). -/
def State.status (s : State) (u : UnitName) : Status :=
  match u with
  | .csa => s.csaSt
  | .fc => s.fcSt

/-- What a client's read of a register returns (R36), zero-extended to 32 bits. -/
def clientRead (r : ClientReg) (s : State) : Dword :=
  match r with
  | .rd => s.rd
  | .csaSt => (statusCode s.csaSt).setWidth 32
  | .busy => if s.busy then 1#32 else 0#32
  | .fcSt => (statusCode s.fcSt).setWidth 32
  | .fDst i => (s.fDst[i]).setWidth 32
  | .fSrc i => (s.fSrc[i]).setWidth 32
  | .fLen => s.fLen.setWidth 32
  | .fPcnt => s.fPcnt.setWidth 32
  | .fPay i => (s.payByte i.val).setWidth 32
  | .fb i => (s.fbByte i.val).setWidth 32
  | .blen => s.blen.setWidth 32

end Sys2Proof.Machine
end

