-- ==== Sys2Proof/Machine/Ops.lean ====
section
/-! DEFINITION. The shared operations: the error of a command and the way on from it (spec/60_exceptions.md R177, R178),
the target (spec/20_memory.md R56, R64), the port cycles (R52 to R54), and the acceptance and the phases of an operation
of unit CSA (spec/40_config_access.md R110). -/

namespace Sys2Proof.Machine

/-- Go on with `k` from a next state; a fault or a refusal stands. -/
def andThen (r : Result) (k : State → Result) : Result :=
  match r with
  | .next s => k s
  | .fault f => .fault f
  | .refused x => .refused x

/-- A command fails (R177, the spec's "trap entry"): its code goes to `ST` of its unit, and nothing else changes. There
is no saved context, no vector, no mode. The way back (R178) is no operation: the next command is accepted whatever
`ST` holds, and overwrites it. -/
def raiseStatus (u : UnitName) (c : Status) (s : State) : State := setStatus u c s

/-- A command completes: `ST <- OK` (R31). -/
def completeOk (u : UnitName) (s : State) : State := setStatus u .ok s

/-- The unit bit 63 routes a command word to (R80). -/
def routedUnit (w : CommandWord) : UnitName := if routesToFc w then .fc else .csa

/-- A word that is none of the six operations: `ST <- IllegalCommand` of the unit it is routed to (R87, R88, R175). -/
def refuseWord (w : CommandWord) (s : State) : State := raiseStatus (routedUnit w) .illegalCommand s

/-- The dword at a register's place in the store, its bytes little-endian (R57). -/
def read32 (m : Memory) (base : Nat) : Dword :=
  ((Memory.find (base + 3) m).getD 0#8 ++ (Memory.find (base + 2) m).getD 0#8 ++
    (Memory.find (base + 1) m).getD 0#8 ++ (Memory.find base m).getD 0#8 : BitVec (8 + 8 + 8 + 8))

/-- Store a dword at a register's place, its bytes little-endian (R57). -/
def write32 (base : Nat) (v : Dword) (m : Memory) : Memory :=
  Memory.write zeroDflt (base + 3) (v.extractLsb' 24 8)
    (Memory.write zeroDflt (base + 2) (v.extractLsb' 16 8)
      (Memory.write zeroDflt (base + 1) (v.extractLsb' 8 8)
        (Memory.write zeroDflt base (v.extractLsb' 0 8) m)))

/-- What the target answers to a read (R64); `none` where no device answers (R56). -/
def targetAnswer (r : CfgSel) (s : State) : Option Dword :=
  match s.target with
  | .ram => if r.bdf ∈ s.present then some (read32 s.cs (cfgBase r)) else none
  | .device => Config.targetRead s.cfgWrites r s.free

/-- `CfgRead` (R7, R56): the target's answer, `P_ABSENT` where no device answers. -/
def cfgRead (r : CfgSel) (s : State) : Dword := (targetAnswer r s).getD s.absent

/-- Whether the store takes a write to a register: `RamTarget` does so for its present functions (R64). -/
def storeTakes (r : CfgSel) (s : State) : Bool := decide (s.target = .ram) && decide (r.bdf ∈ s.present)

/-- `CfgWrite` (R7, R56, R64): recorded in the target's history; the store of `RamTarget` takes it for a present
function. -/
def cfgWrite (r : CfgSel) (v : Dword) (s : State) : State :=
  { s with
    cfgWrites := s.cfgWrites ++ [⟨r, v⟩]
    cs := if storeTakes r s then write32 (cfgBase r) v s.cs else s.cs }

/-- Add a port cycle to the record (R119). -/
def recordCycle (who : Requester) (c : PortCycle) (s : State) : State :=
  { s with trace := s.trace ++ [⟨who, c⟩] }

/-- `PortWrite(ADDR, v)` (R52): `CA <- v`, all 32 bits. -/
def portWriteAddr (who : Requester) (v : Dword) (s : State) : State :=
  recordCycle who (.aw v) { s with ca := v }

/-- The value `PortRead(DATA)` returns (R53); a free value while `CA[31] = 0` (assumption 10). -/
def dataPortValue (s : State) : Dword :=
  if caEnabled s.ca then cfgRead (caSelect s.ca) s else Config.disabledRead s.ca s.free

/-- What `PortRead(DATA)` leaves (R53): nothing but the record and the choice taken. -/
def portReadData (who : Requester) (s : State) : State :=
  recordCycle who (.dr (dataPortValue s)) { s with free := s.free + 1 }

/-- `PortWrite(DATA, v)` (R54). -/
def portWriteData (who : Requester) (v : Dword) (s : State) : Result :=
  if caEnabled s.ca then .next (recordCycle who (.dw v) (cfgWrite (caSelect s.ca) v s))
  else .refused .dataWriteWhileDisabled

/-- The port of a port number, on this platform (R51). -/
def portAt (n : BitVec 16) (s : State) : Option Port :=
  if n = s.addrPort then some .addr
  else if n = s.dataPort then some .data
  else none

/-- Acceptance of a legal command by unit CSA (R81, R110): the request latches are filled, `PH <- ADDR`. -/
def accept (op : BitVec 4) (bus : BitVec 8) (dev : BitVec 5) (fn : BitVec 3) (off : BitVec 8) (wd : Dword)
    (s : State) : State :=
  { s with op := op, bus := bus, dev := dev, fn := fn, off := off, wd := wd, ph := .addr }

/-- The phase after the address cycle (R110). -/
def afterAddr (op : BitVec 4) : Option Phase :=
  if op = opReadWord then some .dread
  else if op = opWriteWord then some .dread
  else if op = opReadDword then some .dread
  else if op = opWriteDword then some .dwrite
  else none

/-- The phase `ADDR` (R110): `PortWrite(ADDR, A)`. -/
def addrPhase (s : State) : Result :=
  match afterAddr s.op with
  | some p => .next { portWriteAddr .csa s.addressWord s with ph := p }
  | none => .fault .phaseNotOfOperation

/-- The phase `DREAD` (R111, R113, R114): `PortRead(DATA)`, and what the operation does with the dword. -/
def dreadPhase (s : State) : Result :=
  let d := dataPortValue s
  let t := portReadData .csa s
  if s.op = opReadDword then .next (completeOk .csa { t with rd := d, ph := .idle })
  else if s.op = opReadWord then
    .next (completeOk .csa { t with rd := (laneRead d s.off).setWidth 32, ph := .idle })
  else if s.op = opWriteWord then .next { t with tmp := d, ph := .dwrite }
  else .fault .phaseNotOfOperation

/-- The value of the phase `DWRITE` (R112, R114). -/
def writeValue (s : State) : Option Dword :=
  if s.op = opWriteDword then some s.wd
  else if s.op = opWriteWord then some (laneMerge s.tmp s.off (s.wd.extractLsb' 0 16))
  else none

/-- The phase `DWRITE` (R112, R114): `PortWrite(DATA, value)`, the last cycle of a write. -/
def dwritePhase (s : State) : Result :=
  match writeValue s with
  | some v => andThen (portWriteData .csa v s) fun t => .next (completeOk .csa { t with ph := .idle })
  | none => .fault .phaseNotOfOperation

/-- One step of the sequencer (R110): the port cycle the phase names. -/
def portCycle (s : State) : Result :=
  match s.ph with
  | .idle => .next s
  | .addr => addrPhase s
  | .dread => dreadPhase s
  | .dwrite => dwritePhase s

/-- The reset of both units (R34, R200): `PH = IDLE`, `ST = OK`; the unspecified registers take the values they have in
`State.reset` (assumptions 3, 4 and 19). It performs no port cycle; the configuration space and the target's history, the
parameters, the records and what the world does next are untouched. -/
def applyReset (s : State) : State :=
  { s with
    op := State.reset.op, bus := State.reset.bus, dev := State.reset.dev, fn := State.reset.fn
    off := State.reset.off, wd := State.reset.wd, ca := State.reset.ca, tmp := State.reset.tmp
    rd := State.reset.rd, ph := State.reset.ph, csaSt := State.reset.csaSt
    fDst := State.reset.fDst, fSrc := State.reset.fSrc, fLen := State.reset.fLen
    fPcnt := State.reset.fPcnt, fPay := State.reset.fPay, fPayGen := State.reset.fPayGen
    fb := State.reset.fb, blen := State.reset.blen, fcSt := State.reset.fcSt }

end Sys2Proof.Machine
end

