-- ==== Sys2Proof/Machine/Frame.lean ====
section
/-! DEFINITION. Unit FC: the frame as an abstract value (spec/10_state.md R29), its layout in the buffer
(spec/30_encoding.md R90), the decoder's checks (spec/41_frame_codec.md R142), and the meanings of `TO_BYTES` and
`FROM_BYTES`. -/

namespace Sys2Proof.Machine

/-- A frame as an abstract value (R29): addresses, length field, payload bytes. -/
structure Frame where
  dst     : Vector Byte 6
  src     : Vector Byte 6
  len     : Half
  payload : List Byte
deriving DecidableEq, Repr

/-- The length field and the number of payload bytes agree, and are at most 1454 (R29). -/
abbrev Frame.WellFormed (f : Frame) : Prop := f.len.toNat = f.payload.length ∧ f.len.toNat ≤ Config.payloadMax

/-- The bytes of a frame up to its last payload byte, in index order (R90). The trailer and the unused tail are zero. -/
def Frame.headerAndPayload (f : Frame) : List Byte :=
  List.replicate Config.preambleLen Config.preamble ++ [Config.sfd] ++ f.dst.toList ++ f.src.toList ++
    [f.len.extractLsb' 8 8, f.len.extractLsb' 0 8] ++ f.payload

/-- The frame the registers hold (R28). -/
def State.frame (s : State) : Frame where
  dst := s.fDst
  src := s.fSrc
  len := s.fLen
  payload := (List.range s.fPcnt.toNat).map s.payByte

/-- The frame registers hold a well-formed frame: `F_LEN = F_PCNT` and `F_LEN <= 1454` (R29). -/
abbrev State.FrameOk (s : State) : Prop :=
  s.fLen.toNat = s.fPcnt.toNat ∧ s.fLen.toNat ≤ Config.payloadMax

/-- `TO_BYTES` (R141). -/
def execToBytes (s : State) : Result :=
  if s.FrameOk then
    .next (completeOk .fc
      { s with fb := Memory.ofBytes zeroDflt 0 s.frame.headerAndPayload, blen := BitVec.ofNat 11 Config.fbSize })
  else .next (raiseStatus .fc .encodeRefused s)

/-- The byte of a buffer at an index; the decoder asks only for indices below the length (R67, R147). -/
def byteAt (bs : List Byte) (i : Nat) : Byte := bs.getD i 0#8

/-- A byte other than the preamble among the first `min(7, n)` (R142, R172). -/
def badPreamble (bs : List Byte) : Bool := (bs.take Config.preambleLen).any (· != Config.preamble)

/-- The length field of a buffer: big-endian at indices 20 and 21 (R91). -/
def lengthField (bs : List Byte) : Nat := (byteAt bs 20).toNat * 256 + (byteAt bs 21).toNat

/-- Six bytes of a buffer from an index on. -/
def sixBytes (bs : List Byte) (start : Nat) : Vector Byte 6 :=
  #v[byteAt bs start, byteAt bs (start + 1), byteAt bs (start + 2), byteAt bs (start + 3), byteAt bs (start + 4),
    byteAt bs (start + 5)]

/-- What the decoder makes of a buffer. -/
inductive DecodedFrame where
  | frame (f : Frame)
  | fails (c : Status)
deriving DecidableEq, Repr

/-- The decoder on a list of bytes of any length (R30, R142): the checks in the rule's order. -/
def decodeFrame (bs : List Byte) : DecodedFrame :=
  if badPreamble bs then .fails .noStart
  else if bs.length < Config.minLen then .fails .invalidPacket
  else if bs.length < Config.hdrLen then .fails .invalidPacket
  else if Config.payloadMax < lengthField bs then .fails .invalidPacket
  else if bs.length < Config.hdrLen + lengthField bs then .fails .invalidPacket
  else .frame
    { dst := sixBytes bs 8
      src := sixBytes bs 14
      len := BitVec.ofNat 16 (lengthField bs)
      payload := (bs.drop Config.hdrLen).take (lengthField bs) }

/-- The valid bytes of the frame buffer, `FB[0..BLEN-1]` (R30). -/
def State.buffer (s : State) : List Byte := (List.range s.blen.toNat).map s.fbByte

/-- Put a decoded frame into the frame registers (R142). `F_PAY` from `F_PCNT` on has no specified value (R28): it is
left unlisted under a fresh free choice (assumption 13). -/
def loadFrame (f : Frame) (s : State) : State :=
  { s with
    fDst := f.dst
    fSrc := f.src
    fLen := f.len
    fPcnt := BitVec.ofNat 11 f.payload.length
    fPay := Memory.ofBytes none 0 f.payload
    fPayGen := s.free + 1
    free := s.free + 1 }

/-- `FROM_BYTES` (R142). -/
def execFromBytes (s : State) : Result :=
  match decodeFrame s.buffer with
  | .frame f => .next (completeOk .fc (loadFrame f s))
  | .fails c => .next (raiseStatus .fc c s)

end Sys2Proof.Machine
end

