-- ==== Sys2Proof/Machine/Environment.lean ====
section
/-! DEFINITION. What the world does to the hardware: environment steps (spec/20_memory.md R64), a client's register
accesses (spec/10_state.md R36), reset, and command words offered while an operation of unit CSA is in progress
(spec/70_reset_and_hazards.md R213). And the sequencer's step with the gap before it (R61). -/

namespace Sys2Proof.Machine

/-- A device or another bus master changes a configuration register (R64). `RamTarget`'s store holds the value; of any
other target all that is known is that its next answers may differ, which a fresh free choice says. -/
def csChange (r : CfgSel) (v : Dword) (s : State) : State :=
  match s.target with
  | .ram => { s with cs := write32 (cfgBase r) v s.cs }
  | .device => { s with free := s.free + 1 }

/-- An environment step (R64). A cycle on a port that is neither of the two does nothing here; a read of the address
port changes nothing (assumption 18). -/
def agentStep (a : AgentStep) (s : State) : Result :=
  match a with
  | .csChange r v => .next (csChange r v s)
  | .portWrite n v =>
    match portAt n s with
    | some .addr => .next (portWriteAddr .other v s)
    | some .data => portWriteData .other v s
    | none => .next s
  | .portRead n =>
    match portAt n s with
    | some .data => .next (portReadData .other s)
    | some .addr => .next s
    | none => .next s

/-- A client's read: the value goes to the client (R36). -/
def observe (r : ClientReg) (s : State) : State := { s with seen := s.seen ++ [⟨r, clientRead r s⟩] }

/-- Unit CSA takes a command only in `PH = IDLE`; otherwise the command is not accepted and has no effect, and its
client waits (R80, R110). -/
def whenIdle (s : State) (k : State → State) : State := if s.ph = .idle then k s else s

/-- A command word offered between two steps of an operation in progress (R213). Unit FC takes it. Unit CSA takes it
only if a reset has just made it idle, and then the sequencer goes on from `ADDR`. -/
def offer (w : CommandWord) (s : State) : Result :=
  match decode w with
  | .illegal _ => if routesToFc w then .next (refuseWord w s) else .next (whenIdle s (refuseWord w))
  | .instr .toBytes => execToBytes s
  | .instr .fromBytes => execFromBytes s
  | .instr (.readWord b d f o) => .next (whenIdle s (accept opReadWord b d f o 0#32))
  | .instr (.writeWord b d f o v) => .next (whenIdle s (accept opWriteWord b d f o (v.setWidth 32)))
  | .instr (.readDword b d f o) => .next (whenIdle s (accept opReadDword b d f o 0#32))
  | .instr (.writeDword b d f o v) => .next (whenIdle s (accept opWriteDword b d f o v))

/-- One thing the world does. -/
def applyInput (x : Input) (s : State) : Result :=
  match x with
  | .command w => offer w s
  | .write c => .next (clientWrite c s)
  | .read r => .next (observe r s)
  | .agent a => agentStep a s
  | .reset => .next (applyReset s)

/-- Several, in order. -/
def applyInputs : List Input → State → Result
  | [], s => .next s
  | x :: xs, s => andThen (applyInput x s) (applyInputs xs)

/-- The steps of others that fall before the next port cycle (R61, R64). -/
def passGap (s : State) : Result :=
  match s.gaps with
  | [] => .next s
  | g :: gs => applyInputs g { s with gaps := gs }

/-- One step of an operation in progress: the gap, then the port cycle the phase names (R110). -/
def tick (s : State) : Result :=
  if s.ph = .idle then .next s else andThen (passGap s) portCycle

/-- So many steps of the operation in progress. -/
def runTicks : Nat → State → Result
  | 0, s => .next s
  | n + 1, s => andThen (tick s) (runTicks n)

end Sys2Proof.Machine
end

