-- ==== Sys2Proof/Machine/ConfigAccess.lean ====
section
/-! DEFINITION. Unit CSA: the meanings of the four configuration access operations (spec/40_config_access.md). -/

namespace Sys2Proof.Machine

/-- An operation of unit CSA from acceptance to `PH = IDLE` (R110): `n` port cycles, each after the steps of others
that fall before it. While `PH` is not `IDLE` the command is not accepted, and its client waits. -/
def perform (n : Nat) (op : BitVec 4) (bus : BitVec 8) (dev : BitVec 5) (fn : BitVec 3) (off : BitVec 8) (wd : Dword)
    (s : State) : Result :=
  if s.ph = .idle then runTicks n (accept op bus dev fn off wd s) else .next s

/-- `READ_WORD` (R113): two port cycles, `AW(A), DR(d)`; the lane of `d` goes to `RD`, zero-extended. -/
def execReadWord (bus : BitVec 8) (dev : BitVec 5) (fn : BitVec 3) (off : BitVec 8) (s : State) : Result :=
  perform 2 opReadWord bus dev fn off 0#32 s

/-- `WRITE_WORD` (R114): three port cycles, `AW(A), DR(d), DW(d')`; `d'` is `d` with its lane replaced. -/
def execWriteWord (bus : BitVec 8) (dev : BitVec 5) (fn : BitVec 3) (off : BitVec 8) (value : Half) (s : State) :
    Result :=
  perform 3 opWriteWord bus dev fn off (value.setWidth 32) s

/-- `READ_DWORD` (R111): two port cycles, `AW(A), DR(d)`; `RD <- d`. -/
def execReadDword (bus : BitVec 8) (dev : BitVec 5) (fn : BitVec 3) (off : BitVec 8) (s : State) : Result :=
  perform 2 opReadDword bus dev fn off 0#32 s

/-- `WRITE_DWORD` (R112): two port cycles, `AW(A), DW(WD)`. -/
def execWriteDword (bus : BitVec 8) (dev : BitVec 5) (fn : BitVec 3) (off : BitVec 8) (value : Dword) (s : State) :
    Result :=
  perform 2 opWriteDword bus dev fn off value s

end Sys2Proof.Machine
end

