-- ==== Sys2Proof/Machine/Dispatch.lean ====
section
/-! DEFINITION. The meaning of each operation, by its constructor. -/

namespace Sys2Proof.Machine

def exec (i : Instr) (s : State) : Host.Outcome State Fault Refusal :=
  match i with
  | .readWord bus dev fn off => Sys2Proof.Machine.execReadWord bus dev fn off s
  | .writeWord bus dev fn off value => Sys2Proof.Machine.execWriteWord bus dev fn off value s
  | .readDword bus dev fn off => Sys2Proof.Machine.execReadDword bus dev fn off s
  | .writeDword bus dev fn off value => Sys2Proof.Machine.execWriteDword bus dev fn off value s
  | .toBytes => Sys2Proof.Machine.execToBytes s
  | .fromBytes => Sys2Proof.Machine.execFromBytes s

end Sys2Proof.Machine
end

