-- ==== Sys2Proof/Machine/Program.lean ====
section
/-! DEFINITION. How a client issues commands (spec/40_config_access.md R110, spec/70_reset_and_hazards.md R211, R213): one
input of a program taken whole, waiting until unit CSA is idle, and several inputs of another client in turn. -/

namespace Sys2Proof.Machine

/-- An input taken while unit CSA is idle: a command word is decoded and executed, or refused with `IllegalCommand`
(R80, R87, R88); any other input has its effect. -/
def takeInput (x : Input) (s : State) : Result :=
  match x with
  | .command w =>
    match decode w with
    | .instr i => exec i s
    | .illegal _ => .next (refuseWord w s)
  | .write c => applyInput (.write c) s
  | .read r => applyInput (.read r) s
  | .agent a => applyInput (.agent a) s
  | .reset => applyInput .reset s

/-- A client waits until `PH = IDLE` (R110, R214). Each step before that is a port cycle of the operation in progress.
There are at most three after the last gap in which a reset could let another operation begin. -/
def waitIdle (s : State) : Result := runTicks (s.gaps.length + 3) s

/-- What others do between two commands of a client, each input taken whole before the next (R213). -/
def takeInputs : List Input → State → Result
  | [], s => .next s
  | x :: xs, s => andThen (takeInput x s) fun t => andThen (waitIdle t) (takeInputs xs)

/-- A client issues a command: it waits for the unit, the command runs, and its result is there when the unit is idle
again (R110, R214). -/
def issue (i : Instr) (s : State) : Result :=
  andThen (waitIdle s) fun t => andThen (exec i t) waitIdle

end Sys2Proof.Machine
end

