-- ==== Sys2Proof/Machine/Step.lean ====
section
/-! DEFINITION. One step of the machine (spec/40_config_access.md R110, spec/70_reset_and_hazards.md R211), and how a
word of the opcode table is placed where the next step takes its command. -/

namespace Sys2Proof.Machine

/-- One step. While an operation of unit CSA is in progress (`PH` not `IDLE`) it goes on by one port cycle, and the
client waits. Otherwise the next input is taken. With no input left the hardware stays as it is. -/
def step (s : State) : Host.Outcome State Fault Refusal :=
  if s.ph = .idle then
    match s.inbox with
    | [] => .next s
    | x :: rest => takeInput x { s with inbox := rest }
  else tick s

/-- The state with a command word of the opcode table offered next (assumption 2): the word stands first in the
inbox, and unit CSA is idle, so that the next step takes it. -/
def State.withFetchWord (s : State) (nbits w : Nat) : State :=
  { s with inbox := .command (tableWord nbits w) :: s.inbox, ph := .idle }

end Sys2Proof.Machine
end

