-- ==== Sys2Proof/Machine/Pseudo.lean ====
section
/-! DEFINITION. The pseudo-instructions (spec/30_encoding.md R94): commands, with the client's arithmetic between them.
None is an operation of the hardware. The lists are what others do meanwhile (R213): `early` between the first command
and the client's read of its result, `late` between that read and the second command. `RD` is one register for all
clients, so a command of another client in an early list can replace the result (assumption 32). -/

namespace Sys2Proof.Machine

/-- `READ_WORD` as a step of an expansion: the command, then what others do before the client reads `RD`. -/
def issueRead (bus : BitVec 8) (dev : BitVec 5) (fn : BitVec 3) (off : BitVec 8) (early : List Input) (s : State) :
    Result :=
  andThen (issue (.readWord bus dev fn off) s) (takeInputs early)

/-- What the client keeps of a result: `RD[15:0]`. -/
def State.rdLow (s : State) : Half := s.rd.extractLsb' 0 16

/-- The client's arithmetic in `UPDATE_WORD`: `(RD[15:0] & ~clr16) | set16`. -/
def updateValue (rd clr set : Half) : Half := (rd &&& ~~~clr) ||| set

/-- `UPDATE_WORD bus, dev, fn, off, clr16, set16`. -/
def updateWord (bus : BitVec 8) (dev : BitVec 5) (fn : BitVec 3) (off : BitVec 8) (clr set : Half)
    (early late : List Input) (s : State) : Result :=
  andThen (issueRead bus dev fn off early s) fun t =>
    andThen (takeInputs late t) (issue (.writeWord bus dev fn off (updateValue t.rdLow clr set)))

/-- What a client forms from the state that a read leaves, with that state. -/
def withAnswer {α : Type} (r : Result) (f : State → α) : Host.Outcome (α × State) Fault Refusal :=
  match r with
  | .next t => .next (f t, t)
  | .fault x => .fault x
  | .refused x => .refused x

/-- `READ_PAIR bus, dev, fn, off`: the client forms `hi ++ lo`. The second command has an early list of its own. R94 gives
the expansion for `off[1:0] = 0` only; that the model runs it for every `off`, with `off + 2` on 8 bits (`0xFE` wraps to
`0x00`), is its own choice (DESIGN CHOICE, assumption 34). -/
def readPair (bus : BitVec 8) (dev : BitVec 5) (fn : BitVec 3) (off : BitVec 8) (early late early' : List Input)
    (s : State) : Host.Outcome (Dword × State) Fault Refusal :=
  match issueRead bus dev fn off early s with
  | .next t =>
    withAnswer (andThen (takeInputs late t) (issueRead bus dev fn (off + 2#8) early')) fun u =>
      (u.rdLow ++ t.rdLow : BitVec (16 + 16))
  | .fault f => .fault f
  | .refused x => .refused x

/-- `PROBE bus, dev, fn`: read the word at offset 0 and compare it with `P_ABSENT[15:0]`; true means absent. -/
def probe (bus : BitVec 8) (dev : BitVec 5) (fn : BitVec 3) (early : List Input) (s : State) :
    Host.Outcome (Bool × State) Fault Refusal :=
  withAnswer (issueRead bus dev fn 0#8 early s) fun t => decide (t.rdLow = s.absent.extractLsb' 0 16)

end Sys2Proof.Machine
end

