-- ==== Sys2Proof/Safety.lean ====
section
/-! DEFINITION. What a legal state is (an invariant of every step), and the premises claims name: no interference
inside an operation, exclusive use of the port pair (spec/20_memory.md R69). -/

namespace Sys2Proof.Machine

/-- The three memories are in canonical form. -/
abbrev State.MemoryOk (s : State) : Prop :=
  Memory.wf zeroDflt Config.csSize s.cs = true ∧ Memory.wf zeroDflt Config.fbSize s.fb = true ∧
    Memory.wf (payDflt s.fPayGen) Config.payloadMax s.fPay = true

/-- The counts are in range (R28, R30), and the free choice behind `F_PAY` has been taken. -/
abbrev State.CountsOk (s : State) : Prop :=
  s.fPcnt.toNat ≤ Config.payloadMax ∧ s.blen.toNat ≤ Config.fbSize ∧ s.fPayGen ≤ s.free

/-- The phase is one of the operation in `OP` (R110). -/
def phaseOfOp (op : BitVec 4) : Phase → Bool
  | .idle => true
  | .addr => op == opReadWord || op == opWriteWord || op == opReadDword || op == opWriteDword
  | .dread => op == opReadWord || op == opWriteWord || op == opReadDword
  | .dwrite => op == opWriteWord || op == opWriteDword

/-- Unit CSA: the phase fits the operation, and `ST` is `OK` or `IllegalCommand` (R31). -/
abbrev State.CsaOk (s : State) : Prop :=
  phaseOfOp s.op s.ph = true ∧ (s.csaSt = .ok ∨ s.csaSt = .illegalCommand)

/-- What every step keeps. -/
abbrev State.Inv (s : State) : Prop := s.MemoryOk ∧ s.CountsOk ∧ s.CsaOk ∧ s.addrPort ≠ s.dataPort

/-- Nothing falls into the next `n` gaps. -/
abbrev State.Quiet (s : State) (n : Nat) : Prop := ∀ g ∈ s.gaps.take n, g = []

/-- Whether an input keeps R69: no port cycle by another agent, and no reset. -/
def Input.keepsPorts : Input → Bool
  | .command _ => true
  | .write _ => true
  | .read _ => true
  | .agent (.csChange _ _) => true
  | .agent (.portWrite _ _) => false
  | .agent (.portRead _) => false
  | .reset => false

/-- Exclusive use of the port pair in the next `n` gaps (R69), and no reset in them. -/
abbrev State.ExclusivePorts (s : State) (n : Nat) : Prop := ∀ g ∈ s.gaps.take n, ∀ x ∈ g, x.keepsPorts = true

/-- So many steps of the machine. -/
def runSteps : Nat → State → Result
  | 0, s => .next s
  | n + 1, s => andThen (step s) (runSteps n)

/-- The port cycles unit CSA itself performed, oldest first (R119). -/
def csaCycles (tr : List PortEvent) : List PortCycle :=
  (tr.filter fun e => decide (e.who = .csa)).map PortEvent.cycle

end Sys2Proof.Machine
end

