-- ==== Sys2Proof/Certificates/Slice0/Obligations.lean ====
section
/-! DEFINITION. The statements for the provers. Each docstring names the rules of spec/ it formalises; where a clause is
the model's own choice it names the log entry. -/

namespace Sys2Proof.Machine

/-- The ten reserved opcodes (R83). -/
def reservedOpcodes : List (BitVec 4) :=
  [0x0#4, 0x5#4, 0x6#4, 0x7#4, 0xA#4, 0xB#4, 0xC#4, 0xD#4, 0xE#4, 0xF#4]

/-- What a refused command word leaves (R87): `IllegalCommand` in the status register of the unit bit 63 names, and
nothing else; `rest` is what the world does afterwards. -/
def afterRefusal (w : CommandWord) (rest : List Input) (s : State) : State :=
  if w.getLsbD 63 then { s with inbox := rest, fcSt := .illegalCommand }
  else { s with inbox := rest, csaSt := .illegalCommand }

/-- `RamTarget` answers for the function of the register (R64). -/
abbrev State.RamPresent (s : State) (r : CfgSel) : Prop := s.target = .ram ∧ r.bdf ∈ s.present

/-- The record of unit CSA grew by these port cycles (R119). -/
def grewBy (s t : State) (l : List PortCycle) : Prop := t.trace = s.trace ++ l.map fun c => ⟨.csa, c⟩

/-- `FB[i]` of the buffer `TO_BYTES` makes of the frame in the registers (the layout table of R90). -/
def layoutByte (s : State) (i : Nat) : Byte :=
  if i ≤ 6 then 0xAA#8
  else if i = 7 then 0xAB#8
  else if i ≤ 13 then s.fDst.toList.getD (i - 8) 0#8
  else if i ≤ 19 then s.fSrc.toList.getD (i - 14) 0#8
  else if i = 20 then s.fLen.extractLsb' 8 8
  else if i = 21 then s.fLen.extractLsb' 0 8
  else if i ≤ 21 + s.fLen.toNat then s.payByte (i - 22)
  else 0#8

/-- The length field of the frame buffer (R91). -/
def fbLength (s : State) : Nat := (s.fbByte 20).toNat * 256 + (s.fbByte 21).toNat

/-- A byte other than the preamble among the first `n` of the frame buffer. -/
def badByteBelow (s : State) (n : Nat) : Prop := ∃ i, i < n ∧ s.fbByte i ≠ 0xAA#8

/-- A byte other than the preamble among the first `min(7, BLEN)` (R172). -/
def fbBadPreamble (s : State) : Prop := badByteBelow s (min 7 s.blen.toNat)

/-- The two states hold the same inputs of unit FC: frame, buffer and count. -/
def sameFcInputs (s t : State) : Prop :=
  s.frame = t.frame ∧ s.buffer = t.buffer ∧ s.fLen = t.fLen ∧ s.fPcnt = t.fPcnt

end Sys2Proof.Machine

open Sys2Proof Sys2Proof.Machine

/-! ### Encoding -/

/-- Every operation, with every value of every operand, is decoded from its own command word (R81 to R83). -/
def Obligations.DecodeOfEncodeIsIdentity : Prop := ∀ i : Instr, decode (encode i) = .instr i

/-- Each legal command word is the one encoding of its operation: no bit of a word is ignored by the decoder. -/
def Obligations.EncodeOfDecodeIsIdentity : Prop :=
  ∀ (w : CommandWord) (i : Instr), decode w = .instr i → encode i = w

/-- R97, the worked examples: command word, address word and shift of each, and the last sentence for every word of
format C. -/
def Obligations.WorkedEncodings : Prop :=
  (decode 0x1000180000000000#64 = .instr (.readWord 0 3 0 0x00) ∧
    encode (.readWord 0 3 0 0x00) = 0x1000180000000000#64 ∧
    addressWord 0 3 0 0x00 = 0x80001800#32 ∧ laneShift 0x00 = 0) ∧
  (decode 0x1000180600000000#64 = .instr (.readWord 0 3 0 0x06) ∧
    encode (.readWord 0 3 0 0x06) = 0x1000180600000000#64 ∧
    addressWord 0 3 0 0x06 = 0x80001804#32 ∧ laneShift 0x06 = 16) ∧
  (decode 0x2000180400000005#64 = .instr (.writeWord 0 3 0 0x04 0x0005) ∧
    encode (.writeWord 0 3 0 0x04 0x0005) = 0x2000180400000005#64 ∧
    addressWord 0 3 0 0x04 = 0x80001804#32 ∧ laneShift 0x04 = 0) ∧
  (decode 0x2012553E00001234#64 = .instr (.writeWord 18 10 5 0x3E 0x1234) ∧
    encode (.writeWord 18 10 5 0x3E 0x1234) = 0x2012553E00001234#64 ∧
    addressWord 18 10 5 0x3E = 0x8012553C#32 ∧ laneShift 0x3E = 16) ∧
  (decode 0x3000181000000000#64 = .instr (.readDword 0 3 0 0x10) ∧
    encode (.readDword 0 3 0 0x10) = 0x3000181000000000#64 ∧ addressWord 0 3 0 0x10 = 0x80001810#32) ∧
  (decode 0x40001810FFFFFFFF#64 = .instr (.writeDword 0 3 0 0x10 0xFFFFFFFF) ∧
    encode (.writeDword 0 3 0 0x10 0xFFFFFFFF) = 0x40001810FFFFFFFF#64 ∧ addressWord 0 3 0 0x10 = 0x80001810#32) ∧
  (decode 0x10FFFFFE00000000#64 = .instr (.readWord 255 31 7 0xFE) ∧
    encode (.readWord 255 31 7 0xFE) = 0x10FFFFFE00000000#64 ∧
    addressWord 255 31 7 0xFE = 0x80FFFFFC#32 ∧ laneShift 0xFE = 16) ∧
  (decode 0x8000000000000000#64 = .instr .toBytes ∧ encode .toBytes = 0x8000000000000000#64) ∧
  (decode 0x9000000000000000#64 = .instr .fromBytes ∧ encode .fromBytes = 0x9000000000000000#64) ∧
  ∀ (opc : BitVec 4) (bus : BitVec 8) (dev : BitVec 5) (fn : BitVec 3) (off : BitVec 8) (data : Dword),
    (formatC opc bus dev fn off data).extractLsb' 32 24 &&& 0xFFFFFC#24 =
      (addressWord bus dev fn off).extractLsb' 0 24

/-- R83: a word selects a row of the opcode table exactly when it decodes to an operation of that row; no word selects
two rows; the opcode of each operation; the ten remaining opcodes are reserved. -/
def Obligations.OpcodeTableDecidesDecoding : Prop :=
  (∀ (w : CommandWord) (r : TableRow), r ∈ opcodeTable →
    (r.selects w = true ↔ ∃ i : Instr, decode w = .instr i ∧ i.row = r)) ∧
  (∀ (w : CommandWord) (r q : TableRow), r ∈ opcodeTable → q ∈ opcodeTable → r.selects w = true →
    q.selects w = true → r = q) ∧
  (∀ (bus : BitVec 8) (dev : BitVec 5) (fn : BitVec 3) (off : BitVec 8) (v : Half) (x : Dword),
    opcOf (encode (.readWord bus dev fn off)) = 0x1#4 ∧ opcOf (encode (.writeWord bus dev fn off v)) = 0x2#4 ∧
    opcOf (encode (.readDword bus dev fn off)) = 0x3#4 ∧ opcOf (encode (.writeDword bus dev fn off x)) = 0x4#4 ∧
    opcOf (encode .toBytes) = 0x8#4 ∧ opcOf (encode .fromBytes) = 0x9#4) ∧
  ∀ w : CommandWord, opcOf w ∈ reservedOpcodes ↔ decode w = .illegal (.reservedOpcode (opcOf w))

/-- R87: a command word with a reserved opcode is not executed; the unit bit 63 names gets `IllegalCommand`, no port
cycle is performed and no other state changes. -/
def Obligations.ReservedOpcodesAreRefused : Prop :=
  ∀ (w : CommandWord) (rest : List Input) (s : State), opcOf w ∈ reservedOpcodes → s.ph = .idle →
    s.inbox = .command w :: rest → step s = .next (afterRefusal w rest s)

/-- R88: the same for an assigned opcode with a non-zero reserved field. -/
def Obligations.ReservedFieldsAreRefused : Prop :=
  ∀ (w : CommandWord) (rest : List Input) (s : State),
    (opcOf w ∈ [0x1#4, 0x2#4, 0x3#4, 0x4#4] ∧ rsvOf w ≠ 0#4) ∨
      (opcOf w ∈ [0x1#4, 0x3#4] ∧ dataOf w ≠ 0#32) ∨
      (opcOf w = 0x2#4 ∧ dataHiOf w ≠ 0#16) ∨
      (opcOf w ∈ [0x8#4, 0x9#4] ∧ formatFZeroOf w ≠ 0#60) →
    s.ph = .idle → s.inbox = .command w :: rest → step s = .next (afterRefusal w rest s)

/-- R93 (its last sentences): nothing is emitted for a line with an operand out of the range of its field (bus above 255,
device above 31, function above 7, offset above 255, `value16` above `0xFFFF`, `value32` above `0xFFFFFFFF`), and for
no other line; a word that is emitted decodes to the line's operation, and has every operand as written. -/
def Obligations.AssemblerEmitsOnlyLinesInRange : Prop :=
  (∀ b d f o v x : Nat,
    (assemble (.readWord b d f o) = none ↔ 255 < b ∨ 31 < d ∨ 7 < f ∨ 255 < o) ∧
    (assemble (.readDword b d f o) = none ↔ 255 < b ∨ 31 < d ∨ 7 < f ∨ 255 < o) ∧
    (assemble (.writeWord b d f o v) = none ↔ 255 < b ∨ 31 < d ∨ 7 < f ∨ 255 < o ∨ 0xFFFF < v) ∧
    (assemble (.writeDword b d f o x) = none ↔ 255 < b ∨ 31 < d ∨ 7 < f ∨ 255 < o ∨ 0xFFFFFFFF < x) ∧
    assemble .toBytes = some 0x8000000000000000#64 ∧ assemble .fromBytes = some 0x9000000000000000#64) ∧
  (∀ (l : AsmLine) (w : CommandWord), assemble l = some w → decode w = .instr l.toInstr) ∧
  ∀ b d f o v x : Nat, b ≤ 255 → d ≤ 31 → f ≤ 7 → o ≤ 255 → v ≤ 0xFFFF → x ≤ 0xFFFFFFFF →
    (∃ w, assemble (.readWord b d f o) = some w ∧ (busOf w).toNat = b ∧ (devOf w).toNat = d ∧
      (fnOf w).toNat = f ∧ (offOf w).toNat = o) ∧
    (∃ w, assemble (.readDword b d f o) = some w ∧ (busOf w).toNat = b ∧ (devOf w).toNat = d ∧
      (fnOf w).toNat = f ∧ (offOf w).toNat = o) ∧
    (∃ w, assemble (.writeWord b d f o v) = some w ∧ (busOf w).toNat = b ∧ (devOf w).toNat = d ∧
      (fnOf w).toNat = f ∧ (offOf w).toNat = o ∧ (value16Of w).toNat = v) ∧
    ∃ w, assemble (.writeDword b d f o x) = some w ∧ (busOf w).toNat = b ∧ (devOf w).toNat = d ∧
      (fnOf w).toNat = f ∧ (offOf w).toNat = o ∧ (dataOf w).toNat = x

/-! ### The address word and the lane -/

/-- R85: the address word is a concatenation, and the map from the fields to it is one-to-one. -/
def Obligations.AddressWordIsConcatenation : Prop :=
  (∀ (bus : BitVec 8) (dev : BitVec 5) (fn : BitVec 3) (off : BitVec 8),
    addressWord bus dev fn off =
      (1#1 ++ 0#7 ++ bus ++ dev ++ fn ++ off.extractLsb' 2 6 ++ 0#2 : BitVec (1 + 7 + 8 + 5 + 3 + 6 + 2))) ∧
  ∀ (bus bus' : BitVec 8) (dev dev' : BitVec 5) (fn fn' : BitVec 3) (off off' : BitVec 8),
    addressWord bus dev fn off = addressWord bus' dev' fn' off' →
      bus = bus' ∧ dev = dev' ∧ fn = fn' ∧ off.extractLsb' 2 6 = off'.extractLsb' 2 6

/-- R86: the lane shift is 0 or 16, the mask, the lane a read takes and the dword a write forms. -/
def Obligations.LaneShiftMaskReadAndMerge : Prop :=
  ∀ (off : BitVec 8) (d : Dword) (v : Half),
    laneShift off = (off &&& 2#8).toNat * 8 ∧
    (off.getLsbD 1 = false → laneShift off = 0 ∧ laneMask off = 0x0000FFFF#32) ∧
    (off.getLsbD 1 = true → laneShift off = 16 ∧ laneMask off = 0xFFFF0000#32) ∧
    laneRead d off = (d >>> laneShift off).extractLsb' 0 16 ∧
    laneMerge d off v = (d &&& ~~~(laneMask off)) ||| (v.setWidth 32 <<< laneShift off)

/-! ### Unit CSA: the four operations -/

/-- R111, whole: the encoding; the next state, in full; the result is what the target holds at the moment of the data
read; an absent function reads as `P_ABSENT`; the two low offset bits are ignored; the worked example. -/
def Obligations.ReadDwordMeaning : Prop :=
  ∀ (bus : BitVec 8) (dev : BitVec 5) (fn : BitVec 3) (off : BitVec 8),
    (opcOf (encode (.readDword bus dev fn off)) = 0x3#4 ∧ dataOf (encode (.readDword bus dev fn off)) = 0#32) ∧
    (∀ s : State, s.ph = .idle → s.Quiet 2 →
      exec (.readDword bus dev fn off) s = .next
        { s with
          op := 0x3#4, bus := bus, dev := dev, fn := fn, off := off, wd := 0#32
          ca := addressWord bus dev fn off
          rd := cfgRead (operandSel bus dev fn off) s
          csaSt := .ok
          trace := s.trace ++ [⟨.csa, .aw (addressWord bus dev fn off)⟩,
            ⟨.csa, .dr (cfgRead (operandSel bus dev fn off) s)⟩]
          free := s.free + 1
          gaps := s.gaps.drop 2 }) ∧
    (∀ (s : State) (v : Dword) (rest : List (List Input)), s.Inv → s.ph = .idle →
      s.RamPresent (operandSel bus dev fn off) →
      s.gaps = [] :: [.agent (.csChange (operandSel bus dev fn off) v)] :: rest →
      ∃ t, exec (.readDword bus dev fn off) s = .next t ∧ t.rd = v ∧ t.csaSt = .ok) ∧
    (∀ s : State, s.ph = .idle → s.Quiet 2 → targetAnswer (operandSel bus dev fn off) s = none →
      ∃ t, exec (.readDword bus dev fn off) s = .next t ∧ t.rd = s.absent ∧ t.csaSt = .ok) ∧
    (∀ (s : State) (off' : BitVec 8), s.ph = .idle → s.Quiet 2 → off'.extractLsb' 2 6 = off.extractLsb' 2 6 →
      ∃ t, exec (.readDword bus dev fn off) s = .next t ∧
        exec (.readDword bus dev fn off') s = .next { t with off := off' }) ∧
    ∀ s : State, s.ph = .idle → s.Quiet 2 → s.RamPresent ⟨0, 3, 0, 4⟩ →
      read32 s.cs (cfgBase ⟨0, 3, 0, 4⟩) = 0x0000C001#32 →
      ∃ t, exec (.readDword 0 3 0 0x10) s = .next t ∧
        grewBy s t [.aw 0x80001810#32, .dr 0x0000C001#32] ∧ t.rd = 0x0000C001#32

/-- R112, whole: the encoding; the next state, in full (`RD` and `TMP` unchanged among the rest); all 32 bits of a
present register of `RamTarget` are replaced; a write to an absent function does nothing and ends with `OK`; the two
low offset bits are ignored; the worked example. -/
def Obligations.WriteDwordMeaning : Prop :=
  ∀ (bus : BitVec 8) (dev : BitVec 5) (fn : BitVec 3) (off : BitVec 8) (v : Dword),
    (opcOf (encode (.writeDword bus dev fn off v)) = 0x4#4 ∧ dataOf (encode (.writeDword bus dev fn off v)) = v) ∧
    (∀ s : State, s.ph = .idle → s.Quiet 2 →
      exec (.writeDword bus dev fn off v) s = .next
        { s with
          op := 0x4#4, bus := bus, dev := dev, fn := fn, off := off, wd := v
          ca := addressWord bus dev fn off
          csaSt := .ok
          cfgWrites := s.cfgWrites ++ [⟨operandSel bus dev fn off, v⟩]
          cs := if storeTakes (operandSel bus dev fn off) s then write32 (cfgBase (operandSel bus dev fn off)) v s.cs
            else s.cs
          trace := s.trace ++ [⟨.csa, .aw (addressWord bus dev fn off)⟩, ⟨.csa, .dw v⟩]
          gaps := s.gaps.drop 2 }) ∧
    (∀ s : State, s.Inv → s.ph = .idle → s.Quiet 2 → s.RamPresent (operandSel bus dev fn off) →
      ∃ t, exec (.writeDword bus dev fn off v) s = .next t ∧ cfgRead (operandSel bus dev fn off) t = v) ∧
    (∀ s : State, s.ph = .idle → s.Quiet 2 → s.target = .ram → (operandSel bus dev fn off).bdf ∉ s.present →
      ∃ t, exec (.writeDword bus dev fn off v) s = .next t ∧ t.cs = s.cs ∧ t.csaSt = .ok) ∧
    (∀ (s : State) (off' : BitVec 8), s.ph = .idle → s.Quiet 2 → off'.extractLsb' 2 6 = off.extractLsb' 2 6 →
      ∃ t, exec (.writeDword bus dev fn off v) s = .next t ∧
        exec (.writeDword bus dev fn off' v) s = .next { t with off := off' }) ∧
    ∀ s : State, s.Inv → s.ph = .idle → s.Quiet 2 → s.RamPresent ⟨0, 3, 0, 4⟩ →
      ∃ t, exec (.writeDword 0 3 0 0x10 0xFFFFFFFF) s = .next t ∧
        grewBy s t [.aw 0x80001810#32, .dw 0xFFFFFFFF#32] ∧
        read32 t.cs (cfgBase ⟨0, 3, 0, 4⟩) = 0xFFFFFFFF#32

/-- R113, whole: the encoding; the next state, in full (the lane zero-extended in `RD`, the whole register read); the
lane by `off[1]`; an absent function; an odd offset behaves as the even one below; the worked example. -/
def Obligations.ReadWordMeaning : Prop :=
  ∀ (bus : BitVec 8) (dev : BitVec 5) (fn : BitVec 3) (off : BitVec 8),
    (opcOf (encode (.readWord bus dev fn off)) = 0x1#4 ∧ dataOf (encode (.readWord bus dev fn off)) = 0#32) ∧
    (∀ s : State, s.ph = .idle → s.Quiet 2 →
      exec (.readWord bus dev fn off) s = .next
        { s with
          op := 0x1#4, bus := bus, dev := dev, fn := fn, off := off, wd := 0#32
          ca := addressWord bus dev fn off
          rd := if off.getLsbD 1 then ((cfgRead (operandSel bus dev fn off) s).extractLsb' 16 16).setWidth 32
            else ((cfgRead (operandSel bus dev fn off) s).extractLsb' 0 16).setWidth 32
          csaSt := .ok
          trace := s.trace ++ [⟨.csa, .aw (addressWord bus dev fn off)⟩,
            ⟨.csa, .dr (cfgRead (operandSel bus dev fn off) s)⟩]
          free := s.free + 1
          gaps := s.gaps.drop 2 }) ∧
    (∀ s : State, s.ph = .idle → s.Quiet 2 → targetAnswer (operandSel bus dev fn off) s = none →
      ∃ t, exec (.readWord bus dev fn off) s = .next t ∧ t.csaSt = .ok ∧
        t.rd = (laneRead s.absent off).setWidth 32) ∧
    (∀ s : State, s.ph = .idle → s.Quiet 2 → off.getLsbD 0 = true →
      ∃ t, exec (.readWord bus dev fn (off - 1#8)) s = .next t ∧
        exec (.readWord bus dev fn off) s = .next { t with off := off }) ∧
    ∀ s : State, s.ph = .idle → s.Quiet 2 → s.RamPresent ⟨0, 3, 0, 0⟩ →
      read32 s.cs (cfgBase ⟨0, 3, 0, 0⟩) = 0x56781234#32 →
      ∃ t, exec (.readWord 0 3 0 0x02) s = .next t ∧
        grewBy s t [.aw 0x80001800#32, .dr 0x56781234#32] ∧ t.rd = 0x00005678#32

/-- R114, whole: the encoding; the next state, in full (three port cycles, whatever the lane held; `RD` unchanged among
the rest); an absent function; an odd offset behaves as the even one below; the worked example. -/
def Obligations.WriteWordMeaning : Prop :=
  ∀ (bus : BitVec 8) (dev : BitVec 5) (fn : BitVec 3) (off : BitVec 8) (v : Half),
    (opcOf (encode (.writeWord bus dev fn off v)) = 0x2#4 ∧ value16Of (encode (.writeWord bus dev fn off v)) = v ∧
      dataHiOf (encode (.writeWord bus dev fn off v)) = 0#16) ∧
    (∀ s : State, s.ph = .idle → s.Quiet 3 →
      exec (.writeWord bus dev fn off v) s = .next
        { s with
          op := 0x2#4, bus := bus, dev := dev, fn := fn, off := off, wd := v.setWidth 32
          ca := addressWord bus dev fn off
          tmp := cfgRead (operandSel bus dev fn off) s
          csaSt := .ok
          cfgWrites := s.cfgWrites ++
            [⟨operandSel bus dev fn off, laneMerge (cfgRead (operandSel bus dev fn off) s) off v⟩]
          cs := if storeTakes (operandSel bus dev fn off) s then
              write32 (cfgBase (operandSel bus dev fn off))
                (laneMerge (cfgRead (operandSel bus dev fn off) s) off v) s.cs
            else s.cs
          trace := s.trace ++ [⟨.csa, .aw (addressWord bus dev fn off)⟩,
            ⟨.csa, .dr (cfgRead (operandSel bus dev fn off) s)⟩,
            ⟨.csa, .dw (laneMerge (cfgRead (operandSel bus dev fn off) s) off v)⟩]
          free := s.free + 1
          gaps := s.gaps.drop 3 }) ∧
    (∀ s : State, s.ph = .idle → s.Quiet 3 → s.target = .ram → (operandSel bus dev fn off).bdf ∉ s.present →
      ∃ t, exec (.writeWord bus dev fn off v) s = .next t ∧ t.tmp = s.absent ∧ t.cs = s.cs ∧ t.csaSt = .ok) ∧
    (∀ s : State, s.ph = .idle → s.Quiet 3 → off.getLsbD 0 = true →
      ∃ t, exec (.writeWord bus dev fn (off - 1#8) v) s = .next t ∧
        exec (.writeWord bus dev fn off v) s = .next { t with off := off }) ∧
    ∀ s : State, s.Inv → s.ph = .idle → s.Quiet 3 → s.RamPresent ⟨0, 3, 0, 1⟩ →
      read32 s.cs (cfgBase ⟨0, 3, 0, 1⟩) = 0x02900000#32 →
      ∃ t, exec (.writeWord 0 3 0 0x04 0x0005) s = .next t ∧
        grewBy s t [.aw 0x80001804#32, .dr 0x02900000#32, .dw 0x02900005#32] ∧
        read32 t.cs (cfgBase ⟨0, 3, 0, 1⟩) = 0x02900005#32

/-- R116: the value written back has the untouched lane of the fetched dword and `value16` in the target lane; under
`RamTarget` the register then holds it. Whatever else happens in the gaps, as long as no other agent uses the ports and
no reset falls in them (R69): the value written goes by what was fetched, also where a device has changed the register
since. -/
def Obligations.WriteWordPreservesTheOtherLane : Prop :=
  ∀ (bus : BitVec 8) (dev : BitVec 5) (fn : BitVec 3) (off : BitVec 8) (v : Half) (s : State),
    s.ph = .idle → s.ExclusivePorts 3 →
    ∃ (t : State) (d' : Dword), exec (.writeWord bus dev fn off v) s = .next t ∧
      csaCycles t.trace = csaCycles s.trace ++ [.aw (addressWord bus dev fn off), .dr t.tmp, .dw d'] ∧
      (off.getLsbD 1 = false → d' = (t.tmp.extractLsb' 16 16 ++ v : BitVec (16 + 16))) ∧
      (off.getLsbD 1 = true → d' = (v ++ t.tmp.extractLsb' 0 16 : BitVec (16 + 16))) ∧
      (s.Inv → s.RamPresent (operandSel bus dev fn off) → cfgRead (operandSel bus dev fn off) t = d')

/-- R119, under exclusive use of the ports (R69) and whatever else happens in the gaps (other agents change registers,
a second client uses unit FC): every operation of unit CSA completes with `ST = OK`, and unit CSA's record grows by
exactly the cycles the rule lists, with the result the operation takes from them. -/
def Obligations.ExclusiveUseCompletesWithTheRecord : Prop :=
  ∀ (bus : BitVec 8) (dev : BitVec 5) (fn : BitVec 3) (off : BitVec 8) (v : Half) (w : Dword) (s : State),
    s.ph = .idle → s.ExclusivePorts 3 →
    (∃ (t : State) (d : Dword), exec (.readDword bus dev fn off) s = .next t ∧ t.ph = .idle ∧ t.csaSt = .ok ∧
      t.ca = addressWord bus dev fn off ∧ t.rd = d ∧ t.tmp = s.tmp ∧
      csaCycles t.trace = csaCycles s.trace ++ [.aw (addressWord bus dev fn off), .dr d]) ∧
    (∃ (t : State) (d : Dword), exec (.readWord bus dev fn off) s = .next t ∧ t.ph = .idle ∧ t.csaSt = .ok ∧
      t.ca = addressWord bus dev fn off ∧ t.rd = (laneRead d off).setWidth 32 ∧ t.tmp = s.tmp ∧
      csaCycles t.trace = csaCycles s.trace ++ [.aw (addressWord bus dev fn off), .dr d]) ∧
    (∃ t : State, exec (.writeDword bus dev fn off w) s = .next t ∧ t.ph = .idle ∧ t.csaSt = .ok ∧
      t.ca = addressWord bus dev fn off ∧ t.rd = s.rd ∧ t.tmp = s.tmp ∧
      csaCycles t.trace = csaCycles s.trace ++ [.aw (addressWord bus dev fn off), .dw w]) ∧
    ∃ (t : State) (d : Dword), exec (.writeWord bus dev fn off v) s = .next t ∧ t.ph = .idle ∧ t.csaSt = .ok ∧
      t.ca = addressWord bus dev fn off ∧ t.rd = s.rd ∧ t.tmp = d ∧
      csaCycles t.trace = csaCycles s.trace ++
        [.aw (addressWord bus dev fn off), .dr d, .dw (laneMerge d off v)]

/-- R117: read after write under `RamTarget` with no environment steps, for a present function. -/
def Obligations.ReadAfterWriteUnderRamTarget : Prop :=
  ∀ (bus : BitVec 8) (dev : BitVec 5) (fn : BitVec 3) (off : BitVec 8) (v : Half) (w : Dword) (s : State),
    s.Inv → s.ph = .idle → s.Quiet 5 → s.RamPresent (operandSel bus dev fn off) →
    (∃ t, exec (.writeWord bus dev fn off v) s = .next t ∧
      (∃ u, exec (.readWord bus dev fn off) t = .next u ∧ u.rd = v.setWidth 32) ∧
      ∃ u₀ u, exec (.readWord bus dev fn (off ^^^ 2#8)) s = .next u₀ ∧
        exec (.readWord bus dev fn (off ^^^ 2#8)) t = .next u ∧ u.rd = u₀.rd) ∧
    ∃ t, exec (.writeDword bus dev fn off w) s = .next t ∧
      (∃ u, exec (.readDword bus dev fn off) t = .next u ∧ u.rd = w) ∧
      (∃ u, exec (.readWord bus dev fn (off &&& 0xFC#8)) t = .next u ∧
        u.rd = (w.extractLsb' 0 16).setWidth 32) ∧
      ∃ u, exec (.readWord bus dev fn ((off &&& 0xFC#8) + 2#8)) t = .next u ∧
        u.rd = (w.extractLsb' 16 16).setWidth 32

/-- R57: the register is little-endian with respect to offsets. A word operation and a dword operation on the same
register see the same bits. The byte at offset `4k + i` is bits `8i+7 : 8i` of register `k`: the spec marks that sentence
of R57 as derived (the source never addresses single bytes), and the place of the byte in the store is the model's (log
27). -/
def Obligations.LanesAndBytesAreLittleEndian : Prop :=
  ∀ (bus : BitVec 8) (dev : BitVec 5) (fn : BitVec 3) (k : BitVec 6) (s : State), s.ph = .idle → s.Quiet 2 →
    (∃ t lo hi, exec (.readDword bus dev fn (k ++ 0#2 : BitVec (6 + 2))) s = .next t ∧
      exec (.readWord bus dev fn (k ++ 0#2 : BitVec (6 + 2))) s = .next lo ∧
      exec (.readWord bus dev fn (k ++ 2#2 : BitVec (6 + 2))) s = .next hi ∧
      lo.rd = (t.rd.extractLsb' 0 16).setWidth 32 ∧ hi.rd = (t.rd.extractLsb' 16 16).setWidth 32) ∧
    (s.RamPresent ⟨bus, dev, fn, k⟩ → ∀ i : Nat, i < 4 →
      s.csByte (cfgBase ⟨bus, dev, fn, k⟩ + i) = (cfgRead ⟨bus, dev, fn, k⟩ s).extractLsb' (8 * i) 8)

/-- The frame over memory of the operations of unit CSA: a read leaves every byte of the configuration space; a write
changes the four bytes at the address its own address word selects (`caSelect`, `cfgBase`), and no other byte; `FB` and
`F_PAY` stand. Where the store keeps a register's bytes, and that byte `i` of them is bits `8i+7 : 8i` of the dword
written, is the model's (log 27), with the byte order of the sentence of R57 that the spec marks as derived. -/
def Obligations.ConfigSpaceFrame : Prop :=
  ∀ (bus : BitVec 8) (dev : BitVec 5) (fn : BitVec 3) (off : BitVec 8) (v : Half) (w : Dword) (s : State),
    s.Inv → s.ph = .idle → s.Quiet 3 →
    (∃ t, exec (.readDword bus dev fn off) s = .next t ∧ ∀ a, t.csByte a = s.csByte a ∧ t.fbByte a = s.fbByte a ∧
      t.payByte a = s.payByte a) ∧
    (∃ t, exec (.readWord bus dev fn off) s = .next t ∧ ∀ a, t.csByte a = s.csByte a ∧ t.fbByte a = s.fbByte a ∧
      t.payByte a = s.payByte a) ∧
    (∃ t, exec (.writeDword bus dev fn off w) s = .next t ∧
      (∀ a, t.fbByte a = s.fbByte a ∧ t.payByte a = s.payByte a) ∧
      (∀ a, ¬ (cfgBase (caSelect (addressWord bus dev fn off)) ≤ a ∧
        a < cfgBase (caSelect (addressWord bus dev fn off)) + 4) → t.csByte a = s.csByte a) ∧
      (s.RamPresent (caSelect (addressWord bus dev fn off)) → ∀ i, i < 4 →
        t.csByte (cfgBase (caSelect (addressWord bus dev fn off)) + i) = w.extractLsb' (8 * i) 8)) ∧
    ∃ t, exec (.writeWord bus dev fn off v) s = .next t ∧
      (∀ a, t.fbByte a = s.fbByte a ∧ t.payByte a = s.payByte a) ∧
      (∀ a, ¬ (cfgBase (caSelect (addressWord bus dev fn off)) ≤ a ∧
        a < cfgBase (caSelect (addressWord bus dev fn off)) + 4) → t.csByte a = s.csByte a) ∧
      (s.RamPresent (caSelect (addressWord bus dev fn off)) → ∀ i, i < 4 →
        t.csByte (cfgBase (caSelect (addressWord bus dev fn off)) + i) =
          (laneMerge t.tmp off v).extractLsb' (8 * i) 8)

/-- R203: another agent writes the address port between the address cycle and the first data cycle of an operation. Every
later data cycle reaches the register that value selects, with `ST = OK`, and nothing shows it. Under `RamTarget` a write
then overwrites the register `x` selects, and the register the client meant stands where it is another one. Which
register a value with a bit of 30:24 or 1:0 set selects is read from R55 against U2 (log 12). If the value has
`CA[31] = 0` a read still completes (its value is free, log 10) and a write is refused (log 11). -/
def Obligations.AddressRewrittenInsideAnOperation : Prop :=
  ∀ (bus : BitVec 8) (dev : BitVec 5) (fn : BitVec 3) (off : BitVec 8) (v : Half) (w x : Dword)
    (rest : List (List Input)) (s : State),
    s.ph = .idle → s.gaps = [] :: [.agent (.portWrite s.addrPort x)] :: [] :: rest →
    (∃ t, exec (.readDword bus dev fn off) s = .next t ∧ t.ca = x ∧ t.csaSt = .ok ∧ t.ph = .idle ∧ t.cs = s.cs ∧
      (caEnabled x = true → t.rd = cfgRead (caSelect x) s)) ∧
    (∃ t, exec (.readWord bus dev fn off) s = .next t ∧ t.ca = x ∧ t.csaSt = .ok ∧ t.ph = .idle ∧ t.cs = s.cs ∧
      (caEnabled x = true → t.rd = (laneRead (cfgRead (caSelect x) s) off).setWidth 32)) ∧
    (caEnabled x = true → ∃ t, exec (.writeDword bus dev fn off w) s = .next t ∧ t.ca = x ∧ t.csaSt = .ok ∧
      t.cfgWrites = s.cfgWrites ++ [⟨caSelect x, w⟩] ∧
      t.cs = (if storeTakes (caSelect x) s then write32 (cfgBase (caSelect x)) w s.cs else s.cs) ∧
      (s.Inv → s.RamPresent (caSelect x) → cfgRead (caSelect x) t = w) ∧
      (s.Inv → s.target = .ram → operandSel bus dev fn off ≠ caSelect x →
        cfgRead (operandSel bus dev fn off) t = cfgRead (operandSel bus dev fn off) s)) ∧
    (caEnabled x = true → ∃ t, exec (.writeWord bus dev fn off v) s = .next t ∧ t.ca = x ∧ t.csaSt = .ok ∧
      t.tmp = cfgRead (caSelect x) s ∧
      t.cfgWrites = s.cfgWrites ++ [⟨caSelect x, laneMerge (cfgRead (caSelect x) s) off v⟩] ∧
      t.cs = (if storeTakes (caSelect x) s then
          write32 (cfgBase (caSelect x)) (laneMerge (cfgRead (caSelect x) s) off v) s.cs
        else s.cs) ∧
      t.trace = s.trace ++ [⟨.csa, .aw (addressWord bus dev fn off)⟩, ⟨.other, .aw x⟩,
        ⟨.csa, .dr (cfgRead (caSelect x) s)⟩, ⟨.csa, .dw (laneMerge (cfgRead (caSelect x) s) off v)⟩] ∧
      (s.Inv → s.RamPresent (caSelect x) →
        cfgRead (caSelect x) t = laneMerge (cfgRead (caSelect x) s) off v) ∧
      (s.Inv → s.target = .ram → operandSel bus dev fn off ≠ caSelect x →
        cfgRead (operandSel bus dev fn off) t = cfgRead (operandSel bus dev fn off) s)) ∧
    (caEnabled x = false → exec (.writeDword bus dev fn off w) s = .refused .dataWriteWhileDisabled ∧
      exec (.writeWord bus dev fn off v) s = .refused .dataWriteWhileDisabled)

/-- R203, the later window of `WRITE_WORD`: another agent writes the address port between the fetch and the write-back. What
was fetched is the register the client meant, and the dword formed from it is written to the register the value selects
(log 12 for a value with a bit of 30:24 or 1:0 set), with `ST = OK`; with `CA[31] = 0` the write is refused (log 11). -/
def Obligations.AddressRewrittenBeforeTheWriteBack : Prop :=
  ∀ (bus : BitVec 8) (dev : BitVec 5) (fn : BitVec 3) (off : BitVec 8) (v : Half) (x : Dword)
    (rest : List (List Input)) (s : State),
    s.ph = .idle → s.gaps = [] :: [] :: [.agent (.portWrite s.addrPort x)] :: rest →
    (caEnabled x = true → ∃ (t : State) (d' : Dword), exec (.writeWord bus dev fn off v) s = .next t ∧
      d' = laneMerge (cfgRead (operandSel bus dev fn off) s) off v ∧
      t.ca = x ∧ t.csaSt = .ok ∧ t.tmp = cfgRead (operandSel bus dev fn off) s ∧
      t.cfgWrites = s.cfgWrites ++ [⟨caSelect x, d'⟩] ∧
      t.cs = (if storeTakes (caSelect x) s then write32 (cfgBase (caSelect x)) d' s.cs else s.cs) ∧
      t.trace = s.trace ++ [⟨.csa, .aw (addressWord bus dev fn off)⟩,
        ⟨.csa, .dr (cfgRead (operandSel bus dev fn off) s)⟩, ⟨.other, .aw x⟩, ⟨.csa, .dw d'⟩] ∧
      (s.Inv → s.target = .ram → operandSel bus dev fn off ≠ caSelect x →
        cfgRead (operandSel bus dev fn off) t = cfgRead (operandSel bus dev fn off) s)) ∧
    (caEnabled x = false → exec (.writeWord bus dev fn off v) s = .refused .dataWriteWhileDisabled)

/-- R204: a device changes the register between the fetch and the write-back of `WRITE_WORD`; the write-back restores
the fetched value of the untouched lane, and the device's update is lost. -/
def Obligations.UpdateBetweenFetchAndWriteBackIsLost : Prop :=
  ∀ (bus : BitVec 8) (dev : BitVec 5) (fn : BitVec 3) (off : BitVec 8) (v : Half) (x : Dword)
    (rest : List (List Input)) (s : State), s.Inv → s.ph = .idle → s.RamPresent (operandSel bus dev fn off) →
    s.gaps = [] :: [] :: [.agent (.csChange (operandSel bus dev fn off) x)] :: rest →
    ∃ t, exec (.writeWord bus dev fn off v) s = .next t ∧ t.csaSt = .ok ∧
      cfgRead (operandSel bus dev fn off) t = laneMerge (cfgRead (operandSel bus dev fn off) s) off v

/-- R89: `off[0]` of a word operation takes no part in the address word, in the register or in the lane, whatever else
happens; nor do `off[1:0]` of a dword operation in the address word or the register. -/
def Obligations.LowOffsetBitsAreIgnored : Prop :=
  ∀ (bus : BitVec 8) (dev : BitVec 5) (fn : BitVec 3) (off off' : BitVec 8) (d : Dword) (v : Half),
    (off.extractLsb' 2 6 = off'.extractLsb' 2 6 →
      addressWord bus dev fn off = addressWord bus dev fn off' ∧
      operandSel bus dev fn off = operandSel bus dev fn off') ∧
    (off.extractLsb' 1 7 = off'.extractLsb' 1 7 →
      laneShift off = laneShift off' ∧ laneRead d off = laneRead d off' ∧ laneMerge d off v = laneMerge d off' v)

/-- R52, R53, R54 as another agent's cycles, each with the next state in full: a write on the address port stores all 32
bits of `CA`; a write on the data port with `CA[31] = 1` is a `CfgWrite` of the selected register, which `RamTarget`'s
store takes for a present function; a read of the data port records what the register holds. Which register a `CA` with a
bit of 30:24 or 1:0 set selects is read from R55 against U2 (log 12). With `CA[31] = 0` a read of the data port records a
free value (log 10) and a write is refused (log 11). A read of the address port, and a cycle on a port that is neither,
do nothing (log 18). -/
def Obligations.PortCyclesOfOtherAgents : Prop :=
  ∀ (s : State) (v : Dword) (n : BitVec 16) (rest : List Input), s.ph = .idle → s.addrPort ≠ s.dataPort →
    (s.inbox = .agent (.portWrite s.addrPort v) :: rest →
      step s = .next { s with inbox := rest, ca := v, trace := s.trace ++ [⟨.other, .aw v⟩] }) ∧
    (s.inbox = .agent (.portWrite s.dataPort v) :: rest → caEnabled s.ca = true →
      step s = .next
        { s with
          inbox := rest
          cfgWrites := s.cfgWrites ++ [⟨caSelect s.ca, v⟩]
          cs := if storeTakes (caSelect s.ca) s then write32 (cfgBase (caSelect s.ca)) v s.cs else s.cs
          trace := s.trace ++ [⟨.other, .dw v⟩] }) ∧
    (s.inbox = .agent (.portWrite s.dataPort v) :: rest → caEnabled s.ca = false →
      step s = .refused .dataWriteWhileDisabled) ∧
    (s.inbox = .agent (.portRead s.dataPort) :: rest → caEnabled s.ca = true →
      step s = .next { s with inbox := rest, free := s.free + 1, trace := s.trace ++
        [⟨.other, .dr (cfgRead (caSelect s.ca) s)⟩] }) ∧
    (s.inbox = .agent (.portRead s.dataPort) :: rest → caEnabled s.ca = false →
      ∃ d, step s = .next { s with inbox := rest, free := s.free + 1, trace := s.trace ++ [⟨.other, .dr d⟩] }) ∧
    (s.inbox = .agent (.portRead s.addrPort) :: rest → step s = .next { s with inbox := rest }) ∧
    (n ≠ s.addrPort → n ≠ s.dataPort →
      s.inbox = .agent (.portWrite n v) :: rest ∨ s.inbox = .agent (.portRead n) :: rest →
      step s = .next { s with inbox := rest })

/-- `RamTarget` as a store (R64): a present register reads what was last written, every other register as before; an
absent function reads `P_ABSENT` and takes no write. -/
def Obligations.RamTargetIsAStore : Prop :=
  ∀ (r q : CfgSel) (v : Dword) (s : State), s.Inv → s.target = .ram →
    (r.bdf ∈ s.present → cfgRead r (cfgWrite r v s) = v) ∧
    (r ≠ q → cfgRead q (cfgWrite r v s) = cfgRead q s) ∧
    (r.bdf ∉ s.present → cfgRead r s = s.absent ∧ (cfgWrite r v s).cs = s.cs)

/-- R110: while an operation is in progress unit CSA accepts no command. The operations themselves leave a busy state as
it is, and so does every command word routed to unit CSA, legal or not, that is offered between two port cycles: that the
word has no effect at all, no status for an illegal one included, is read from R110 and U9 (log 14). That a step of a
busy machine takes nothing of the program, not even a command of unit FC or a client's access, is the model's choice (log
28). -/
def Obligations.BusyUnitAcceptsNoCommand : Prop :=
  ∀ (bus : BitVec 8) (dev : BitVec 5) (fn : BitVec 3) (off : BitVec 8) (v : Half) (w : Dword) (c : CommandWord)
    (s : State), s.ph ≠ .idle →
    exec (.readWord bus dev fn off) s = .next s ∧ exec (.readDword bus dev fn off) s = .next s ∧
    exec (.writeWord bus dev fn off v) s = .next s ∧ exec (.writeDword bus dev fn off w) s = .next s ∧
    (c.getLsbD 63 = false → applyInput (.command c) s = .next s) ∧
    ∀ t, step s = .next t → t.inbox = s.inbox

/-- R110: an operation is its acceptance, then one port cycle a step. From the state acceptance leaves, two steps of
the machine (three for `WRITE_WORD`) give the state the operation gives. -/
def Obligations.StepsOfASequencerMakeTheOperation : Prop :=
  ∀ (bus : BitVec 8) (dev : BitVec 5) (fn : BitVec 3) (off : BitVec 8) (v : Half) (w : Dword) (s : State),
    s.ph = .idle → s.Quiet 3 →
    runSteps 2 (accept 0x1#4 bus dev fn off 0#32 s) = exec (.readWord bus dev fn off) s ∧
    runSteps 2 (accept 0x3#4 bus dev fn off 0#32 s) = exec (.readDword bus dev fn off) s ∧
    runSteps 2 (accept 0x4#4 bus dev fn off w s) = exec (.writeDword bus dev fn off w) s ∧
    runSteps 3 (accept 0x2#4 bus dev fn off (v.setWidth 32) s) = exec (.writeWord bus dev fn off v) s

/-- R212: an operation in progress completes within three more port cycles, if nothing else falls in between and the
address register is enabled whenever the address cycle is already done. -/
def Obligations.OperationInProgressTerminates : Prop :=
  ∀ s : State, s.CsaOk → s.ph ≠ .idle → s.Quiet 3 → (s.ph = .addr ∨ caEnabled s.ca = true) →
    ∃ (k : Nat) (t : State), k ≤ 3 ∧ runSteps k s = .next t ∧ t.ph = .idle ∧ t.csaSt = .ok

/-! ### Unit FC -/

/-- R141, whole: a frame that is not well formed is refused and nothing but `ST` changes; otherwise every byte of `FB`
is that of the layout (R90), `BLEN = 1504`, `ST = OK`, the frame registers and everything else unchanged; the worked
example. -/
def Obligations.ToBytesMeaning : Prop :=
  opcOf (encode .toBytes) = 0x8#4 ∧
  (∀ s : State, (s.fLen.toNat ≠ s.fPcnt.toNat ∨ 1454 < s.fLen.toNat) →
    exec .toBytes s = .next { s with fcSt := .encodeRefused }) ∧
  (∀ s : State, s.fLen.toNat = s.fPcnt.toNat → s.fLen.toNat ≤ 1454 →
    ∃ t, exec .toBytes s = .next t ∧ t = { s with fb := t.fb, blen := 1504#11, fcSt := .ok } ∧
      ∀ i, i < 1504 → t.fbByte i = layoutByte s i) ∧
  ∀ s : State, s.fDst = #v[0x52, 0x54, 0x00, 0x12, 0x34, 0x56] → s.fSrc = #v[0x52, 0x54, 0x00, 0xAB, 0xCD, 0xEF] →
    s.fLen = 3#16 → s.fPcnt = 3#11 → s.payByte 0 = 0xDE#8 → s.payByte 1 = 0xAD#8 → s.payByte 2 = 0x42#8 →
    ∃ t, exec .toBytes s = .next t ∧ t.blen = 1504#11 ∧ (List.range 29).map t.fbByte =
        [0xAA, 0xAA, 0xAA, 0xAA, 0xAA, 0xAA, 0xAA, 0xAB, 0x52, 0x54, 0x00, 0x12, 0x34, 0x56, 0x52, 0x54, 0x00, 0xAB,
          0xCD, 0xEF, 0x00, 0x03, 0xDE, 0xAD, 0x42, 0x00, 0x00, 0x00, 0x00] ∧
      ∀ i, 29 ≤ i → i ≤ 1503 → t.fbByte i = 0#8

/-- R142, whole: the checks in the rule's order, what a failing decode leaves, what a decode that succeeds writes; `FB`
and `BLEN` never written; the worked example. (`F_PAY` from `F_PCNT` on has no specified value: nothing is said of
it.) -/
def Obligations.FromBytesMeaning : Prop :=
  opcOf (encode .fromBytes) = 0x9#4 ∧
  (∀ s : State, fbBadPreamble s → exec .fromBytes s = .next { s with fcSt := .noStart }) ∧
  (∀ s : State, ¬ fbBadPreamble s →
    s.blen.toNat < 14 ∨ s.blen.toNat < 22 ∨ 1454 < fbLength s ∨ s.blen.toNat < 22 + fbLength s →
    exec .fromBytes s = .next { s with fcSt := .invalidPacket }) ∧
  (∀ s : State, ¬ fbBadPreamble s → 22 ≤ s.blen.toNat → fbLength s ≤ 1454 → 22 + fbLength s ≤ s.blen.toNat →
    ∃ t, exec .fromBytes s = .next t ∧
      t = { s with fDst := t.fDst, fSrc := t.fSrc, fLen := t.fLen, fPcnt := t.fPcnt, fPay := t.fPay
                   fPayGen := t.fPayGen, free := t.free, fcSt := .ok } ∧
      (∀ i : Fin 6, t.fDst[i] = s.fbByte (8 + i.val) ∧ t.fSrc[i] = s.fbByte (14 + i.val)) ∧
      t.fLen.toNat = fbLength s ∧ t.fPcnt.toNat = fbLength s ∧
      ∀ i, i < fbLength s → t.payByte i = s.fbByte (22 + i)) ∧
  ∀ s : State, s.blen = 23#11 → (List.range 23).map s.fbByte =
      [0xAA, 0xAA, 0xAA, 0xAA, 0xAA, 0xAA, 0xAA, 0xAB, 0x01, 0x02, 0x03, 0x04, 0x05, 0x06, 0x06, 0x05, 0x04, 0x03, 0x02,
        0x01, 0x00, 0x01, 0x99] →
    ∃ t, exec .fromBytes s = .next t ∧ t.fDst = #v[0x01, 0x02, 0x03, 0x04, 0x05, 0x06] ∧
      t.fSrc = #v[0x06, 0x05, 0x04, 0x03, 0x02, 0x01] ∧ t.fLen = 1#16 ∧ t.fPcnt = 1#11 ∧ t.payByte 0 = 0x99#8 ∧
      t.fcSt = .ok

/-- R143: the outcome of `FROM_BYTES` by buffer length, and the largest index read (1475): the buffer from index 1476 on
makes no difference. -/
def Obligations.FromBytesOutcomeByLength : Prop :=
  (∀ s : State, ∃ t, exec .fromBytes s = .next t ∧
    (s.blen.toNat = 0 → t.fcSt = .invalidPacket) ∧
    (1 ≤ s.blen.toNat → s.blen.toNat ≤ 6 →
      (badByteBelow s s.blen.toNat → t.fcSt = .noStart) ∧ (¬ badByteBelow s s.blen.toNat → t.fcSt = .invalidPacket)) ∧
    (7 ≤ s.blen.toNat → s.blen.toNat ≤ 21 →
      (badByteBelow s 7 → t.fcSt = .noStart) ∧ (¬ badByteBelow s 7 → t.fcSt = .invalidPacket)) ∧
    (22 ≤ s.blen.toNat →
      (badByteBelow s 7 → t.fcSt = .noStart) ∧
      (¬ badByteBelow s 7 → 1454 < fbLength s ∨ s.blen.toNat < 22 + fbLength s → t.fcSt = .invalidPacket) ∧
      (¬ badByteBelow s 7 → fbLength s ≤ 1454 → 22 + fbLength s ≤ s.blen.toNat → t.fcSt = .ok))) ∧
  ∀ bs : List Byte, decodeFrame (bs.take 1476) = decodeFrame bs

/-- R144: decoding the buffer made of a well-formed frame succeeds and yields that frame; and the converse does not
hold. -/
def Obligations.FrameRoundTrip : Prop :=
  (∀ s : State, s.FrameOk →
    ∃ t u, exec .toBytes s = .next t ∧ exec .fromBytes t = .next u ∧ u.fcSt = .ok ∧ u.frame = s.frame ∧
      u.FrameOk) ∧
  ∃ s t u : State, s.Inv ∧ exec .fromBytes s = .next t ∧ t.fcSt = .ok ∧ exec .toBytes t = .next u ∧
    u.fcSt = .ok ∧ u.buffer ≠ s.buffer

/-- The same of frames and buffers as abstract values (R29, R30): for every well-formed frame, whatever follows its
payload in the buffer. -/
def Obligations.AbstractFrameRoundTrip : Prop :=
  ∀ (f : Frame) (tail : List Byte), f.WellFormed → decodeFrame (f.headerAndPayload ++ tail) = .frame f

/-- R29, its last clauses: every frame `FROM_BYTES` produces is well formed, and `TO_BYTES` accepts it. -/
def Obligations.DecodedFramesAreWellFormed : Prop :=
  ∀ s t : State, exec .fromBytes s = .next t → t.fcSt = .ok →
    t.fLen.toNat = t.fPcnt.toNat ∧ t.fLen.toNat ≤ 1454 ∧ ∃ u, exec .toBytes t = .next u ∧ u.fcSt = .ok

/-- R146: `FB[7]`, the trailer and everything above the payload are not examined: two buffers that agree on every index
below `22 + L` but index 7, and both reach that far, decode alike. Any 12 address bytes are accepted: two such buffers
that also differ there fail alike or both succeed. -/
def Obligations.DelimiterAndTrailerAreNotExamined : Prop :=
  ∀ bs bs' : List Byte, 22 + lengthField bs ≤ bs.length → 22 + lengthField bs ≤ bs'.length →
    ((∀ i, i < 22 + lengthField bs → i ≠ 7 → byteAt bs i = byteAt bs' i) → decodeFrame bs = decodeFrame bs') ∧
    ((∀ i, i < 22 + lengthField bs → i < 7 ∨ 20 ≤ i → byteAt bs i = byteAt bs' i) →
      ∀ c, decodeFrame bs = .fails c ↔ decodeFrame bs' = .fails c)

/-- R140: the operations of unit FC are functions of its own inputs, and touch nothing of unit CSA, of the target or of
the record. -/
def Obligations.CodecDependsOnItsInputsAlone : Prop :=
  ∀ (i : Instr), i = .toBytes ∨ i = .fromBytes → ∀ s₁ s₂ : State, sameFcInputs s₁ s₂ →
    ∃ t₁ t₂, exec i s₁ = .next t₁ ∧ exec i s₂ = .next t₂ ∧ t₁.fcSt = t₂.fcSt ∧
      (t₁.fcSt = .ok → t₁.frame = t₂.frame ∧ t₁.buffer = t₂.buffer) ∧
      t₁ = { s₁ with fDst := t₁.fDst, fSrc := t₁.fSrc, fLen := t₁.fLen, fPcnt := t₁.fPcnt, fPay := t₁.fPay
                     fPayGen := t₁.fPayGen, fb := t₁.fb, blen := t₁.blen, fcSt := t₁.fcSt, free := t₁.free }

/-- The frame of the operations of unit FC, on every path: `TO_BYTES` writes `FB`, `BLEN` and `ST`, `FROM_BYTES` the
frame registers and `ST` (and the model's own two fields behind the free payload bytes), and nothing else; byte by byte,
`TO_BYTES` changes no byte of the configuration space or of `F_PAY` and, where it refuses, none of `FB`; `FROM_BYTES`
changes no byte of the configuration space or of `FB` and, where it fails, none of `F_PAY`. -/
def Obligations.CodecFrame : Prop :=
  ∀ s : State, s.Inv →
    (∃ t, exec .toBytes s = .next t ∧ t = { s with fb := t.fb, blen := t.blen, fcSt := t.fcSt } ∧
      (∀ a, t.csByte a = s.csByte a ∧ t.payByte a = s.payByte a ∧ (1504 ≤ a → t.fbByte a = s.fbByte a)) ∧
      (t.fcSt ≠ .ok → t.blen = s.blen ∧ ∀ a, t.fbByte a = s.fbByte a)) ∧
    ∃ t, exec .fromBytes s = .next t ∧
      t = { s with fDst := t.fDst, fSrc := t.fSrc, fLen := t.fLen, fPcnt := t.fPcnt, fPay := t.fPay
                   fPayGen := t.fPayGen, fcSt := t.fcSt, free := t.free } ∧
      (∀ a, t.csByte a = s.csByte a ∧ t.fbByte a = s.fbByte a) ∧
      (t.fcSt ≠ .ok → t.fDst = s.fDst ∧ t.fSrc = s.fSrc ∧ t.fLen = s.fLen ∧ t.fPcnt = s.fPcnt ∧
        ∀ a, t.payByte a = s.payByte a)

/-- R177: a failing command writes its code to `ST` of its unit and nothing else. The last clause is a word of unit FC that
is no operation, whatever unit CSA is doing. -/
def Obligations.FailingCommandChangesOnlyItsStatus : Prop :=
  (∀ (s t : State), exec .toBytes s = .next t → t.fcSt ≠ .ok → t = { s with fcSt := t.fcSt }) ∧
  (∀ (s t : State), exec .fromBytes s = .next t → t.fcSt ≠ .ok → t = { s with fcSt := t.fcSt }) ∧
  (∀ (w : CommandWord) (why : IllegalWord) (rest : List Input) (s : State), s.ph = .idle →
    s.inbox = .command w :: rest → decode w = .illegal why → step s = .next (afterRefusal w rest s)) ∧
  ∀ (w : CommandWord) (why : IllegalWord) (s : State), w.getLsbD 63 = true → decode w = .illegal why →
    applyInput (.command w) s = .next { s with fcSt := .illegalCommand }

/-- R178: the next command is accepted whatever `ST` holds, is not affected by it, and overwrites it. -/
def Obligations.StatusDoesNotAffectTheNextCommand : Prop :=
  (∀ (s : State) (c : Status), exec .toBytes { s with fcSt := c } = exec .toBytes s ∧
    exec .fromBytes { s with fcSt := c } = exec .fromBytes s) ∧
  ∀ (bus : BitVec 8) (dev : BitVec 5) (fn : BitVec 3) (off : BitVec 8) (v : Half) (w : Dword) (s : State) (c : Status),
    s.ph = .idle → s.Quiet 3 →
    exec (.readWord bus dev fn off) { s with csaSt := c } = exec (.readWord bus dev fn off) s ∧
    exec (.readDword bus dev fn off) { s with csaSt := c } = exec (.readDword bus dev fn off) s ∧
    exec (.writeWord bus dev fn off v) { s with csaSt := c } = exec (.writeWord bus dev fn off v) s ∧
    exec (.writeDword bus dev fn off w) { s with csaSt := c } = exec (.writeDword bus dev fn off w) s

/-! ### The client, reset, and the machine as a whole -/

/-- R36 with the codes of R170 and `BUSY` of R32: what a client's read returns, for every register a client reads, and
that it changes nothing else. That the value is given zero-extended to 32 bits is the model's choice (log 30). -/
def Obligations.ClientReads : Prop :=
  (∀ (r : ClientReg) (rest : List Input) (s : State), s.ph = .idle → s.inbox = .read r :: rest →
    step s = .next { s with inbox := rest, seen := s.seen ++ [⟨r, clientRead r s⟩] }) ∧
  ∀ s : State, clientRead .rd s = s.rd ∧
    (clientRead .busy s = if s.ph = .idle then 0#32 else 1#32) ∧
    (s.fcSt = .ok → clientRead .fcSt s = 0#32) ∧ (s.fcSt = .noStart → clientRead .fcSt s = 1#32) ∧
    (s.fcSt = .invalidPacket → clientRead .fcSt s = 2#32) ∧ (s.fcSt = .encodeRefused → clientRead .fcSt s = 3#32) ∧
    (s.fcSt = .illegalCommand → clientRead .fcSt s = 4#32) ∧
    (s.csaSt = .ok → clientRead .csaSt s = 0#32) ∧ (s.csaSt = .illegalCommand → clientRead .csaSt s = 4#32) ∧
    (∀ i : Fin 6, clientRead (.fDst i) s = s.fDst[i].setWidth 32 ∧ clientRead (.fSrc i) s = s.fSrc[i].setWidth 32) ∧
    clientRead .fLen s = s.fLen.setWidth 32 ∧ clientRead .fPcnt s = s.fPcnt.setWidth 32 ∧
    (∀ i : Fin 1454, clientRead (.fPay i) s = (s.payByte i.val).setWidth 32) ∧
    (∀ i : Fin 1504, clientRead (.fb i) s = (s.fbByte i.val).setWidth 32) ∧
    clientRead .blen s = s.blen.setWidth 32

/-- R36: a client's direct write of a byte of `FB` or of `F_PAY` changes that byte alone; a write of a frame register or
of a count changes that register alone. -/
def Obligations.ClientWritesOneByteOrRegister : Prop :=
  ∀ (s : State) (rest : List Input), s.Inv → s.ph = .idle →
    (∀ (i : Fin 1504) (v : Byte), s.inbox = .write (.fb i v) :: rest →
      ∃ t, step s = .next t ∧ t = { s with inbox := rest, fb := t.fb } ∧
        ∀ a, t.fbByte a = if a = i.val then v else s.fbByte a) ∧
    (∀ (i : Fin 1454) (v : Byte), s.inbox = .write (.fPay i v) :: rest →
      ∃ t, step s = .next t ∧ t = { s with inbox := rest, fPay := t.fPay } ∧
        ∀ a, t.payByte a = if a = i.val then v else s.payByte a) ∧
    (∀ (i : Fin 6) (v : Byte), s.inbox = .write (.fDst i v) :: rest →
      ∃ t, step s = .next t ∧ t = { s with inbox := rest, fDst := t.fDst } ∧
        ∀ j : Fin 6, t.fDst[j] = if j = i then v else s.fDst[j]) ∧
    (∀ (i : Fin 6) (v : Byte), s.inbox = .write (.fSrc i v) :: rest →
      ∃ t, step s = .next t ∧ t = { s with inbox := rest, fSrc := t.fSrc } ∧
        ∀ j : Fin 6, t.fSrc[j] = if j = i then v else s.fSrc[j]) ∧
    (∀ v : Half, s.inbox = .write (.fLen v) :: rest → step s = .next { s with inbox := rest, fLen := v }) ∧
    (∀ n : Fin 1455, s.inbox = .write (.fPcnt n) :: rest →
      ∃ t, step s = .next t ∧ t = { s with inbox := rest, fPcnt := t.fPcnt } ∧ t.fPcnt.toNat = n.val) ∧
    ∀ n : Fin 1505, s.inbox = .write (.blen n) :: rest →
      ∃ t, step s = .next t ∧ t = { s with inbox := rest, blen := t.blen } ∧ t.blen.toNat = n.val

/-- R34: what reset gives a value: `PH = IDLE` and `ST = OK` in both units. (The other registers are unspecified there;
the values the model gives them are assumptions 3 and 4, and nothing is said of them here.) -/
def Obligations.ResetGivesIdleAndOk : Prop :=
  (State.reset.ph = .idle ∧ State.reset.csaSt = .ok ∧ State.reset.fcSt = .ok ∧ State.reset.busy = false) ∧
  ∀ (s : State) (rest : List Input), s.ph = .idle → s.inbox = .reset :: rest →
    ∃ t, step s = .next t ∧ t.ph = .idle ∧ t.csaSt = .ok ∧ t.fcSt = .ok ∧ t.cs = s.cs ∧
      t.cfgWrites = s.cfgWrites ∧ t.trace = s.trace

/-- R200: a reset inside an operation abandons it where it stands; cycles already performed are not undone, and no further
one is performed. Each operation, cut before its address cycle and between that and its next cycle; and `WRITE_WORD` cut
between its read and its write, which leaves the register unwritten. -/
def Obligations.ResetAbandonsTheOperation : Prop :=
  ∀ (bus : BitVec 8) (dev : BitVec 5) (fn : BitVec 3) (off : BitVec 8) (v : Half) (w : Dword)
    (rest : List (List Input)) (s : State), s.ph = .idle →
    (s.gaps = [.reset] :: rest → ∀ i : Instr,
      i = .readWord bus dev fn off ∨ i = .readDword bus dev fn off ∨ i = .writeWord bus dev fn off v ∨
        i = .writeDword bus dev fn off w →
      ∃ t, exec i s = .next t ∧ t.ph = .idle ∧ t.csaSt = .ok ∧ t.cs = s.cs ∧ t.cfgWrites = s.cfgWrites ∧
        t.gaps = rest ∧ t.trace = s.trace) ∧
    (s.gaps = [] :: [.reset] :: rest → ∀ i : Instr,
      i = .readWord bus dev fn off ∨ i = .readDword bus dev fn off ∨ i = .writeWord bus dev fn off v ∨
        i = .writeDword bus dev fn off w →
      ∃ t, exec i s = .next t ∧ t.ph = .idle ∧ t.csaSt = .ok ∧ t.cs = s.cs ∧ t.cfgWrites = s.cfgWrites ∧
        t.gaps = rest ∧ grewBy s t [.aw (addressWord bus dev fn off)]) ∧
    (s.gaps = [] :: [] :: [.reset] :: rest →
      ∃ t, exec (.writeWord bus dev fn off v) s = .next t ∧ t.ph = .idle ∧ t.csaSt = .ok ∧ t.cs = s.cs ∧
        t.cfgWrites = s.cfgWrites ∧ t.gaps = rest ∧
        grewBy s t [.aw (addressWord bus dev fn off), .dr (cfgRead (operandSel bus dev fn off) s)])

/-- Every step keeps the invariant: canonical memories, counts in range, the phase one of the operation's, `ST` of unit
CSA one of its two codes. -/
def Obligations.EveryStepKeepsTheInvariant : Prop :=
  ∀ s t : State, s.Inv → step s = .next t → t.Inv

/-- The invariant holds at reset. -/
def Obligations.InvariantHoldsAtReset : Prop := State.reset.Inv

/-- From a state that meets the invariant no step faults, and the one refusal is a data-port write with `CA[31] = 0`
(R54; assumption 11). -/
def Obligations.StepsDoNotFault : Prop :=
  ∀ s : State, s.Inv → (∀ f, step s ≠ .fault f) ∧ ∀ x, step s = .refused x → x = .dataWriteWhileDisabled

/-- While no other agent uses either port and no reset falls in (R69), no operation is refused: each answers a next state,
legal, idle if it was idle; and an operation of unit CSA that ran ends with its own address word in `CA`, so with
`CA[31] = 1`, while one of unit FC leaves `CA` (R53, R54). -/
def Obligations.UnderExclusiveUseNoOperationIsRefused : Prop :=
  ∀ (i : Instr) (s : State), s.Inv → s.ExclusivePorts 3 →
    ∃ t, exec i s = .next t ∧ t.Inv ∧
      (s.ph = .idle → t.ph = .idle) ∧
      (s.ph = .idle → i ≠ .toBytes → i ≠ .fromBytes → t.ca = t.addressWord ∧ caEnabled t.ca = true) ∧
      (i = .toBytes ∨ i = .fromBytes → t.ca = s.ca)

/-- When the command word offered next decodes to an operation, a step of the idle machine is that operation, on the
state with the word taken; so it is for a word placed by `withFetchWord`. With nothing offered the state stands. Three
points here are the model's choice: that one step is the whole operation, where R110 takes one port cycle a step (log 1);
that `withFetchWord` places the word, for a program loaded from outside (log 2); that the state stands with nothing
offered (log 24). -/
def Obligations.StepRunsTheDecodedOperation : Prop :=
  (∀ (w : CommandWord) (i : Instr) (rest : List Input) (s : State), s.ph = .idle → s.inbox = .command w :: rest →
    decode w = .instr i → step s = exec i { s with inbox := rest }) ∧
  (∀ (nbits w : Nat) (i : Instr) (s : State), decodeTableWord nbits w = some i →
    step (s.withFetchWord nbits w) = exec i { s with ph := .idle }) ∧
  ∀ s : State, s.ph = .idle → s.inbox = [] → step s = .next s

/-- The pseudo-instructions (R94), with nothing in between. Under `RamTarget`, for a present function: `UPDATE_WORD` leaves
the lane with the client's value and the other lane as it was, and `READ_PAIR` at a dword-aligned offset is what
`READ_DWORD` returns. Under any target, present or not: `PROBE` compares the word at offset 0 with the low half of
`P_ABSENT`, and where no device answers it says so. -/
def Obligations.PseudoInstructions : Prop :=
  ∀ (bus : BitVec 8) (dev : BitVec 5) (fn : BitVec 3) (off : BitVec 8) (clr set : Half) (s : State),
    s.ph = .idle → s.Quiet 5 →
    (s.Inv → s.RamPresent (operandSel bus dev fn off) →
      ∃ t, updateWord bus dev fn off clr set [] [] s = .next t ∧ t.csaSt = .ok ∧
        cfgRead (operandSel bus dev fn off) t =
          laneMerge (cfgRead (operandSel bus dev fn off) s) off
            ((laneRead (cfgRead (operandSel bus dev fn off) s) off &&& ~~~clr) ||| set)) ∧
    (s.RamPresent (operandSel bus dev fn off) → off.extractLsb' 0 2 = 0#2 →
      ∃ x t u, readPair bus dev fn off [] [] [] s = .next (x, t) ∧ exec (.readDword bus dev fn off) s = .next u ∧
        x = u.rd) ∧
    ∃ b t, probe bus dev fn [] s = .next (b, t) ∧
      (b = true ↔ (cfgRead ⟨bus, dev, fn, 0⟩ s).extractLsb' 0 16 = s.absent.extractLsb' 0 16) ∧
      (targetAnswer ⟨bus, dev, fn, 0⟩ s = none → b = true)

/-- The pseudo-instructions with another client's commands in between (R94, R213), under `RamTarget`; the lists are the
model's way to say when (log 32). A `WRITE_DWORD` of the same register after the client has read `RD` is performed whole,
and the expansion's second command runs after it: `UPDATE_WORD` keeps the other lane as written and overwrites the lane
with what it computed from the older value, and `READ_PAIR` puts the older low word and the newer high word together. A
`READ_WORD` of any register before the client has read `RD` replaces what the client takes. -/
def Obligations.PseudoInstructionsAmongOtherCommands : Prop :=
  ∀ (bus bus' : BitVec 8) (dev dev' : BitVec 5) (fn fn' : BitVec 3) (off off' : BitVec 8) (clr set : Half) (x : Dword)
    (s : State), s.Inv → s.ph = .idle → s.Quiet 7 → s.RamPresent (operandSel bus dev fn off) →
    (∃ (t : State) (v : Half),
      updateWord bus dev fn off clr set [] [.command (encode (.writeDword bus dev fn off x))] s = .next t ∧
      v = (laneRead (cfgRead (operandSel bus dev fn off) s) off &&& ~~~clr) ||| set ∧ t.csaSt = .ok ∧
      cfgRead (operandSel bus dev fn off) t = laneMerge x off v ∧
      grewBy s t [.aw (addressWord bus dev fn off), .dr (cfgRead (operandSel bus dev fn off) s),
        .aw (addressWord bus dev fn off), .dw x,
        .aw (addressWord bus dev fn off), .dr x, .dw (laneMerge x off v)]) ∧
    (∃ t : State,
      updateWord bus dev fn off clr set [.command (encode (.readWord bus' dev' fn' off'))] [] s = .next t ∧
      cfgRead (operandSel bus dev fn off) t = laneMerge (cfgRead (operandSel bus dev fn off) s) off
        ((laneRead (cfgRead (operandSel bus' dev' fn' off') s) off' &&& ~~~clr) ||| set)) ∧
    (off.extractLsb' 0 2 = 0#2 → ∃ t,
      readPair bus dev fn off [] [.command (encode (.writeDword bus dev fn off x))] [] s =
        .next ((x.extractLsb' 16 16 ++ (cfgRead (operandSel bus dev fn off) s).extractLsb' 0 16 : BitVec (16 + 16)),
          t))

/-- R110 and R214 from a client's side: waiting ends with the unit idle, whatever falls in the gaps, unless the operation
in progress is refused (log 11); the wait is steps of the machine; an idle unit is not waited for. Under exclusive use
of the ports (R69) a command issued to a busy unit is performed after the operation in progress, from the state that one
leaves, and is there when the unit is idle again. -/
def Obligations.WaitingClientGetsTheUnit : Prop :=
  (∀ s : State, s.Inv →
    (∃ (t : State) (k : Nat), waitIdle s = .next t ∧ t.ph = .idle ∧ t.Inv ∧ runSteps k s = .next t) ∨
      waitIdle s = .refused .dataWriteWhileDisabled) ∧
  (∀ s : State, s.ph = .idle → waitIdle s = .next s) ∧
  ∀ (i : Instr) (s : State), s.Inv → (∀ g ∈ s.gaps, ∀ x ∈ g, x.keepsPorts = true) →
    s.ph = .idle ∨ s.ph = .addr ∨ caEnabled s.ca = true →
    ∃ u t, waitIdle s = .next u ∧ u.ph = .idle ∧ exec i u = .next t ∧ t.ph = .idle ∧ issue i s = .next t
end

