-- ==== Sys2Proof/Laws/State.lean ====
section
/-! SUPPORT. One lemma per field per update of the state, each true by rfl. -/

namespace Sys2Proof.Machine

variable (s : State)

/-! ### recordCycle -/
@[simp] theorem recordCycle_op (w : Requester) (c : PortCycle) : (recordCycle w c s).op = s.op := rfl
@[simp] theorem recordCycle_bus (w : Requester) (c : PortCycle) : (recordCycle w c s).bus = s.bus := rfl
@[simp] theorem recordCycle_dev (w : Requester) (c : PortCycle) : (recordCycle w c s).dev = s.dev := rfl
@[simp] theorem recordCycle_fn (w : Requester) (c : PortCycle) : (recordCycle w c s).fn = s.fn := rfl
@[simp] theorem recordCycle_off (w : Requester) (c : PortCycle) : (recordCycle w c s).off = s.off := rfl
@[simp] theorem recordCycle_wd (w : Requester) (c : PortCycle) : (recordCycle w c s).wd = s.wd := rfl
@[simp] theorem recordCycle_ca (w : Requester) (c : PortCycle) : (recordCycle w c s).ca = s.ca := rfl
@[simp] theorem recordCycle_tmp (w : Requester) (c : PortCycle) : (recordCycle w c s).tmp = s.tmp := rfl
@[simp] theorem recordCycle_rd (w : Requester) (c : PortCycle) : (recordCycle w c s).rd = s.rd := rfl
@[simp] theorem recordCycle_ph (w : Requester) (c : PortCycle) : (recordCycle w c s).ph = s.ph := rfl
@[simp] theorem recordCycle_csaSt (w : Requester) (c : PortCycle) : (recordCycle w c s).csaSt = s.csaSt := rfl
@[simp] theorem recordCycle_cs (w : Requester) (c : PortCycle) : (recordCycle w c s).cs = s.cs := rfl
@[simp] theorem recordCycle_target (w : Requester) (c : PortCycle) : (recordCycle w c s).target = s.target := rfl
@[simp] theorem recordCycle_present (w : Requester) (c : PortCycle) : (recordCycle w c s).present = s.present := rfl
@[simp] theorem recordCycle_cfgWrites (w : Requester) (c : PortCycle) : (recordCycle w c s).cfgWrites = s.cfgWrites := rfl
@[simp] theorem recordCycle_addrPort (w : Requester) (c : PortCycle) : (recordCycle w c s).addrPort = s.addrPort := rfl
@[simp] theorem recordCycle_dataPort (w : Requester) (c : PortCycle) : (recordCycle w c s).dataPort = s.dataPort := rfl
@[simp] theorem recordCycle_absent (w : Requester) (c : PortCycle) : (recordCycle w c s).absent = s.absent := rfl
@[simp] theorem recordCycle_fDst (w : Requester) (c : PortCycle) : (recordCycle w c s).fDst = s.fDst := rfl
@[simp] theorem recordCycle_fSrc (w : Requester) (c : PortCycle) : (recordCycle w c s).fSrc = s.fSrc := rfl
@[simp] theorem recordCycle_fLen (w : Requester) (c : PortCycle) : (recordCycle w c s).fLen = s.fLen := rfl
@[simp] theorem recordCycle_fPcnt (w : Requester) (c : PortCycle) : (recordCycle w c s).fPcnt = s.fPcnt := rfl
@[simp] theorem recordCycle_fPay (w : Requester) (c : PortCycle) : (recordCycle w c s).fPay = s.fPay := rfl
@[simp] theorem recordCycle_fPayGen (w : Requester) (c : PortCycle) : (recordCycle w c s).fPayGen = s.fPayGen := rfl
@[simp] theorem recordCycle_fb (w : Requester) (c : PortCycle) : (recordCycle w c s).fb = s.fb := rfl
@[simp] theorem recordCycle_blen (w : Requester) (c : PortCycle) : (recordCycle w c s).blen = s.blen := rfl
@[simp] theorem recordCycle_fcSt (w : Requester) (c : PortCycle) : (recordCycle w c s).fcSt = s.fcSt := rfl
@[simp] theorem recordCycle_trace (w : Requester) (c : PortCycle) : (recordCycle w c s).trace = s.trace ++ [⟨w, c⟩] := rfl
@[simp] theorem recordCycle_inbox (w : Requester) (c : PortCycle) : (recordCycle w c s).inbox = s.inbox := rfl
@[simp] theorem recordCycle_gaps (w : Requester) (c : PortCycle) : (recordCycle w c s).gaps = s.gaps := rfl
@[simp] theorem recordCycle_seen (w : Requester) (c : PortCycle) : (recordCycle w c s).seen = s.seen := rfl
@[simp] theorem recordCycle_free (w : Requester) (c : PortCycle) : (recordCycle w c s).free = s.free := rfl

/-! ### portWriteAddr -/
@[simp] theorem portWriteAddr_op (w : Requester) (v : Dword) : (portWriteAddr w v s).op = s.op := rfl
@[simp] theorem portWriteAddr_bus (w : Requester) (v : Dword) : (portWriteAddr w v s).bus = s.bus := rfl
@[simp] theorem portWriteAddr_dev (w : Requester) (v : Dword) : (portWriteAddr w v s).dev = s.dev := rfl
@[simp] theorem portWriteAddr_fn (w : Requester) (v : Dword) : (portWriteAddr w v s).fn = s.fn := rfl
@[simp] theorem portWriteAddr_off (w : Requester) (v : Dword) : (portWriteAddr w v s).off = s.off := rfl
@[simp] theorem portWriteAddr_wd (w : Requester) (v : Dword) : (portWriteAddr w v s).wd = s.wd := rfl
@[simp] theorem portWriteAddr_ca (w : Requester) (v : Dword) : (portWriteAddr w v s).ca = v := rfl
@[simp] theorem portWriteAddr_tmp (w : Requester) (v : Dword) : (portWriteAddr w v s).tmp = s.tmp := rfl
@[simp] theorem portWriteAddr_rd (w : Requester) (v : Dword) : (portWriteAddr w v s).rd = s.rd := rfl
@[simp] theorem portWriteAddr_ph (w : Requester) (v : Dword) : (portWriteAddr w v s).ph = s.ph := rfl
@[simp] theorem portWriteAddr_csaSt (w : Requester) (v : Dword) : (portWriteAddr w v s).csaSt = s.csaSt := rfl
@[simp] theorem portWriteAddr_cs (w : Requester) (v : Dword) : (portWriteAddr w v s).cs = s.cs := rfl
@[simp] theorem portWriteAddr_target (w : Requester) (v : Dword) : (portWriteAddr w v s).target = s.target := rfl
@[simp] theorem portWriteAddr_present (w : Requester) (v : Dword) : (portWriteAddr w v s).present = s.present := rfl
@[simp] theorem portWriteAddr_cfgWrites (w : Requester) (v : Dword) : (portWriteAddr w v s).cfgWrites = s.cfgWrites := rfl
@[simp] theorem portWriteAddr_addrPort (w : Requester) (v : Dword) : (portWriteAddr w v s).addrPort = s.addrPort := rfl
@[simp] theorem portWriteAddr_dataPort (w : Requester) (v : Dword) : (portWriteAddr w v s).dataPort = s.dataPort := rfl
@[simp] theorem portWriteAddr_absent (w : Requester) (v : Dword) : (portWriteAddr w v s).absent = s.absent := rfl
@[simp] theorem portWriteAddr_fDst (w : Requester) (v : Dword) : (portWriteAddr w v s).fDst = s.fDst := rfl
@[simp] theorem portWriteAddr_fSrc (w : Requester) (v : Dword) : (portWriteAddr w v s).fSrc = s.fSrc := rfl
@[simp] theorem portWriteAddr_fLen (w : Requester) (v : Dword) : (portWriteAddr w v s).fLen = s.fLen := rfl
@[simp] theorem portWriteAddr_fPcnt (w : Requester) (v : Dword) : (portWriteAddr w v s).fPcnt = s.fPcnt := rfl
@[simp] theorem portWriteAddr_fPay (w : Requester) (v : Dword) : (portWriteAddr w v s).fPay = s.fPay := rfl
@[simp] theorem portWriteAddr_fPayGen (w : Requester) (v : Dword) : (portWriteAddr w v s).fPayGen = s.fPayGen := rfl
@[simp] theorem portWriteAddr_fb (w : Requester) (v : Dword) : (portWriteAddr w v s).fb = s.fb := rfl
@[simp] theorem portWriteAddr_blen (w : Requester) (v : Dword) : (portWriteAddr w v s).blen = s.blen := rfl
@[simp] theorem portWriteAddr_fcSt (w : Requester) (v : Dword) : (portWriteAddr w v s).fcSt = s.fcSt := rfl
@[simp] theorem portWriteAddr_trace (w : Requester) (v : Dword) : (portWriteAddr w v s).trace = s.trace ++ [⟨w, .aw v⟩] := rfl
@[simp] theorem portWriteAddr_inbox (w : Requester) (v : Dword) : (portWriteAddr w v s).inbox = s.inbox := rfl
@[simp] theorem portWriteAddr_gaps (w : Requester) (v : Dword) : (portWriteAddr w v s).gaps = s.gaps := rfl
@[simp] theorem portWriteAddr_seen (w : Requester) (v : Dword) : (portWriteAddr w v s).seen = s.seen := rfl
@[simp] theorem portWriteAddr_free (w : Requester) (v : Dword) : (portWriteAddr w v s).free = s.free := rfl

/-! ### portReadData -/
@[simp] theorem portReadData_op (w : Requester) : (portReadData w s).op = s.op := rfl
@[simp] theorem portReadData_bus (w : Requester) : (portReadData w s).bus = s.bus := rfl
@[simp] theorem portReadData_dev (w : Requester) : (portReadData w s).dev = s.dev := rfl
@[simp] theorem portReadData_fn (w : Requester) : (portReadData w s).fn = s.fn := rfl
@[simp] theorem portReadData_off (w : Requester) : (portReadData w s).off = s.off := rfl
@[simp] theorem portReadData_wd (w : Requester) : (portReadData w s).wd = s.wd := rfl
@[simp] theorem portReadData_ca (w : Requester) : (portReadData w s).ca = s.ca := rfl
@[simp] theorem portReadData_tmp (w : Requester) : (portReadData w s).tmp = s.tmp := rfl
@[simp] theorem portReadData_rd (w : Requester) : (portReadData w s).rd = s.rd := rfl
@[simp] theorem portReadData_ph (w : Requester) : (portReadData w s).ph = s.ph := rfl
@[simp] theorem portReadData_csaSt (w : Requester) : (portReadData w s).csaSt = s.csaSt := rfl
@[simp] theorem portReadData_cs (w : Requester) : (portReadData w s).cs = s.cs := rfl
@[simp] theorem portReadData_target (w : Requester) : (portReadData w s).target = s.target := rfl
@[simp] theorem portReadData_present (w : Requester) : (portReadData w s).present = s.present := rfl
@[simp] theorem portReadData_cfgWrites (w : Requester) : (portReadData w s).cfgWrites = s.cfgWrites := rfl
@[simp] theorem portReadData_addrPort (w : Requester) : (portReadData w s).addrPort = s.addrPort := rfl
@[simp] theorem portReadData_dataPort (w : Requester) : (portReadData w s).dataPort = s.dataPort := rfl
@[simp] theorem portReadData_absent (w : Requester) : (portReadData w s).absent = s.absent := rfl
@[simp] theorem portReadData_fDst (w : Requester) : (portReadData w s).fDst = s.fDst := rfl
@[simp] theorem portReadData_fSrc (w : Requester) : (portReadData w s).fSrc = s.fSrc := rfl
@[simp] theorem portReadData_fLen (w : Requester) : (portReadData w s).fLen = s.fLen := rfl
@[simp] theorem portReadData_fPcnt (w : Requester) : (portReadData w s).fPcnt = s.fPcnt := rfl
@[simp] theorem portReadData_fPay (w : Requester) : (portReadData w s).fPay = s.fPay := rfl
@[simp] theorem portReadData_fPayGen (w : Requester) : (portReadData w s).fPayGen = s.fPayGen := rfl
@[simp] theorem portReadData_fb (w : Requester) : (portReadData w s).fb = s.fb := rfl
@[simp] theorem portReadData_blen (w : Requester) : (portReadData w s).blen = s.blen := rfl
@[simp] theorem portReadData_fcSt (w : Requester) : (portReadData w s).fcSt = s.fcSt := rfl
@[simp] theorem portReadData_trace (w : Requester) : (portReadData w s).trace = s.trace ++ [⟨w, .dr (dataPortValue s)⟩] := rfl
@[simp] theorem portReadData_inbox (w : Requester) : (portReadData w s).inbox = s.inbox := rfl
@[simp] theorem portReadData_gaps (w : Requester) : (portReadData w s).gaps = s.gaps := rfl
@[simp] theorem portReadData_seen (w : Requester) : (portReadData w s).seen = s.seen := rfl
@[simp] theorem portReadData_free (w : Requester) : (portReadData w s).free = s.free + 1 := rfl

/-! ### cfgWrite -/
@[simp] theorem cfgWrite_op (r : CfgSel) (v : Dword) : (cfgWrite r v s).op = s.op := rfl
@[simp] theorem cfgWrite_bus (r : CfgSel) (v : Dword) : (cfgWrite r v s).bus = s.bus := rfl
@[simp] theorem cfgWrite_dev (r : CfgSel) (v : Dword) : (cfgWrite r v s).dev = s.dev := rfl
@[simp] theorem cfgWrite_fn (r : CfgSel) (v : Dword) : (cfgWrite r v s).fn = s.fn := rfl
@[simp] theorem cfgWrite_off (r : CfgSel) (v : Dword) : (cfgWrite r v s).off = s.off := rfl
@[simp] theorem cfgWrite_wd (r : CfgSel) (v : Dword) : (cfgWrite r v s).wd = s.wd := rfl
@[simp] theorem cfgWrite_ca (r : CfgSel) (v : Dword) : (cfgWrite r v s).ca = s.ca := rfl
@[simp] theorem cfgWrite_tmp (r : CfgSel) (v : Dword) : (cfgWrite r v s).tmp = s.tmp := rfl
@[simp] theorem cfgWrite_rd (r : CfgSel) (v : Dword) : (cfgWrite r v s).rd = s.rd := rfl
@[simp] theorem cfgWrite_ph (r : CfgSel) (v : Dword) : (cfgWrite r v s).ph = s.ph := rfl
@[simp] theorem cfgWrite_csaSt (r : CfgSel) (v : Dword) : (cfgWrite r v s).csaSt = s.csaSt := rfl
@[simp] theorem cfgWrite_cs (r : CfgSel) (v : Dword) : (cfgWrite r v s).cs = if storeTakes r s then write32 (cfgBase r) v s.cs else s.cs := rfl
@[simp] theorem cfgWrite_target (r : CfgSel) (v : Dword) : (cfgWrite r v s).target = s.target := rfl
@[simp] theorem cfgWrite_present (r : CfgSel) (v : Dword) : (cfgWrite r v s).present = s.present := rfl
@[simp] theorem cfgWrite_cfgWrites (r : CfgSel) (v : Dword) : (cfgWrite r v s).cfgWrites = s.cfgWrites ++ [⟨r, v⟩] := rfl
@[simp] theorem cfgWrite_addrPort (r : CfgSel) (v : Dword) : (cfgWrite r v s).addrPort = s.addrPort := rfl
@[simp] theorem cfgWrite_dataPort (r : CfgSel) (v : Dword) : (cfgWrite r v s).dataPort = s.dataPort := rfl
@[simp] theorem cfgWrite_absent (r : CfgSel) (v : Dword) : (cfgWrite r v s).absent = s.absent := rfl
@[simp] theorem cfgWrite_fDst (r : CfgSel) (v : Dword) : (cfgWrite r v s).fDst = s.fDst := rfl
@[simp] theorem cfgWrite_fSrc (r : CfgSel) (v : Dword) : (cfgWrite r v s).fSrc = s.fSrc := rfl
@[simp] theorem cfgWrite_fLen (r : CfgSel) (v : Dword) : (cfgWrite r v s).fLen = s.fLen := rfl
@[simp] theorem cfgWrite_fPcnt (r : CfgSel) (v : Dword) : (cfgWrite r v s).fPcnt = s.fPcnt := rfl
@[simp] theorem cfgWrite_fPay (r : CfgSel) (v : Dword) : (cfgWrite r v s).fPay = s.fPay := rfl
@[simp] theorem cfgWrite_fPayGen (r : CfgSel) (v : Dword) : (cfgWrite r v s).fPayGen = s.fPayGen := rfl
@[simp] theorem cfgWrite_fb (r : CfgSel) (v : Dword) : (cfgWrite r v s).fb = s.fb := rfl
@[simp] theorem cfgWrite_blen (r : CfgSel) (v : Dword) : (cfgWrite r v s).blen = s.blen := rfl
@[simp] theorem cfgWrite_fcSt (r : CfgSel) (v : Dword) : (cfgWrite r v s).fcSt = s.fcSt := rfl
@[simp] theorem cfgWrite_trace (r : CfgSel) (v : Dword) : (cfgWrite r v s).trace = s.trace := rfl
@[simp] theorem cfgWrite_inbox (r : CfgSel) (v : Dword) : (cfgWrite r v s).inbox = s.inbox := rfl
@[simp] theorem cfgWrite_gaps (r : CfgSel) (v : Dword) : (cfgWrite r v s).gaps = s.gaps := rfl
@[simp] theorem cfgWrite_seen (r : CfgSel) (v : Dword) : (cfgWrite r v s).seen = s.seen := rfl
@[simp] theorem cfgWrite_free (r : CfgSel) (v : Dword) : (cfgWrite r v s).free = s.free := rfl

/-! ### accept -/
@[simp] theorem accept_op (o : BitVec 4) (b : BitVec 8) (d : BitVec 5) (f : BitVec 3) (x : BitVec 8) (v : Dword) : (accept o b d f x v s).op = o := rfl
@[simp] theorem accept_bus (o : BitVec 4) (b : BitVec 8) (d : BitVec 5) (f : BitVec 3) (x : BitVec 8) (v : Dword) : (accept o b d f x v s).bus = b := rfl
@[simp] theorem accept_dev (o : BitVec 4) (b : BitVec 8) (d : BitVec 5) (f : BitVec 3) (x : BitVec 8) (v : Dword) : (accept o b d f x v s).dev = d := rfl
@[simp] theorem accept_fn (o : BitVec 4) (b : BitVec 8) (d : BitVec 5) (f : BitVec 3) (x : BitVec 8) (v : Dword) : (accept o b d f x v s).fn = f := rfl
@[simp] theorem accept_off (o : BitVec 4) (b : BitVec 8) (d : BitVec 5) (f : BitVec 3) (x : BitVec 8) (v : Dword) : (accept o b d f x v s).off = x := rfl
@[simp] theorem accept_wd (o : BitVec 4) (b : BitVec 8) (d : BitVec 5) (f : BitVec 3) (x : BitVec 8) (v : Dword) : (accept o b d f x v s).wd = v := rfl
@[simp] theorem accept_ca (o : BitVec 4) (b : BitVec 8) (d : BitVec 5) (f : BitVec 3) (x : BitVec 8) (v : Dword) : (accept o b d f x v s).ca = s.ca := rfl
@[simp] theorem accept_tmp (o : BitVec 4) (b : BitVec 8) (d : BitVec 5) (f : BitVec 3) (x : BitVec 8) (v : Dword) : (accept o b d f x v s).tmp = s.tmp := rfl
@[simp] theorem accept_rd (o : BitVec 4) (b : BitVec 8) (d : BitVec 5) (f : BitVec 3) (x : BitVec 8) (v : Dword) : (accept o b d f x v s).rd = s.rd := rfl
@[simp] theorem accept_ph (o : BitVec 4) (b : BitVec 8) (d : BitVec 5) (f : BitVec 3) (x : BitVec 8) (v : Dword) : (accept o b d f x v s).ph = .addr := rfl
@[simp] theorem accept_csaSt (o : BitVec 4) (b : BitVec 8) (d : BitVec 5) (f : BitVec 3) (x : BitVec 8) (v : Dword) : (accept o b d f x v s).csaSt = s.csaSt := rfl
@[simp] theorem accept_cs (o : BitVec 4) (b : BitVec 8) (d : BitVec 5) (f : BitVec 3) (x : BitVec 8) (v : Dword) : (accept o b d f x v s).cs = s.cs := rfl
@[simp] theorem accept_target (o : BitVec 4) (b : BitVec 8) (d : BitVec 5) (f : BitVec 3) (x : BitVec 8) (v : Dword) : (accept o b d f x v s).target = s.target := rfl
@[simp] theorem accept_present (o : BitVec 4) (b : BitVec 8) (d : BitVec 5) (f : BitVec 3) (x : BitVec 8) (v : Dword) : (accept o b d f x v s).present = s.present := rfl
@[simp] theorem accept_cfgWrites (o : BitVec 4) (b : BitVec 8) (d : BitVec 5) (f : BitVec 3) (x : BitVec 8) (v : Dword) : (accept o b d f x v s).cfgWrites = s.cfgWrites := rfl
@[simp] theorem accept_addrPort (o : BitVec 4) (b : BitVec 8) (d : BitVec 5) (f : BitVec 3) (x : BitVec 8) (v : Dword) : (accept o b d f x v s).addrPort = s.addrPort := rfl
@[simp] theorem accept_dataPort (o : BitVec 4) (b : BitVec 8) (d : BitVec 5) (f : BitVec 3) (x : BitVec 8) (v : Dword) : (accept o b d f x v s).dataPort = s.dataPort := rfl
@[simp] theorem accept_absent (o : BitVec 4) (b : BitVec 8) (d : BitVec 5) (f : BitVec 3) (x : BitVec 8) (v : Dword) : (accept o b d f x v s).absent = s.absent := rfl
@[simp] theorem accept_fDst (o : BitVec 4) (b : BitVec 8) (d : BitVec 5) (f : BitVec 3) (x : BitVec 8) (v : Dword) : (accept o b d f x v s).fDst = s.fDst := rfl
@[simp] theorem accept_fSrc (o : BitVec 4) (b : BitVec 8) (d : BitVec 5) (f : BitVec 3) (x : BitVec 8) (v : Dword) : (accept o b d f x v s).fSrc = s.fSrc := rfl
@[simp] theorem accept_fLen (o : BitVec 4) (b : BitVec 8) (d : BitVec 5) (f : BitVec 3) (x : BitVec 8) (v : Dword) : (accept o b d f x v s).fLen = s.fLen := rfl
@[simp] theorem accept_fPcnt (o : BitVec 4) (b : BitVec 8) (d : BitVec 5) (f : BitVec 3) (x : BitVec 8) (v : Dword) : (accept o b d f x v s).fPcnt = s.fPcnt := rfl
@[simp] theorem accept_fPay (o : BitVec 4) (b : BitVec 8) (d : BitVec 5) (f : BitVec 3) (x : BitVec 8) (v : Dword) : (accept o b d f x v s).fPay = s.fPay := rfl
@[simp] theorem accept_fPayGen (o : BitVec 4) (b : BitVec 8) (d : BitVec 5) (f : BitVec 3) (x : BitVec 8) (v : Dword) : (accept o b d f x v s).fPayGen = s.fPayGen := rfl
@[simp] theorem accept_fb (o : BitVec 4) (b : BitVec 8) (d : BitVec 5) (f : BitVec 3) (x : BitVec 8) (v : Dword) : (accept o b d f x v s).fb = s.fb := rfl
@[simp] theorem accept_blen (o : BitVec 4) (b : BitVec 8) (d : BitVec 5) (f : BitVec 3) (x : BitVec 8) (v : Dword) : (accept o b d f x v s).blen = s.blen := rfl
@[simp] theorem accept_fcSt (o : BitVec 4) (b : BitVec 8) (d : BitVec 5) (f : BitVec 3) (x : BitVec 8) (v : Dword) : (accept o b d f x v s).fcSt = s.fcSt := rfl
@[simp] theorem accept_trace (o : BitVec 4) (b : BitVec 8) (d : BitVec 5) (f : BitVec 3) (x : BitVec 8) (v : Dword) : (accept o b d f x v s).trace = s.trace := rfl
@[simp] theorem accept_inbox (o : BitVec 4) (b : BitVec 8) (d : BitVec 5) (f : BitVec 3) (x : BitVec 8) (v : Dword) : (accept o b d f x v s).inbox = s.inbox := rfl
@[simp] theorem accept_gaps (o : BitVec 4) (b : BitVec 8) (d : BitVec 5) (f : BitVec 3) (x : BitVec 8) (v : Dword) : (accept o b d f x v s).gaps = s.gaps := rfl
@[simp] theorem accept_seen (o : BitVec 4) (b : BitVec 8) (d : BitVec 5) (f : BitVec 3) (x : BitVec 8) (v : Dword) : (accept o b d f x v s).seen = s.seen := rfl
@[simp] theorem accept_free (o : BitVec 4) (b : BitVec 8) (d : BitVec 5) (f : BitVec 3) (x : BitVec 8) (v : Dword) : (accept o b d f x v s).free = s.free := rfl

/-! ### setStatus .csa -/
@[simp] theorem setStatus_csa_op (c : Status) : (setStatus .csa c s).op = s.op := rfl
@[simp] theorem setStatus_csa_bus (c : Status) : (setStatus .csa c s).bus = s.bus := rfl
@[simp] theorem setStatus_csa_dev (c : Status) : (setStatus .csa c s).dev = s.dev := rfl
@[simp] theorem setStatus_csa_fn (c : Status) : (setStatus .csa c s).fn = s.fn := rfl
@[simp] theorem setStatus_csa_off (c : Status) : (setStatus .csa c s).off = s.off := rfl
@[simp] theorem setStatus_csa_wd (c : Status) : (setStatus .csa c s).wd = s.wd := rfl
@[simp] theorem setStatus_csa_ca (c : Status) : (setStatus .csa c s).ca = s.ca := rfl
@[simp] theorem setStatus_csa_tmp (c : Status) : (setStatus .csa c s).tmp = s.tmp := rfl
@[simp] theorem setStatus_csa_rd (c : Status) : (setStatus .csa c s).rd = s.rd := rfl
@[simp] theorem setStatus_csa_ph (c : Status) : (setStatus .csa c s).ph = s.ph := rfl
@[simp] theorem setStatus_csa_csaSt (c : Status) : (setStatus .csa c s).csaSt = c := rfl
@[simp] theorem setStatus_csa_cs (c : Status) : (setStatus .csa c s).cs = s.cs := rfl
@[simp] theorem setStatus_csa_target (c : Status) : (setStatus .csa c s).target = s.target := rfl
@[simp] theorem setStatus_csa_present (c : Status) : (setStatus .csa c s).present = s.present := rfl
@[simp] theorem setStatus_csa_cfgWrites (c : Status) : (setStatus .csa c s).cfgWrites = s.cfgWrites := rfl
@[simp] theorem setStatus_csa_addrPort (c : Status) : (setStatus .csa c s).addrPort = s.addrPort := rfl
@[simp] theorem setStatus_csa_dataPort (c : Status) : (setStatus .csa c s).dataPort = s.dataPort := rfl
@[simp] theorem setStatus_csa_absent (c : Status) : (setStatus .csa c s).absent = s.absent := rfl
@[simp] theorem setStatus_csa_fDst (c : Status) : (setStatus .csa c s).fDst = s.fDst := rfl
@[simp] theorem setStatus_csa_fSrc (c : Status) : (setStatus .csa c s).fSrc = s.fSrc := rfl
@[simp] theorem setStatus_csa_fLen (c : Status) : (setStatus .csa c s).fLen = s.fLen := rfl
@[simp] theorem setStatus_csa_fPcnt (c : Status) : (setStatus .csa c s).fPcnt = s.fPcnt := rfl
@[simp] theorem setStatus_csa_fPay (c : Status) : (setStatus .csa c s).fPay = s.fPay := rfl
@[simp] theorem setStatus_csa_fPayGen (c : Status) : (setStatus .csa c s).fPayGen = s.fPayGen := rfl
@[simp] theorem setStatus_csa_fb (c : Status) : (setStatus .csa c s).fb = s.fb := rfl
@[simp] theorem setStatus_csa_blen (c : Status) : (setStatus .csa c s).blen = s.blen := rfl
@[simp] theorem setStatus_csa_fcSt (c : Status) : (setStatus .csa c s).fcSt = s.fcSt := rfl
@[simp] theorem setStatus_csa_trace (c : Status) : (setStatus .csa c s).trace = s.trace := rfl
@[simp] theorem setStatus_csa_inbox (c : Status) : (setStatus .csa c s).inbox = s.inbox := rfl
@[simp] theorem setStatus_csa_gaps (c : Status) : (setStatus .csa c s).gaps = s.gaps := rfl
@[simp] theorem setStatus_csa_seen (c : Status) : (setStatus .csa c s).seen = s.seen := rfl
@[simp] theorem setStatus_csa_free (c : Status) : (setStatus .csa c s).free = s.free := rfl

/-! ### setStatus .fc -/
@[simp] theorem setStatus_fc_op (c : Status) : (setStatus .fc c s).op = s.op := rfl
@[simp] theorem setStatus_fc_bus (c : Status) : (setStatus .fc c s).bus = s.bus := rfl
@[simp] theorem setStatus_fc_dev (c : Status) : (setStatus .fc c s).dev = s.dev := rfl
@[simp] theorem setStatus_fc_fn (c : Status) : (setStatus .fc c s).fn = s.fn := rfl
@[simp] theorem setStatus_fc_off (c : Status) : (setStatus .fc c s).off = s.off := rfl
@[simp] theorem setStatus_fc_wd (c : Status) : (setStatus .fc c s).wd = s.wd := rfl
@[simp] theorem setStatus_fc_ca (c : Status) : (setStatus .fc c s).ca = s.ca := rfl
@[simp] theorem setStatus_fc_tmp (c : Status) : (setStatus .fc c s).tmp = s.tmp := rfl
@[simp] theorem setStatus_fc_rd (c : Status) : (setStatus .fc c s).rd = s.rd := rfl
@[simp] theorem setStatus_fc_ph (c : Status) : (setStatus .fc c s).ph = s.ph := rfl
@[simp] theorem setStatus_fc_csaSt (c : Status) : (setStatus .fc c s).csaSt = s.csaSt := rfl
@[simp] theorem setStatus_fc_cs (c : Status) : (setStatus .fc c s).cs = s.cs := rfl
@[simp] theorem setStatus_fc_target (c : Status) : (setStatus .fc c s).target = s.target := rfl
@[simp] theorem setStatus_fc_present (c : Status) : (setStatus .fc c s).present = s.present := rfl
@[simp] theorem setStatus_fc_cfgWrites (c : Status) : (setStatus .fc c s).cfgWrites = s.cfgWrites := rfl
@[simp] theorem setStatus_fc_addrPort (c : Status) : (setStatus .fc c s).addrPort = s.addrPort := rfl
@[simp] theorem setStatus_fc_dataPort (c : Status) : (setStatus .fc c s).dataPort = s.dataPort := rfl
@[simp] theorem setStatus_fc_absent (c : Status) : (setStatus .fc c s).absent = s.absent := rfl
@[simp] theorem setStatus_fc_fDst (c : Status) : (setStatus .fc c s).fDst = s.fDst := rfl
@[simp] theorem setStatus_fc_fSrc (c : Status) : (setStatus .fc c s).fSrc = s.fSrc := rfl
@[simp] theorem setStatus_fc_fLen (c : Status) : (setStatus .fc c s).fLen = s.fLen := rfl
@[simp] theorem setStatus_fc_fPcnt (c : Status) : (setStatus .fc c s).fPcnt = s.fPcnt := rfl
@[simp] theorem setStatus_fc_fPay (c : Status) : (setStatus .fc c s).fPay = s.fPay := rfl
@[simp] theorem setStatus_fc_fPayGen (c : Status) : (setStatus .fc c s).fPayGen = s.fPayGen := rfl
@[simp] theorem setStatus_fc_fb (c : Status) : (setStatus .fc c s).fb = s.fb := rfl
@[simp] theorem setStatus_fc_blen (c : Status) : (setStatus .fc c s).blen = s.blen := rfl
@[simp] theorem setStatus_fc_fcSt (c : Status) : (setStatus .fc c s).fcSt = c := rfl
@[simp] theorem setStatus_fc_trace (c : Status) : (setStatus .fc c s).trace = s.trace := rfl
@[simp] theorem setStatus_fc_inbox (c : Status) : (setStatus .fc c s).inbox = s.inbox := rfl
@[simp] theorem setStatus_fc_gaps (c : Status) : (setStatus .fc c s).gaps = s.gaps := rfl
@[simp] theorem setStatus_fc_seen (c : Status) : (setStatus .fc c s).seen = s.seen := rfl
@[simp] theorem setStatus_fc_free (c : Status) : (setStatus .fc c s).free = s.free := rfl

/-! ### loadFrame -/
@[simp] theorem loadFrame_op (f : Frame) : (loadFrame f s).op = s.op := rfl
@[simp] theorem loadFrame_bus (f : Frame) : (loadFrame f s).bus = s.bus := rfl
@[simp] theorem loadFrame_dev (f : Frame) : (loadFrame f s).dev = s.dev := rfl
@[simp] theorem loadFrame_fn (f : Frame) : (loadFrame f s).fn = s.fn := rfl
@[simp] theorem loadFrame_off (f : Frame) : (loadFrame f s).off = s.off := rfl
@[simp] theorem loadFrame_wd (f : Frame) : (loadFrame f s).wd = s.wd := rfl
@[simp] theorem loadFrame_ca (f : Frame) : (loadFrame f s).ca = s.ca := rfl
@[simp] theorem loadFrame_tmp (f : Frame) : (loadFrame f s).tmp = s.tmp := rfl
@[simp] theorem loadFrame_rd (f : Frame) : (loadFrame f s).rd = s.rd := rfl
@[simp] theorem loadFrame_ph (f : Frame) : (loadFrame f s).ph = s.ph := rfl
@[simp] theorem loadFrame_csaSt (f : Frame) : (loadFrame f s).csaSt = s.csaSt := rfl
@[simp] theorem loadFrame_cs (f : Frame) : (loadFrame f s).cs = s.cs := rfl
@[simp] theorem loadFrame_target (f : Frame) : (loadFrame f s).target = s.target := rfl
@[simp] theorem loadFrame_present (f : Frame) : (loadFrame f s).present = s.present := rfl
@[simp] theorem loadFrame_cfgWrites (f : Frame) : (loadFrame f s).cfgWrites = s.cfgWrites := rfl
@[simp] theorem loadFrame_addrPort (f : Frame) : (loadFrame f s).addrPort = s.addrPort := rfl
@[simp] theorem loadFrame_dataPort (f : Frame) : (loadFrame f s).dataPort = s.dataPort := rfl
@[simp] theorem loadFrame_absent (f : Frame) : (loadFrame f s).absent = s.absent := rfl
@[simp] theorem loadFrame_fDst (f : Frame) : (loadFrame f s).fDst = f.dst := rfl
@[simp] theorem loadFrame_fSrc (f : Frame) : (loadFrame f s).fSrc = f.src := rfl
@[simp] theorem loadFrame_fLen (f : Frame) : (loadFrame f s).fLen = f.len := rfl
@[simp] theorem loadFrame_fPcnt (f : Frame) : (loadFrame f s).fPcnt = BitVec.ofNat 11 f.payload.length := rfl
@[simp] theorem loadFrame_fPay (f : Frame) : (loadFrame f s).fPay = Memory.ofBytes none 0 f.payload := rfl
@[simp] theorem loadFrame_fPayGen (f : Frame) : (loadFrame f s).fPayGen = s.free + 1 := rfl
@[simp] theorem loadFrame_fb (f : Frame) : (loadFrame f s).fb = s.fb := rfl
@[simp] theorem loadFrame_blen (f : Frame) : (loadFrame f s).blen = s.blen := rfl
@[simp] theorem loadFrame_fcSt (f : Frame) : (loadFrame f s).fcSt = s.fcSt := rfl
@[simp] theorem loadFrame_trace (f : Frame) : (loadFrame f s).trace = s.trace := rfl
@[simp] theorem loadFrame_inbox (f : Frame) : (loadFrame f s).inbox = s.inbox := rfl
@[simp] theorem loadFrame_gaps (f : Frame) : (loadFrame f s).gaps = s.gaps := rfl
@[simp] theorem loadFrame_seen (f : Frame) : (loadFrame f s).seen = s.seen := rfl
@[simp] theorem loadFrame_free (f : Frame) : (loadFrame f s).free = s.free + 1 := rfl

/-! ### observe -/
@[simp] theorem observe_op (r : ClientReg) : (observe r s).op = s.op := rfl
@[simp] theorem observe_bus (r : ClientReg) : (observe r s).bus = s.bus := rfl
@[simp] theorem observe_dev (r : ClientReg) : (observe r s).dev = s.dev := rfl
@[simp] theorem observe_fn (r : ClientReg) : (observe r s).fn = s.fn := rfl
@[simp] theorem observe_off (r : ClientReg) : (observe r s).off = s.off := rfl
@[simp] theorem observe_wd (r : ClientReg) : (observe r s).wd = s.wd := rfl
@[simp] theorem observe_ca (r : ClientReg) : (observe r s).ca = s.ca := rfl
@[simp] theorem observe_tmp (r : ClientReg) : (observe r s).tmp = s.tmp := rfl
@[simp] theorem observe_rd (r : ClientReg) : (observe r s).rd = s.rd := rfl
@[simp] theorem observe_ph (r : ClientReg) : (observe r s).ph = s.ph := rfl
@[simp] theorem observe_csaSt (r : ClientReg) : (observe r s).csaSt = s.csaSt := rfl
@[simp] theorem observe_cs (r : ClientReg) : (observe r s).cs = s.cs := rfl
@[simp] theorem observe_target (r : ClientReg) : (observe r s).target = s.target := rfl
@[simp] theorem observe_present (r : ClientReg) : (observe r s).present = s.present := rfl
@[simp] theorem observe_cfgWrites (r : ClientReg) : (observe r s).cfgWrites = s.cfgWrites := rfl
@[simp] theorem observe_addrPort (r : ClientReg) : (observe r s).addrPort = s.addrPort := rfl
@[simp] theorem observe_dataPort (r : ClientReg) : (observe r s).dataPort = s.dataPort := rfl
@[simp] theorem observe_absent (r : ClientReg) : (observe r s).absent = s.absent := rfl
@[simp] theorem observe_fDst (r : ClientReg) : (observe r s).fDst = s.fDst := rfl
@[simp] theorem observe_fSrc (r : ClientReg) : (observe r s).fSrc = s.fSrc := rfl
@[simp] theorem observe_fLen (r : ClientReg) : (observe r s).fLen = s.fLen := rfl
@[simp] theorem observe_fPcnt (r : ClientReg) : (observe r s).fPcnt = s.fPcnt := rfl
@[simp] theorem observe_fPay (r : ClientReg) : (observe r s).fPay = s.fPay := rfl
@[simp] theorem observe_fPayGen (r : ClientReg) : (observe r s).fPayGen = s.fPayGen := rfl
@[simp] theorem observe_fb (r : ClientReg) : (observe r s).fb = s.fb := rfl
@[simp] theorem observe_blen (r : ClientReg) : (observe r s).blen = s.blen := rfl
@[simp] theorem observe_fcSt (r : ClientReg) : (observe r s).fcSt = s.fcSt := rfl
@[simp] theorem observe_trace (r : ClientReg) : (observe r s).trace = s.trace := rfl
@[simp] theorem observe_inbox (r : ClientReg) : (observe r s).inbox = s.inbox := rfl
@[simp] theorem observe_gaps (r : ClientReg) : (observe r s).gaps = s.gaps := rfl
@[simp] theorem observe_seen (r : ClientReg) : (observe r s).seen = s.seen ++ [⟨r, clientRead r s⟩] := rfl
@[simp] theorem observe_free (r : ClientReg) : (observe r s).free = s.free := rfl

/-! ### applyReset -/
@[simp] theorem applyReset_op : (applyReset s).op = 0#4 := rfl
@[simp] theorem applyReset_bus : (applyReset s).bus = 0#8 := rfl
@[simp] theorem applyReset_dev : (applyReset s).dev = 0#5 := rfl
@[simp] theorem applyReset_fn : (applyReset s).fn = 0#3 := rfl
@[simp] theorem applyReset_off : (applyReset s).off = 0#8 := rfl
@[simp] theorem applyReset_wd : (applyReset s).wd = 0#32 := rfl
@[simp] theorem applyReset_ca : (applyReset s).ca = 0#32 := rfl
@[simp] theorem applyReset_tmp : (applyReset s).tmp = 0#32 := rfl
@[simp] theorem applyReset_rd : (applyReset s).rd = 0#32 := rfl
@[simp] theorem applyReset_ph : (applyReset s).ph = .idle := rfl
@[simp] theorem applyReset_csaSt : (applyReset s).csaSt = .ok := rfl
@[simp] theorem applyReset_cs : (applyReset s).cs = s.cs := rfl
@[simp] theorem applyReset_target : (applyReset s).target = s.target := rfl
@[simp] theorem applyReset_present : (applyReset s).present = s.present := rfl
@[simp] theorem applyReset_cfgWrites : (applyReset s).cfgWrites = s.cfgWrites := rfl
@[simp] theorem applyReset_addrPort : (applyReset s).addrPort = s.addrPort := rfl
@[simp] theorem applyReset_dataPort : (applyReset s).dataPort = s.dataPort := rfl
@[simp] theorem applyReset_absent : (applyReset s).absent = s.absent := rfl
@[simp] theorem applyReset_fDst : (applyReset s).fDst = Vector.replicate 6 0#8 := rfl
@[simp] theorem applyReset_fSrc : (applyReset s).fSrc = Vector.replicate 6 0#8 := rfl
@[simp] theorem applyReset_fLen : (applyReset s).fLen = 0#16 := rfl
@[simp] theorem applyReset_fPcnt : (applyReset s).fPcnt = 0#11 := rfl
@[simp] theorem applyReset_fPay : (applyReset s).fPay = [] := rfl
@[simp] theorem applyReset_fPayGen : (applyReset s).fPayGen = 0 := rfl
@[simp] theorem applyReset_fb : (applyReset s).fb = [] := rfl
@[simp] theorem applyReset_blen : (applyReset s).blen = 0#11 := rfl
@[simp] theorem applyReset_fcSt : (applyReset s).fcSt = .ok := rfl
@[simp] theorem applyReset_trace : (applyReset s).trace = s.trace := rfl
@[simp] theorem applyReset_inbox : (applyReset s).inbox = s.inbox := rfl
@[simp] theorem applyReset_gaps : (applyReset s).gaps = s.gaps := rfl
@[simp] theorem applyReset_seen : (applyReset s).seen = s.seen := rfl
@[simp] theorem applyReset_free : (applyReset s).free = s.free := rfl

/-! ### clientWrite: everything but the frame registers, `FB` and `BLEN` -/
@[simp] theorem clientWrite_op (c : ClientWrite) : (clientWrite c s).op = s.op := by cases c <;> rfl
@[simp] theorem clientWrite_bus (c : ClientWrite) : (clientWrite c s).bus = s.bus := by cases c <;> rfl
@[simp] theorem clientWrite_dev (c : ClientWrite) : (clientWrite c s).dev = s.dev := by cases c <;> rfl
@[simp] theorem clientWrite_fn (c : ClientWrite) : (clientWrite c s).fn = s.fn := by cases c <;> rfl
@[simp] theorem clientWrite_off (c : ClientWrite) : (clientWrite c s).off = s.off := by cases c <;> rfl
@[simp] theorem clientWrite_wd (c : ClientWrite) : (clientWrite c s).wd = s.wd := by cases c <;> rfl
@[simp] theorem clientWrite_ca (c : ClientWrite) : (clientWrite c s).ca = s.ca := by cases c <;> rfl
@[simp] theorem clientWrite_tmp (c : ClientWrite) : (clientWrite c s).tmp = s.tmp := by cases c <;> rfl
@[simp] theorem clientWrite_rd (c : ClientWrite) : (clientWrite c s).rd = s.rd := by cases c <;> rfl
@[simp] theorem clientWrite_ph (c : ClientWrite) : (clientWrite c s).ph = s.ph := by cases c <;> rfl
@[simp] theorem clientWrite_csaSt (c : ClientWrite) : (clientWrite c s).csaSt = s.csaSt := by cases c <;> rfl
@[simp] theorem clientWrite_cs (c : ClientWrite) : (clientWrite c s).cs = s.cs := by cases c <;> rfl
@[simp] theorem clientWrite_target (c : ClientWrite) : (clientWrite c s).target = s.target := by cases c <;> rfl
@[simp] theorem clientWrite_present (c : ClientWrite) : (clientWrite c s).present = s.present := by cases c <;> rfl
@[simp] theorem clientWrite_cfgWrites (c : ClientWrite) : (clientWrite c s).cfgWrites = s.cfgWrites := by cases c <;> rfl
@[simp] theorem clientWrite_addrPort (c : ClientWrite) : (clientWrite c s).addrPort = s.addrPort := by cases c <;> rfl
@[simp] theorem clientWrite_dataPort (c : ClientWrite) : (clientWrite c s).dataPort = s.dataPort := by cases c <;> rfl
@[simp] theorem clientWrite_absent (c : ClientWrite) : (clientWrite c s).absent = s.absent := by cases c <;> rfl
@[simp] theorem clientWrite_fPayGen (c : ClientWrite) : (clientWrite c s).fPayGen = s.fPayGen := by cases c <;> rfl
@[simp] theorem clientWrite_fcSt (c : ClientWrite) : (clientWrite c s).fcSt = s.fcSt := by cases c <;> rfl
@[simp] theorem clientWrite_trace (c : ClientWrite) : (clientWrite c s).trace = s.trace := by cases c <;> rfl
@[simp] theorem clientWrite_inbox (c : ClientWrite) : (clientWrite c s).inbox = s.inbox := by cases c <;> rfl
@[simp] theorem clientWrite_gaps (c : ClientWrite) : (clientWrite c s).gaps = s.gaps := by cases c <;> rfl
@[simp] theorem clientWrite_seen (c : ClientWrite) : (clientWrite c s).seen = s.seen := by cases c <;> rfl
@[simp] theorem clientWrite_free (c : ClientWrite) : (clientWrite c s).free = s.free := by cases c <;> rfl

/-! ### csChange: everything but the store and the free choices -/
@[simp] theorem csChange_op (r : CfgSel) (v : Dword) : (csChange r v s).op = s.op := by unfold csChange; cases s.target <;> rfl
@[simp] theorem csChange_bus (r : CfgSel) (v : Dword) : (csChange r v s).bus = s.bus := by unfold csChange; cases s.target <;> rfl
@[simp] theorem csChange_dev (r : CfgSel) (v : Dword) : (csChange r v s).dev = s.dev := by unfold csChange; cases s.target <;> rfl
@[simp] theorem csChange_fn (r : CfgSel) (v : Dword) : (csChange r v s).fn = s.fn := by unfold csChange; cases s.target <;> rfl
@[simp] theorem csChange_off (r : CfgSel) (v : Dword) : (csChange r v s).off = s.off := by unfold csChange; cases s.target <;> rfl
@[simp] theorem csChange_wd (r : CfgSel) (v : Dword) : (csChange r v s).wd = s.wd := by unfold csChange; cases s.target <;> rfl
@[simp] theorem csChange_ca (r : CfgSel) (v : Dword) : (csChange r v s).ca = s.ca := by unfold csChange; cases s.target <;> rfl
@[simp] theorem csChange_tmp (r : CfgSel) (v : Dword) : (csChange r v s).tmp = s.tmp := by unfold csChange; cases s.target <;> rfl
@[simp] theorem csChange_rd (r : CfgSel) (v : Dword) : (csChange r v s).rd = s.rd := by unfold csChange; cases s.target <;> rfl
@[simp] theorem csChange_ph (r : CfgSel) (v : Dword) : (csChange r v s).ph = s.ph := by unfold csChange; cases s.target <;> rfl
@[simp] theorem csChange_csaSt (r : CfgSel) (v : Dword) : (csChange r v s).csaSt = s.csaSt := by unfold csChange; cases s.target <;> rfl
@[simp] theorem csChange_target (r : CfgSel) (v : Dword) : (csChange r v s).target = s.target := by unfold csChange; cases s.target <;> rfl
@[simp] theorem csChange_present (r : CfgSel) (v : Dword) : (csChange r v s).present = s.present := by unfold csChange; cases s.target <;> rfl
@[simp] theorem csChange_cfgWrites (r : CfgSel) (v : Dword) : (csChange r v s).cfgWrites = s.cfgWrites := by unfold csChange; cases s.target <;> rfl
@[simp] theorem csChange_addrPort (r : CfgSel) (v : Dword) : (csChange r v s).addrPort = s.addrPort := by unfold csChange; cases s.target <;> rfl
@[simp] theorem csChange_dataPort (r : CfgSel) (v : Dword) : (csChange r v s).dataPort = s.dataPort := by unfold csChange; cases s.target <;> rfl
@[simp] theorem csChange_absent (r : CfgSel) (v : Dword) : (csChange r v s).absent = s.absent := by unfold csChange; cases s.target <;> rfl
@[simp] theorem csChange_fDst (r : CfgSel) (v : Dword) : (csChange r v s).fDst = s.fDst := by unfold csChange; cases s.target <;> rfl
@[simp] theorem csChange_fSrc (r : CfgSel) (v : Dword) : (csChange r v s).fSrc = s.fSrc := by unfold csChange; cases s.target <;> rfl
@[simp] theorem csChange_fLen (r : CfgSel) (v : Dword) : (csChange r v s).fLen = s.fLen := by unfold csChange; cases s.target <;> rfl
@[simp] theorem csChange_fPcnt (r : CfgSel) (v : Dword) : (csChange r v s).fPcnt = s.fPcnt := by unfold csChange; cases s.target <;> rfl
@[simp] theorem csChange_fPay (r : CfgSel) (v : Dword) : (csChange r v s).fPay = s.fPay := by unfold csChange; cases s.target <;> rfl
@[simp] theorem csChange_fPayGen (r : CfgSel) (v : Dword) : (csChange r v s).fPayGen = s.fPayGen := by unfold csChange; cases s.target <;> rfl
@[simp] theorem csChange_fb (r : CfgSel) (v : Dword) : (csChange r v s).fb = s.fb := by unfold csChange; cases s.target <;> rfl
@[simp] theorem csChange_blen (r : CfgSel) (v : Dword) : (csChange r v s).blen = s.blen := by unfold csChange; cases s.target <;> rfl
@[simp] theorem csChange_fcSt (r : CfgSel) (v : Dword) : (csChange r v s).fcSt = s.fcSt := by unfold csChange; cases s.target <;> rfl
@[simp] theorem csChange_trace (r : CfgSel) (v : Dword) : (csChange r v s).trace = s.trace := by unfold csChange; cases s.target <;> rfl
@[simp] theorem csChange_inbox (r : CfgSel) (v : Dword) : (csChange r v s).inbox = s.inbox := by unfold csChange; cases s.target <;> rfl
@[simp] theorem csChange_gaps (r : CfgSel) (v : Dword) : (csChange r v s).gaps = s.gaps := by unfold csChange; cases s.target <;> rfl
@[simp] theorem csChange_seen (r : CfgSel) (v : Dword) : (csChange r v s).seen = s.seen := by unfold csChange; cases s.target <;> rfl

/-! ### the two uses of `setStatus` -/
@[simp] theorem raiseStatus_eq (u : UnitName) (c : Status) : raiseStatus u c s = setStatus u c s := rfl
@[simp] theorem completeOk_eq (u : UnitName) : completeOk u s = setStatus u .ok s := rfl

/-! ### `andThen` -/
@[simp] theorem andThen_next (k : State → Result) : andThen (.next s) k = k s := rfl
@[simp] theorem andThen_fault (f : Fault) (k : State → Result) : andThen (.fault f) k = .fault f := rfl
@[simp] theorem andThen_refused (x : Refusal) (k : State → Result) : andThen (.refused x) k = .refused x := rfl

/-- A sequence answers a next state exactly when its parts do. -/
theorem andThen_eq_next (r : Result) (k : State → Result) (t : State) :
    andThen r k = .next t ↔ ∃ u, r = .next u ∧ k u = .next t := by
  cases r <;> simp [andThen]

/-- A sequence faults exactly when one of its parts does. -/
theorem andThen_eq_fault (r : Result) (k : State → Result) (f : Fault) :
    andThen r k = .fault f ↔ r = .fault f ∨ ∃ u, r = .next u ∧ k u = .fault f := by
  cases r <;> simp [andThen]

/-- A sequence is refused exactly when one of its parts is. -/
theorem andThen_eq_refused (r : Result) (k : State → Result) (x : Refusal) :
    andThen r k = .refused x ↔ r = .refused x ∨ ∃ u, r = .next u ∧ k u = .refused x := by
  cases r <;> simp [andThen]

end Sys2Proof.Machine
end

