-- ==== Sys2Proof/Laws/Memory.lean ====
section
/-! SUPPORT. The laws of byte memories: read after write, every operation keeps the canonical form, and equal reads make
equal memories. -/

namespace Sys2Proof.Machine

variable {dflt : Option Byte} {size : Nat}

@[simp] theorem find_nil (a : Nat) : Memory.find a [] = none := rfl

theorem find_cons (a : Nat) (c : Host.Cell) (m : Memory) :
    Memory.find a (c :: m) = if c.1 = a then some c.2 else Memory.find a m := rfl

theorem wfFrom_cons (lo : Nat) (c : Host.Cell) (m : Memory) :
    Memory.wfFrom dflt size lo (c :: m) = true ↔
      lo ≤ c.1 ∧ c.1 < size ∧ dflt ≠ some c.2 ∧ Memory.wfFrom dflt size (c.1 + 1) m = true := by
  simp [Memory.wfFrom, and_assoc]

theorem wfFrom_weaken {lo lo' : Nat} {m : Memory} (h : lo' ≤ lo) (hm : Memory.wfFrom dflt size lo m = true) :
    Memory.wfFrom dflt size lo' m = true := by
  cases m with
  | nil => rfl
  | cons c m => rw [wfFrom_cons] at hm ⊢; exact ⟨by omega, hm.2⟩

theorem find_below {m : Memory} : ∀ {lo a : Nat}, Memory.wfFrom dflt size lo m = true → a < lo →
    Memory.find a m = none := by
  induction m with
  | nil => intros; rfl
  | cons c m ih =>
    intro lo a hm ha
    rw [wfFrom_cons] at hm
    rw [find_cons, if_neg (by omega)]
    exact ih hm.2.2.2 (by omega)

theorem find_insert (a x : Nat) (v : Byte) (m : Memory) :
    Memory.find a (Memory.insert x v m) = if a = x then some v else Memory.find a m := by
  induction m with
  | nil => simp [Memory.insert, find_cons, eq_comm]
  | cons c m ih =>
    unfold Memory.insert
    split
    · simp only [find_cons, eq_comm]
    · split
      · rename_i h; subst h
        by_cases hx : a = c.1 <;> simp [find_cons, hx, eq_comm]
      · rw [find_cons, ih, find_cons]
        by_cases hx : a = x
        · subst hx; simp_all
        · simp [hx]

theorem find_erase {m : Memory} : ∀ {lo : Nat} (a x : Nat), Memory.wfFrom dflt size lo m = true →
    Memory.find a (Memory.erase x m) = if a = x then none else Memory.find a m := by
  induction m with
  | nil => intros; simp [Memory.erase]
  | cons c m ih =>
    intro lo a x hm
    rw [wfFrom_cons] at hm
    unfold Memory.erase
    split
    · rename_i h
      by_cases hx : a = x
      · subst hx; rw [if_pos rfl]; exact find_below hm.2.2.2 (by omega)
      · rw [if_neg hx, find_cons, if_neg (by omega)]
    · rw [find_cons, ih a x hm.2.2.2, find_cons]
      by_cases hx : a = x
      · subst hx; simp_all
      · simp [hx]

/-- Read after write, at the place and everywhere else. -/
theorem find_write {lo : Nat} {m : Memory} (a x : Nat) (v : Byte) (hm : Memory.wfFrom dflt size lo m = true) :
    Memory.find a (Memory.write dflt x v m) =
      if a = x then (if dflt = some v then none else some v) else Memory.find a m := by
  unfold Memory.write
  split
  · simp [find_erase a x hm]
  · rw [find_insert]

theorem wfFrom_erase {m : Memory} : ∀ {lo : Nat} (x : Nat), Memory.wfFrom dflt size lo m = true →
    Memory.wfFrom dflt size lo (Memory.erase x m) = true := by
  induction m with
  | nil => intros; rfl
  | cons c m ih =>
    intro lo x hm
    rw [wfFrom_cons] at hm
    unfold Memory.erase
    split
    · exact wfFrom_weaken (by omega) hm.2.2.2
    · rw [wfFrom_cons]; exact ⟨hm.1, hm.2.1, hm.2.2.1, ih x hm.2.2.2⟩

theorem wfFrom_insert {m : Memory} : ∀ {lo : Nat} {x : Nat} {v : Byte}, Memory.wfFrom dflt size lo m = true →
    lo ≤ x → x < size → dflt ≠ some v → Memory.wfFrom dflt size lo (Memory.insert x v m) = true := by
  induction m with
  | nil =>
    intro lo x v _ h1 h2 h3
    rw [Memory.insert, wfFrom_cons]
    exact ⟨h1, h2, h3, rfl⟩
  | cons c m ih =>
    intro lo x v hm h1 h2 h3
    rw [wfFrom_cons] at hm
    unfold Memory.insert
    split
    · rw [wfFrom_cons, wfFrom_cons]
      exact ⟨h1, h2, h3, by show x + 1 ≤ c.1; omega, hm.2.1, hm.2.2.1, hm.2.2.2⟩
    · split
      · rename_i h; subst h
        rw [wfFrom_cons]; exact ⟨h1, h2, h3, hm.2.2.2⟩
      · rw [wfFrom_cons]
        exact ⟨hm.1, hm.2.1, hm.2.2.1, ih hm.2.2.2 (by omega) h2 h3⟩

/-- A write keeps the canonical form. -/
theorem wf_write {m : Memory} {x : Nat} {v : Byte} (hm : Memory.wf dflt size m = true) (hx : x < size) :
    Memory.wf dflt size (Memory.write dflt x v m) = true := by
  unfold Memory.write
  split
  · exact wfFrom_erase x hm
  · rename_i h; exact wfFrom_insert hm (Nat.zero_le _) hx h

theorem wfFrom_ofBytes (bs : List Byte) : ∀ (lo base : Nat), lo ≤ base → base + bs.length ≤ size →
    Memory.wfFrom dflt size lo (Memory.ofBytes dflt base bs) = true := by
  induction bs with
  | nil => intros; rfl
  | cons b bs ih =>
    intro lo base h1 h2
    simp only [List.length_cons] at h2
    unfold Memory.ofBytes
    split
    · exact ih lo (base + 1) (by omega) (by omega)
    · rename_i h
      rw [wfFrom_cons]
      exact ⟨h1, by show base < size; omega, h, ih (base + 1) (base + 1) (Nat.le_refl _) (by omega)⟩

/-- A memory built from bytes is in canonical form. -/
theorem wf_ofBytes (base : Nat) (bs : List Byte) (h : base + bs.length ≤ size) :
    Memory.wf dflt size (Memory.ofBytes dflt base bs) = true :=
  wfFrom_ofBytes bs 0 base (Nat.zero_le _) h

theorem find_ofBytes_below (bs : List Byte) : ∀ (base a : Nat), a < base →
    Memory.find a (Memory.ofBytes dflt base bs) = none := by
  intro base a h
  exact find_below (size := base + bs.length) (wfFrom_ofBytes bs base base (Nat.le_refl _) (Nat.le_refl _)) h

/-- What a memory built from bytes lists at an address. -/
theorem find_ofBytes (bs : List Byte) : ∀ (base a : Nat), base ≤ a →
    Memory.find a (Memory.ofBytes dflt base bs) =
      bs[a - base]?.bind fun b => if dflt = some b then none else some b := by
  induction bs with
  | nil => intros; simp [Memory.ofBytes]
  | cons b bs ih =>
    intro base a h
    unfold Memory.ofBytes
    by_cases hab : a = base
    · subst hab
      split
      · rename_i hd; simp [hd, find_ofBytes_below bs (a + 1) a (by omega)]
      · rename_i hd; simp [find_cons, hd]
    · obtain ⟨k, hk⟩ : ∃ k, a - base = k + 1 := ⟨a - base - 1, by omega⟩
      have hk' : a - (base + 1) = k := by omega
      split
      · rw [ih (base + 1) a (by omega), hk', hk]; rfl
      · rw [find_cons, if_neg (by show ¬ base = a; omega), ih (base + 1) a (by omega), hk', hk]; rfl

/-- Where unlisted bytes read as zero, a memory built from bytes reads as those bytes, and zero beyond them. -/
theorem read_ofBytes_zero (bs : List Byte) (a : Nat) :
    (Memory.find a (Memory.ofBytes zeroDflt 0 bs)).getD 0#8 = bs.getD a 0#8 := by
  rw [find_ofBytes bs 0 a (Nat.zero_le _), Nat.sub_zero, List.getD_eq_getElem?_getD]
  cases h : bs[a]? with
  | none => rfl
  | some b =>
    by_cases hb : zeroDflt = some b
    · simp only [zeroDflt, Option.some.injEq] at hb; subst hb; simp [zeroDflt]
    · simp [hb]

/-- Where every byte is listed, a memory built from bytes lists exactly those bytes. -/
theorem find_ofBytes_none (bs : List Byte) (a : Nat) : Memory.find a (Memory.ofBytes none 0 bs) = bs[a]? := by
  rw [find_ofBytes bs 0 a (Nat.zero_le _), Nat.sub_zero]
  cases bs[a]? <;> rfl

/-- Equal memories are equal data: two canonical memories that list the same bytes are one. -/
theorem wfFrom_ext {m : Memory} : ∀ {n : Memory} {lo : Nat}, Memory.wfFrom dflt size lo m = true →
    Memory.wfFrom dflt size lo n = true → (∀ a, Memory.find a m = Memory.find a n) → m = n := by
  induction m with
  | nil =>
    intro n lo _ hn h
    cases n with
    | nil => rfl
    | cons c n => simpa [find_cons] using h c.1
  | cons c m ih =>
    intro n lo hm hn h
    cases n with
    | nil => simpa [find_cons] using h c.1
    | cons e n =>
      rw [wfFrom_cons] at hm hn
      have h1 := h c.1
      have h2 := h e.1
      simp only [find_cons, if_true] at h1 h2
      have hce : c.1 = e.1 := by
        by_contra hne
        rw [if_neg (by omega)] at h1
        rw [if_neg (by omega)] at h2
        rcases Nat.lt_or_gt_of_ne hne with hlt | hlt
        · rw [find_below hn.2.2.2 (by omega)] at h1; cases h1
        · rw [find_below hm.2.2.2 (by omega)] at h2; cases h2
      have hv : c.2 = e.2 := by rw [if_pos hce.symm] at h1; exact Option.some.inj h1
      have hc : c = e := Prod.ext hce hv
      subst hc
      congr 1
      apply ih hm.2.2.2 hn.2.2.2
      intro a
      by_cases ha : c.1 = a
      · subst ha
        rw [find_below hm.2.2.2 (by omega), find_below hn.2.2.2 (by omega)]
      · have := h a
        simpa [find_cons, ha] using this

/-- The bytes of a register's place, when a dword is written to it. -/
theorem find_write32 {m : Memory} {base : Nat} (v : Dword) (a : Nat)
    (hm : Memory.wf zeroDflt Config.csSize m = true) (hb : base + 3 < Config.csSize) :
    (Memory.find a (write32 base v m)).getD 0#8 =
      if a = base then v.extractLsb' 0 8
      else if a = base + 1 then v.extractLsb' 8 8
      else if a = base + 2 then v.extractLsb' 16 8
      else if a = base + 3 then v.extractLsb' 24 8
      else (Memory.find a m).getD 0#8 := by
  have h0 : Memory.wf zeroDflt Config.csSize (Memory.write zeroDflt base (v.extractLsb' 0 8) m) = true :=
    wf_write hm (by omega)
  have h1 := wf_write (x := base + 1) (v := v.extractLsb' 8 8) h0 (by omega)
  have h2 := wf_write (x := base + 2) (v := v.extractLsb' 16 8) h1 (by omega)
  have key : ∀ b : Byte, (if zeroDflt = some b then none else some b).getD 0#8 = b := by
    intro b
    by_cases hb : zeroDflt = some b
    · simp only [zeroDflt, Option.some.injEq] at hb; subst hb; simp [zeroDflt]
    · simp [hb]
  unfold write32
  rw [find_write a (base + 3) _ h2, find_write a (base + 2) _ h1, find_write a (base + 1) _ h0,
    find_write a base _ hm]
  by_cases e0 : a = base
  · subst e0; simp [key]
  by_cases e1 : a = base + 1
  · subst e1; simp [key]
  by_cases e2 : a = base + 2
  · subst e2; simp [key]
  by_cases e3 : a = base + 3
  · subst e3; simp [key]
  simp [e0, e1, e2, e3]

/-- Writing a dword keeps the canonical form. -/
theorem wf_write32 {m : Memory} {base : Nat} (v : Dword) (hm : Memory.wf zeroDflt Config.csSize m = true)
    (hb : base + 3 < Config.csSize) : Memory.wf zeroDflt Config.csSize (write32 base v m) = true :=
  wf_write (wf_write (wf_write (wf_write hm (by omega)) (by omega)) (by omega)) (by omega)

/-- The four bytes of a dword, put together again. -/
theorem append_bytes (v : Dword) :
    (v.extractLsb' 24 8 ++ v.extractLsb' 16 8 ++ v.extractLsb' 8 8 ++ v.extractLsb' 0 8 : BitVec (8 + 8 + 8 + 8)) = v := by
  apply BitVec.eq_of_getLsbD_eq
  intro i hi
  simp only [BitVec.getLsbD_append, BitVec.getLsbD_extractLsb']
  by_cases h0 : i < 8
  · simp [h0]
  by_cases h1 : i - 8 < 8
  · simp [h0, h1]; congr 1; omega
  by_cases h2 : i - 8 - 8 < 8
  · simp [h0, h1, h2]; congr 1; omega
  · simp [h0, h1, h2, show i - 8 - 8 - 8 < 8 by omega]; congr 1; omega

/-- A register reads back the dword last written to it. -/
theorem read32_write32_same {m : Memory} {base : Nat} (v : Dword)
    (hm : Memory.wf zeroDflt Config.csSize m = true) (hb : base + 3 < Config.csSize) :
    read32 (write32 base v m) base = v := by
  unfold read32
  rw [find_write32 v _ hm hb, find_write32 v _ hm hb, find_write32 v _ hm hb, find_write32 v _ hm hb]
  simp only [if_true, Nat.add_eq_left, Nat.add_left_cancel_iff, OfNat.ofNat_ne_zero, OfNat.ofNat_ne_one,
    if_false, one_ne_zero]
  simpa using append_bytes v

/-- A register's place lies in the configuration space. -/
theorem cfgBase_lt (r : CfgSel) : cfgBase r + 3 < Config.csSize := by
  have h1 := r.bus.isLt
  have h2 := r.dev.isLt
  have h3 := r.fn.isLt
  have h4 := r.reg.isLt
  unfold cfgBase Config.csSize
  omega

/-- Different registers have different, disjoint places. -/
theorem cfgBase_inj {r q : CfgSel} (h : cfgBase r < cfgBase q + 4 ∧ cfgBase q < cfgBase r + 4) : r = q := by
  have h1 := r.bus.isLt
  have h2 := r.dev.isLt
  have h3 := r.fn.isLt
  have h4 := r.reg.isLt
  have g1 := q.bus.isLt
  have g2 := q.dev.isLt
  have g3 := q.fn.isLt
  have g4 := q.reg.isLt
  unfold cfgBase at h
  obtain ⟨b, d, f, x⟩ := r
  obtain ⟨b', d', f', x'⟩ := q
  simp only at *
  have e1 : b = b' := BitVec.eq_of_toNat_eq (by omega)
  have e2 : d = d' := BitVec.eq_of_toNat_eq (by omega)
  have e3 : f = f' := BitVec.eq_of_toNat_eq (by omega)
  have e4 : x = x' := BitVec.eq_of_toNat_eq (by omega)
  subst e1 e2 e3 e4; rfl

/-- Writing one register leaves the dword of every other. -/
theorem read32_write32_other {m : Memory} {r q : CfgSel} (v : Dword)
    (hm : Memory.wf zeroDflt Config.csSize m = true) (h : r ≠ q) :
    read32 (write32 (cfgBase q) v m) (cfgBase r) = read32 m (cfgBase r) := by
  have hd : ¬ (cfgBase r < cfgBase q + 4 ∧ cfgBase q < cfgBase r + 4) := fun hh => h (cfgBase_inj hh)
  have hb := cfgBase_lt q
  have step : ∀ k, k < 4 → (Memory.find (cfgBase r + k) (write32 (cfgBase q) v m)).getD 0#8 =
      (Memory.find (cfgBase r + k) m).getD 0#8 := by
    intro k hk
    rw [find_write32 v _ hm hb, if_neg (by omega), if_neg (by omega), if_neg (by omega), if_neg (by omega)]
  unfold read32
  rw [step 3 (by omega), step 2 (by omega), step 1 (by omega)]
  have := step 0 (by omega)
  rw [Nat.add_zero] at this
  rw [this]

end Sys2Proof.Machine
end

