-- ==== Sys2Proof/Laws/Operands.lean ====
section
/-! SUPPORT. The fields of the address word and of the command word, and the arithmetic of the lane. -/

namespace Sys2Proof

/-! ### The command word -/

section Fields

variable (opc : BitVec 4) (bus : BitVec 8) (dev : BitVec 5) (fn : BitVec 3) (off : BitVec 8) (data : Dword)

@[simp] theorem opcOf_formatC : opcOf (formatC opc bus dev fn off data) = opc := by
  apply BitVec.eq_of_getLsbD_eq; intro i hi
  simp only [opcOf, formatC, BitVec.getLsbD_extractLsb', BitVec.getLsbD_append]
  simp [hi, -BitVec.getLsbD_eq_getElem, show ¬ 60 + i < 32 by omega, show ¬ 60 + i - 32 < 8 by omega, show ¬ 60 + i - 32 - 8 < 3 by omega, show ¬ 60 + i - 32 - 8 - 3 < 5 by omega, show ¬ 60 + i - 32 - 8 - 3 - 5 < 8 by omega, show ¬ 60 + i - 32 - 8 - 3 - 5 - 8 < 4 by omega]
  congr 1; omega

@[simp] theorem rsvOf_formatC : rsvOf (formatC opc bus dev fn off data) = 0#4 := by
  apply BitVec.eq_of_getLsbD_eq; intro i hi
  simp only [rsvOf, formatC, BitVec.getLsbD_extractLsb', BitVec.getLsbD_append]
  simp [hi, show ¬ 56 + i < 32 by omega, show ¬ 56 + i - 32 < 8 by omega, show ¬ 56 + i - 32 - 8 < 3 by omega, show ¬ 56 + i - 32 - 8 - 3 < 5 by omega, show ¬ 56 + i - 32 - 8 - 3 - 5 < 8 by omega, show 56 + i - 32 - 8 - 3 - 5 - 8 < 4 by omega]

@[simp] theorem busOf_formatC : busOf (formatC opc bus dev fn off data) = bus := by
  apply BitVec.eq_of_getLsbD_eq; intro i hi
  simp only [busOf, formatC, BitVec.getLsbD_extractLsb', BitVec.getLsbD_append]
  simp [hi, show ¬ 48 + i < 32 by omega, show ¬ 48 + i - 32 < 8 by omega, show ¬ 48 + i - 32 - 8 < 3 by omega, show ¬ 48 + i - 32 - 8 - 3 < 5 by omega, show 48 + i - 32 - 8 - 3 - 5 < 8 by omega]
  congr 1; omega

@[simp] theorem devOf_formatC : devOf (formatC opc bus dev fn off data) = dev := by
  apply BitVec.eq_of_getLsbD_eq; intro i hi
  simp only [devOf, formatC, BitVec.getLsbD_extractLsb', BitVec.getLsbD_append]
  simp [hi, show ¬ 43 + i < 32 by omega, show ¬ 43 + i - 32 < 8 by omega, show ¬ 43 + i - 32 - 8 < 3 by omega, show 43 + i - 32 - 8 - 3 < 5 by omega]
  congr 1; omega

@[simp] theorem fnOf_formatC : fnOf (formatC opc bus dev fn off data) = fn := by
  apply BitVec.eq_of_getLsbD_eq; intro i hi
  simp only [fnOf, formatC, BitVec.getLsbD_extractLsb', BitVec.getLsbD_append]
  simp [hi, show ¬ 40 + i < 32 by omega, show ¬ 40 + i - 32 < 8 by omega, show 40 + i - 32 - 8 < 3 by omega]
  congr 1; omega

@[simp] theorem offOf_formatC : offOf (formatC opc bus dev fn off data) = off := by
  apply BitVec.eq_of_getLsbD_eq; intro i hi
  simp only [offOf, formatC, BitVec.getLsbD_extractLsb', BitVec.getLsbD_append]
  simp [hi, show ¬ 32 + i < 32 by omega]

@[simp] theorem dataOf_formatC : dataOf (formatC opc bus dev fn off data) = data := by
  apply BitVec.eq_of_getLsbD_eq; intro i hi
  simp only [dataOf, formatC, BitVec.getLsbD_extractLsb', BitVec.getLsbD_append]
  simp [hi]

@[simp] theorem dataHiOf_formatC : dataHiOf (formatC opc bus dev fn off data) = data.extractLsb' 16 16 := by
  apply BitVec.eq_of_getLsbD_eq; intro i hi
  simp only [dataHiOf, formatC, BitVec.getLsbD_extractLsb', BitVec.getLsbD_append]
  simp [hi, show 16 + i < 32 by omega]

@[simp] theorem value16Of_formatC : value16Of (formatC opc bus dev fn off data) = data.extractLsb' 0 16 := by
  apply BitVec.eq_of_getLsbD_eq; intro i hi
  simp only [value16Of, formatC, BitVec.getLsbD_extractLsb', BitVec.getLsbD_append]
  simp [hi, show i < 32 by omega]

@[simp] theorem opcOf_formatF : opcOf (formatF opc) = opc := by
  apply BitVec.eq_of_getLsbD_eq; intro i hi
  simp only [opcOf, formatF, BitVec.getLsbD_extractLsb', BitVec.getLsbD_append]
  simp [hi]

@[simp] theorem formatFZeroOf_formatF : formatFZeroOf (formatF opc) = 0#60 := by
  apply BitVec.eq_of_getLsbD_eq; intro i hi
  simp only [formatFZeroOf, formatF, BitVec.getLsbD_extractLsb', BitVec.getLsbD_append]
  simp [hi]

end Fields

/-- A command word is its fields in format C, put together (R81). -/
theorem formatC_fields (w : CommandWord) (h : rsvOf w = 0#4) :
    formatC (opcOf w) (busOf w) (devOf w) (fnOf w) (offOf w) (dataOf w) = w := by
  apply BitVec.eq_of_getLsbD_eq; intro i hi
  have hr : ∀ k, k < 4 → w.getLsbD (56 + k) = false := by
    intro k hk
    have := congrArg (fun x => x.getLsbD k) h
    simpa [rsvOf, BitVec.getLsbD_extractLsb', hk] using this
  simp only [opcOf, busOf, devOf, fnOf, offOf, dataOf, formatC, BitVec.getLsbD_extractLsb', BitVec.getLsbD_append]
  by_cases h0 : i < 32
  · simp [h0]
  by_cases h1 : i - 32 < 8
  · simp [h0, h1]; congr 1; omega
  by_cases h2 : i - 32 - 8 < 3
  · simp [h0, h1, h2]; congr 1; omega
  by_cases h3 : i - 32 - 8 - 3 < 5
  · simp [h0, h1, h2, h3]; congr 1; omega
  by_cases h4 : i - 32 - 8 - 3 - 5 < 8
  · simp [h0, h1, h2, h3, h4]; congr 1; omega
  by_cases h5 : i - 32 - 8 - 3 - 5 - 8 < 4
  · have := hr (i - 56) (by omega)
    rw [show 56 + (i - 56) = i by omega] at this
    simp [h0, h1, h2, h3, h4, h5, this]
  · simp [h0, h1, h2, h3, h4, h5, show i - 32 - 8 - 3 - 5 - 8 - 4 < 4 by omega]; congr 1; omega

/-- A command word is its fields in format F, put together (R82). -/
theorem formatF_fields (w : CommandWord) (h : formatFZeroOf w = 0#60) : formatF (opcOf w) = w := by
  apply BitVec.eq_of_getLsbD_eq; intro i hi
  have hr : ∀ k, k < 60 → w.getLsbD k = false := by
    intro k hk
    have := congrArg (fun x => x.getLsbD k) h
    simpa [formatFZeroOf, BitVec.getLsbD_extractLsb', hk] using this
  simp only [opcOf, formatF, BitVec.getLsbD_extractLsb', BitVec.getLsbD_append]
  by_cases h0 : i < 60
  · simp [h0, hr i h0]
  · simp [h0, show i - 60 < 4 by omega]; congr 1; omega

/-- The data field is its two halves (R81). -/
theorem dataOf_halves (w : CommandWord) : (dataHiOf w ++ value16Of w : BitVec (16 + 16)) = dataOf w := by
  apply BitVec.eq_of_getLsbD_eq; intro i hi
  simp only [dataHiOf, value16Of, dataOf, BitVec.getLsbD_extractLsb', BitVec.getLsbD_append]
  by_cases h0 : i < 16
  · simp [h0, show i < 32 by omega]
  · simp [h0, show i - 16 < 16 by omega, show i < 32 by omega]; congr 1; omega

namespace Machine

/-! ### The address word -/

section Address

variable (bus : BitVec 8) (dev : BitVec 5) (fn : BitVec 3) (off : BitVec 8)

/-- One bit of the address word. -/
theorem getLsbD_addressWord (i : Nat) (hi : i < 32) :
    (addressWord bus dev fn off).getLsbD i =
      if i < 2 then false else if i < 8 then off.getLsbD i else if i < 11 then fn.getLsbD (i - 8)
      else if i < 16 then dev.getLsbD (i - 11) else if i < 24 then bus.getLsbD (i - 16) else decide (i = 31) := by
  have hb : 8 ≤ i - 16 → bus.getLsbD (i - 16) = false := BitVec.getLsbD_of_ge _ _
  have hd : 5 ≤ i - 11 → dev.getLsbD (i - 11) = false := BitVec.getLsbD_of_ge _ _
  have hf : 3 ≤ i - 8 → fn.getLsbD (i - 8) = false := BitVec.getLsbD_of_ge _ _
  have ho : 8 ≤ i → off.getLsbD i = false := BitVec.getLsbD_of_ge _ _
  have hk : (0x80000000#32).getLsbD i = decide (i = 31) := by
    interval_cases i <;> rfl
  have hm : (0xFC#32).getLsbD i = decide (2 ≤ i ∧ i < 8) := by
    interval_cases i <;> rfl
  unfold addressWord
  simp only [BitVec.getLsbD_or, BitVec.getLsbD_and, BitVec.getLsbD_shiftLeft, BitVec.getLsbD_setWidth, hk, hm]
  by_cases h2 : i < 2
  · simp [h2, show i < 8 by omega, show i < 11 by omega, show i < 16 by omega, show ¬ 2 ≤ i by omega,
      show ¬ i = 31 by omega]
  by_cases h8 : i < 8
  · simp [h2, h8, hi, show i < 11 by omega, show i < 16 by omega, show 2 ≤ i by omega, show ¬ i = 31 by omega]
  by_cases h11 : i < 11
  · simp [h2, h8, hi, h11, show i < 16 by omega, show ¬ i = 31 by omega, show i - 8 < 32 by omega]
  by_cases h16 : i < 16
  · simp [h2, h8, hi, h11, h16, show ¬ i = 31 by omega, show i - 11 < 32 by omega, hf (by omega)]
  by_cases h24 : i < 24
  · simp [h2, h8, hi, h11, h16, h24, show ¬ i = 31 by omega, show i - 16 < 32 by omega, hf (by omega), hd (by omega)]
  · simp [h2, h8, hi, h11, h16, h24, hf (by omega), hd (by omega), hb (by omega)]

@[simp] theorem caEnabled_addressWord : caEnabled (addressWord bus dev fn off) = true := by
  unfold caEnabled; rw [getLsbD_addressWord _ _ _ _ _ (by omega)]; rfl

@[simp] theorem caSelect_addressWord : caSelect (addressWord bus dev fn off) = operandSel bus dev fn off := by
  have e1 : (addressWord bus dev fn off).extractLsb' 16 8 = bus := by
    apply BitVec.eq_of_getLsbD_eq; intro i hi
    rw [BitVec.getLsbD_extractLsb', getLsbD_addressWord _ _ _ _ _ (by omega)]
    simp [hi, show ¬ 16 + i < 2 by omega, show ¬ 16 + i < 8 by omega, show ¬ 16 + i < 11 by omega, show 16 + i < 24 by omega]
  have e2 : (addressWord bus dev fn off).extractLsb' 11 5 = dev := by
    apply BitVec.eq_of_getLsbD_eq; intro i hi
    rw [BitVec.getLsbD_extractLsb', getLsbD_addressWord _ _ _ _ _ (by omega)]
    simp [hi, show ¬ 11 + i < 2 by omega, show ¬ 11 + i < 8 by omega, show 11 + i < 16 by omega]
  have e3 : (addressWord bus dev fn off).extractLsb' 8 3 = fn := by
    apply BitVec.eq_of_getLsbD_eq; intro i hi
    rw [BitVec.getLsbD_extractLsb', getLsbD_addressWord _ _ _ _ _ (by omega)]
    simp [hi, show ¬ 8 + i < 2 by omega, show 8 + i < 11 by omega]
  have e4 : (addressWord bus dev fn off).extractLsb' 2 6 = off.extractLsb' 2 6 := by
    apply BitVec.eq_of_getLsbD_eq; intro i hi
    rw [BitVec.getLsbD_extractLsb', BitVec.getLsbD_extractLsb', getLsbD_addressWord _ _ _ _ _ (by omega)]
    simp [hi, show 2 + i < 8 by omega, show ¬ 2 + i < 2 by omega]
  simp only [caSelect, operandSel, e1, e2, e3, e4]

/-- The register index is unchanged when only the two low offset bits differ (R89). -/
theorem operandSel_congr {off' : BitVec 8} (h : off.extractLsb' 2 6 = off'.extractLsb' 2 6) :
    operandSel bus dev fn off = operandSel bus dev fn off' := by simp [operandSel, h]

/-- The address word is unchanged when only the two low offset bits differ (R89). -/
theorem addressWord_congr {off' : BitVec 8} (h : off.extractLsb' 2 6 = off'.extractLsb' 2 6) :
    addressWord bus dev fn off = addressWord bus dev fn off' := by
  apply BitVec.eq_of_getLsbD_eq; intro i hi
  rw [getLsbD_addressWord _ _ _ _ _ hi, getLsbD_addressWord _ _ _ _ _ hi]
  by_cases h2 : i < 2
  · simp [h2]
  by_cases h8 : i < 8
  · have := congrArg (fun x => x.getLsbD (i - 2)) h
    simp only [BitVec.getLsbD_extractLsb', show i - 2 < 6 by omega, show 2 + (i - 2) = i by omega, decide_true,
      Bool.true_and] at this
    simp only [h2, h8, if_false, if_true, this]
  · simp [h2, h8]

end Address

/-! ### The lane -/

theorem laneShift_eq (off : BitVec 8) : laneShift off = if off.getLsbD 1 then 16 else 0 := by
  revert off; decide

theorem laneMask_eq (off : BitVec 8) : laneMask off = if off.getLsbD 1 then 0xFFFF0000#32 else 0x0000FFFF#32 := by
  rw [laneMask, laneShift_eq]; cases off.getLsbD 1 <;> rfl

theorem laneRead_eq (d : Dword) (off : BitVec 8) :
    laneRead d off = if off.getLsbD 1 then d.extractLsb' 16 16 else d.extractLsb' 0 16 := by
  rw [laneRead, laneShift_eq]
  cases off.getLsbD 1
  · simp
  · apply BitVec.eq_of_getLsbD_eq; intro i hi
    simp [hi]

/-- The dword a write forms is the new lane beside the old one (R116). -/
theorem laneMerge_eq (d : Dword) (off : BitVec 8) (v : Half) :
    laneMerge d off v =
      if off.getLsbD 1 then (v ++ d.extractLsb' 0 16 : BitVec (16 + 16))
      else (d.extractLsb' 16 16 ++ v : BitVec (16 + 16)) := by
  rw [laneMerge, laneMask_eq, laneShift_eq]
  have hlo : ∀ i, i < 32 → (0x0000FFFF#32).getLsbD i = decide (i < 16) := by
    intro i hi; interval_cases i <;> rfl
  have hhi : ∀ i, i < 32 → (0xFFFF0000#32).getLsbD i = decide (16 ≤ i) := by
    intro i hi; interval_cases i <;> rfl
  cases off.getLsbD 1
  · apply BitVec.eq_of_getLsbD_eq; intro i hi
    simp only [Bool.false_eq_true, if_false, BitVec.getLsbD_or, BitVec.getLsbD_and, BitVec.getLsbD_not, hlo i hi,
      BitVec.getLsbD_shiftLeft, BitVec.getLsbD_setWidth, BitVec.getLsbD_append, BitVec.getLsbD_extractLsb']
    by_cases h : i < 16
    · simp [h, hi]
    · simp [h, hi, show i - 16 < 16 by omega, show 16 + (i - 16) = i by omega, BitVec.getLsbD_of_ge v i (by omega)]
  · apply BitVec.eq_of_getLsbD_eq; intro i hi
    simp only [if_true, BitVec.getLsbD_or, BitVec.getLsbD_and, BitVec.getLsbD_not, hhi i hi,
      BitVec.getLsbD_shiftLeft, BitVec.getLsbD_setWidth, BitVec.getLsbD_append, BitVec.getLsbD_extractLsb']
    by_cases h : i < 16
    · simp [h, hi, show ¬ 16 ≤ i by omega]
    · simp [h, hi, show 16 ≤ i by omega, show i - 16 < 32 by omega]

/-- The 16-bit value of `WRITE_WORD` comes back out of the 32-bit latch. -/
@[simp] theorem value_of_latch (v : Half) : (v.setWidth 32).extractLsb' 0 16 = v := by
  apply BitVec.eq_of_getLsbD_eq; intro i hi
  simp [hi, show i < 32 by omega]

end Machine

end Sys2Proof
end

