-- ==== Sys2Proof/Laws/Access.lean ====
section
/-! SUPPORT. The sequencer of unit CSA: one lemma for each phase of each operation, for a gap with nothing in it, and the
inversion of a port cycle ("if it answers a next state, it is one of these"). -/

namespace Sys2Proof.Machine

variable {s : State}

/-! ### Gaps with nothing in them -/

/-- Nothing falls into the next gap. -/
theorem passGap_quiet (h : ∀ g ∈ s.gaps.take 1, g = []) :
    passGap s = .next { s with gaps := s.gaps.drop 1 } := by
  unfold passGap
  split
  · rename_i hg
    cases s; simp_all
  · rename_i g gs hg
    have : g = [] := h g (by simp [hg])
    subst this
    simp [applyInputs, hg]

/-- A quiet step of the sequencer is its port cycle. -/
theorem tick_quiet (hp : s.ph ≠ .idle) (h : ∀ g ∈ s.gaps.take 1, g = []) :
    tick s = portCycle { s with gaps := s.gaps.drop 1 } := by
  rw [tick, if_neg hp, passGap_quiet h, andThen_next]

theorem tick_idle (hp : s.ph = .idle) : tick s = .next s := by rw [tick, if_pos hp]

/-- An idle unit performs no port cycle and takes no gap. -/
theorem runTicks_idle (n : Nat) (hp : s.ph = .idle) : runTicks n s = .next s := by
  induction n with
  | zero => rfl
  | succ n ih => rw [runTicks, tick_idle hp, andThen_next, ih]

theorem waitIdle_idle (hp : s.ph = .idle) : waitIdle s = .next s := runTicks_idle _ hp

/-- A command issued to an idle unit, where it leaves the unit idle, is the operation. -/
theorem issue_idle {i : Instr} {t : State} (hp : s.ph = .idle) (h : exec i s = .next t) (ht : t.ph = .idle) :
    issue i s = .next t := by
  rw [issue, waitIdle_idle hp, andThen_next, h, andThen_next, waitIdle_idle ht]

theorem take_one_of_take {l : List (List Input)} {n : Nat} (hn : 1 ≤ n) (h : ∀ g ∈ l.take n, g = []) :
    ∀ g ∈ l.take 1, g = [] := fun g hg =>
  h g (List.take_subset_take_left l hn hg)

theorem take_drop_of_take {l : List (List Input)} {n m k : Nat} (hn : m + k ≤ n) (h : ∀ g ∈ l.take n, g = []) :
    ∀ g ∈ (l.drop m).take k, g = [] := by
  intro g hg
  rw [List.take_drop] at hg
  exact h g (List.take_subset_take_left l hn (List.mem_of_mem_drop hg))

/-! ### The phases -/

theorem portCycle_addr {p : Phase} (hp : s.ph = .addr) (ho : afterAddr s.op = some p) :
    portCycle s = .next { portWriteAddr .csa s.addressWord s with ph := p } := by
  simp [portCycle, hp, addrPhase, ho]

theorem portCycle_dread_readDword (hp : s.ph = .dread) (ho : s.op = opReadDword) :
    portCycle s = .next (setStatus .csa .ok { portReadData .csa s with rd := dataPortValue s, ph := .idle }) := by
  simp [portCycle, hp, dreadPhase, ho]

theorem portCycle_dread_readWord (hp : s.ph = .dread) (ho : s.op = opReadWord) :
    portCycle s = .next (setStatus .csa .ok
      { portReadData .csa s with rd := (laneRead (dataPortValue s) s.off).setWidth 32, ph := .idle }) := by
  simp [portCycle, hp, dreadPhase, ho, opReadWord, opReadDword]

theorem portCycle_dread_writeWord (hp : s.ph = .dread) (ho : s.op = opWriteWord) :
    portCycle s = .next { portReadData .csa s with tmp := dataPortValue s, ph := .dwrite } := by
  simp [portCycle, hp, dreadPhase, ho, opReadWord, opReadDword, opWriteWord]

theorem portCycle_dwrite {v : Dword} (hp : s.ph = .dwrite) (hv : writeValue s = some v) (hc : caEnabled s.ca = true) :
    portCycle s = .next (setStatus .csa .ok
      { recordCycle .csa (.dw v) (cfgWrite (caSelect s.ca) v s) with ph := .idle }) := by
  simp [portCycle, hp, dwritePhase, hv, portWriteData, hc]

theorem portCycle_dwrite_disabled {v : Dword} (hp : s.ph = .dwrite) (hv : writeValue s = some v)
    (hc : caEnabled s.ca = false) : portCycle s = .refused .dataWriteWhileDisabled := by
  simp [portCycle, hp, dwritePhase, hv, portWriteData, hc]

@[simp] theorem afterAddr_readWord : afterAddr opReadWord = some .dread := rfl
@[simp] theorem afterAddr_writeWord : afterAddr opWriteWord = some .dread := rfl
@[simp] theorem afterAddr_readDword : afterAddr opReadDword = some .dread := rfl
@[simp] theorem afterAddr_writeDword : afterAddr opWriteDword = some .dwrite := rfl

theorem writeValue_writeDword (ho : s.op = opWriteDword) : writeValue s = some s.wd := by
  simp [writeValue, ho]

theorem writeValue_writeWord (ho : s.op = opWriteWord) :
    writeValue s = some (laneMerge s.tmp s.off (s.wd.extractLsb' 0 16)) := by
  simp [writeValue, ho, opWriteWord, opWriteDword]

/-- Everything a port cycle can do: what it leaves when it answers a next state. -/
theorem portCycle_cases {t : State} (h : portCycle s = .next t) :
    (s.ph = .idle ∧ t = s) ∨
    (∃ p, s.ph = .addr ∧ afterAddr s.op = some p ∧ t = { portWriteAddr .csa s.addressWord s with ph := p }) ∨
    (s.ph = .dread ∧ s.op = opReadDword ∧
      t = setStatus .csa .ok { portReadData .csa s with rd := dataPortValue s, ph := .idle }) ∨
    (s.ph = .dread ∧ s.op = opReadWord ∧ t = setStatus .csa .ok
      { portReadData .csa s with rd := (laneRead (dataPortValue s) s.off).setWidth 32, ph := .idle }) ∨
    (s.ph = .dread ∧ s.op = opWriteWord ∧ t = { portReadData .csa s with tmp := dataPortValue s, ph := .dwrite }) ∨
    (∃ v, s.ph = .dwrite ∧ writeValue s = some v ∧ caEnabled s.ca = true ∧ t = setStatus .csa .ok
      { recordCycle .csa (.dw v) (cfgWrite (caSelect s.ca) v s) with ph := .idle }) := by
  unfold portCycle at h
  cases hp : s.ph with
  | idle => rw [hp] at h; left; cases h; exact ⟨rfl, rfl⟩
  | addr =>
    rw [hp] at h; right; left
    simp only [addrPhase] at h
    split at h
    · rename_i p ho; cases h; exact ⟨p, rfl, ho, rfl⟩
    · cases h
  | dread =>
    rw [hp] at h; right; right
    simp only [dreadPhase, completeOk_eq] at h
    split at h
    · rename_i ho; cases h; exact .inl ⟨rfl, ho, rfl⟩
    · split at h
      · rename_i ho; cases h; exact .inr (.inl ⟨rfl, ho, rfl⟩)
      · split at h
        · rename_i ho; cases h; exact .inr (.inr (.inl ⟨rfl, ho, rfl⟩))
        · cases h
  | dwrite =>
    rw [hp] at h; right; right; right; right; right
    simp only [dwritePhase] at h
    split at h
    · rename_i v hv
      rw [andThen_eq_next] at h
      obtain ⟨u, hu, ht⟩ := h
      unfold portWriteData at hu
      split at hu
      · rename_i hc; cases hu; cases ht; exact ⟨v, rfl, hv, hc, rfl⟩
      · cases hu
    · cases h

/-! ### The target -/

/-- Under `RamTarget` a present function's register reads as the store holds it. -/
theorem cfgRead_ram {r : CfgSel} (ht : s.target = .ram) (hr : r.bdf ∈ s.present) :
    cfgRead r s = read32 s.cs (cfgBase r) := by
  simp [cfgRead, targetAnswer, ht, hr]

/-- Under `RamTarget` an absent function reads as `P_ABSENT` (R56). -/
theorem cfgRead_ram_absent {r : CfgSel} (ht : s.target = .ram) (hr : r.bdf ∉ s.present) : cfgRead r s = s.absent := by
  simp [cfgRead, targetAnswer, ht, hr]

/-- What the target answers depends on the target's state alone. -/
theorem cfgRead_congr {t : State} (r : CfgSel) (h1 : t.target = s.target) (h2 : t.present = s.present)
    (h3 : t.cs = s.cs) (h4 : t.cfgWrites = s.cfgWrites) (h5 : t.free = s.free) (h6 : t.absent = s.absent) :
    cfgRead r t = cfgRead r s := by
  simp only [cfgRead, targetAnswer, h1, h2, h3, h4, h5, h6]

theorem storeTakes_ram {r : CfgSel} (ht : s.target = .ram) (hr : r.bdf ∈ s.present) : storeTakes r s = true := by
  simp [storeTakes, ht, hr]

theorem storeTakes_absent {r : CfgSel} (hr : r.bdf ∉ s.present) : storeTakes r s = false := by
  simp [storeTakes, hr]

/-- While the address register is enabled, the data port returns the selected register (R53). -/
theorem dataPortValue_enabled (hc : caEnabled s.ca = true) : dataPortValue s = cfgRead (caSelect s.ca) s := by
  simp [dataPortValue, hc]

/-! ### A gap with one step of another agent in it -/

/-- Another agent writes the address port before the port cycle (R203). -/
theorem tick_after_addressWrite {x : Dword} {gs : List (List Input)} (hp : s.ph ≠ .idle)
    (hg : s.gaps = [.agent (.portWrite s.addrPort x)] :: gs) :
    tick s = portCycle { s with ca := x, trace := s.trace ++ [⟨.other, .aw x⟩], gaps := gs } := by
  simp [tick, hp, passGap, hg, applyInputs, applyInput, agentStep, portAt, portWriteAddr, recordCycle]

/-- A device changes a register of `RamTarget` before the port cycle (R204). -/
theorem tick_after_csChange {r : CfgSel} {x : Dword} {gs : List (List Input)} (hp : s.ph ≠ .idle)
    (ht : s.target = .ram) (hg : s.gaps = [.agent (.csChange r x)] :: gs) :
    tick s = portCycle { s with cs := write32 (cfgBase r) x s.cs, gaps := gs } := by
  simp [tick, hp, passGap, hg, applyInputs, applyInput, agentStep, csChange, ht]

/-- A reset before the port cycle abandons the operation (R200). -/
theorem tick_after_reset {gs : List (List Input)} (hp : s.ph ≠ .idle) (hg : s.gaps = [.reset] :: gs) :
    tick s = .next (applyReset { s with gaps := gs }) := by
  rw [tick, if_neg hp]
  simp only [passGap, hg, applyInputs, applyInput, andThen_next]
  rfl

/-- The cycle of the address phase: the first step of every operation. -/
theorem tick_accept {op : BitVec 4} {bus : BitVec 8} {dev : BitVec 5} {fn : BitVec 3} {off : BitVec 8} {wd : Dword}
    {p : Phase} (ho : afterAddr op = some p) (h : ∀ g ∈ s.gaps.take 1, g = []) :
    tick (accept op bus dev fn off wd s) = .next
      { s with
        op := op, bus := bus, dev := dev, fn := fn, off := off, wd := wd, ph := p
        ca := addressWord bus dev fn off
        trace := s.trace ++ [⟨.csa, .aw (addressWord bus dev fn off)⟩]
        gaps := s.gaps.drop 1 } := by
  rw [tick_quiet (by simp) (by simpa using h), portCycle_addr (p := p) (by simp) (by simpa using ho)]
  rfl

end Sys2Proof.Machine
end

