-- ==== Sys2Proof/Laws/Decode.lean ====
section
/-! SUPPORT. The decoder: everything it can answer, and the opcode table's rows as conditions on the fields of a word. -/

namespace Sys2Proof

theorem ite_instr_eq {c : Prop} [Decidable c] {a b : Instr} {e : IllegalWord} :
    (if c then Decoded.instr a else .illegal e) = .instr b ↔ c ∧ a = b := by
  split <;> simp [*]

/-- Everything the decoder can accept: the operation, and the fields it found (R81 to R83). -/
theorem decode_cases {w : CommandWord} {i : Instr} (h : decode w = .instr i) :
    (opcOf w = 1#4 ∧ rsvOf w = 0#4 ∧ dataOf w = 0#32 ∧ i = .readWord (busOf w) (devOf w) (fnOf w) (offOf w)) ∨
    (opcOf w = 2#4 ∧ rsvOf w = 0#4 ∧ dataHiOf w = 0#16 ∧
      i = .writeWord (busOf w) (devOf w) (fnOf w) (offOf w) (value16Of w)) ∨
    (opcOf w = 3#4 ∧ rsvOf w = 0#4 ∧ dataOf w = 0#32 ∧ i = .readDword (busOf w) (devOf w) (fnOf w) (offOf w)) ∨
    (opcOf w = 4#4 ∧ rsvOf w = 0#4 ∧ i = .writeDword (busOf w) (devOf w) (fnOf w) (offOf w) (dataOf w)) ∨
    (opcOf w = 8#4 ∧ formatFZeroOf w = 0#60 ∧ i = .toBytes) ∨
    (opcOf w = 9#4 ∧ formatFZeroOf w = 0#60 ∧ i = .fromBytes) := by
  unfold decode at h
  simp only at h
  split at h
  · rename_i ho; rw [ite_instr_eq] at h; exact .inl ⟨ho, h.1.1, h.1.2, h.2.symm⟩
  split at h
  · rename_i ho; rw [ite_instr_eq] at h; exact .inr (.inl ⟨ho, h.1.1, h.1.2, h.2.symm⟩)
  split at h
  · rename_i ho; rw [ite_instr_eq] at h; exact .inr (.inr (.inl ⟨ho, h.1.1, h.1.2, h.2.symm⟩))
  split at h
  · rename_i ho; rw [ite_instr_eq] at h; exact .inr (.inr (.inr (.inl ⟨ho, h.1, h.2.symm⟩)))
  split at h
  · rename_i ho; rw [ite_instr_eq] at h; exact .inr (.inr (.inr (.inr (.inl ⟨ho, h.1, h.2.symm⟩))))
  split at h
  · rename_i ho; rw [ite_instr_eq] at h; exact .inr (.inr (.inr (.inr (.inr ⟨ho, h.1, h.2.symm⟩))))
  cases h

section Fields

variable {w : CommandWord}

theorem decode_readWord (ho : opcOf w = 1#4) (hr : rsvOf w = 0#4) (hd : dataOf w = 0#32) :
    decode w = .instr (.readWord (busOf w) (devOf w) (fnOf w) (offOf w)) := by simp [decode, ho, hr, hd]

theorem decode_writeWord (ho : opcOf w = 2#4) (hr : rsvOf w = 0#4) (hd : dataHiOf w = 0#16) :
    decode w = .instr (.writeWord (busOf w) (devOf w) (fnOf w) (offOf w) (value16Of w)) := by
  simp [decode, ho, hr, hd]

theorem decode_readDword (ho : opcOf w = 3#4) (hr : rsvOf w = 0#4) (hd : dataOf w = 0#32) :
    decode w = .instr (.readDword (busOf w) (devOf w) (fnOf w) (offOf w)) := by simp [decode, ho, hr, hd]

theorem decode_writeDword (ho : opcOf w = 4#4) (hr : rsvOf w = 0#4) :
    decode w = .instr (.writeDword (busOf w) (devOf w) (fnOf w) (offOf w) (dataOf w)) := by simp [decode, ho, hr]

theorem decode_toBytes (ho : opcOf w = 8#4) (hz : formatFZeroOf w = 0#60) : decode w = .instr .toBytes := by
  simp [decode, ho, hz]

theorem decode_fromBytes (ho : opcOf w = 9#4) (hz : formatFZeroOf w = 0#60) : decode w = .instr .fromBytes := by
  simp [decode, ho, hz]

end Fields

/-! ### The data field of `WRITE_WORD` -/

@[simp] theorem upper_half_zero (v : Half) : (0#16 ++ v : BitVec (16 + 16)).extractLsb' 16 16 = 0#16 := by
  apply BitVec.eq_of_getLsbD_eq
  intro i hi
  rw [BitVec.getLsbD_extractLsb', BitVec.getLsbD_append]; simp [hi]

@[simp] theorem lower_half_value (v : Half) : (0#16 ++ v : BitVec (16 + 16)).extractLsb' 0 16 = v := by
  apply BitVec.eq_of_getLsbD_eq
  intro i hi
  rw [BitVec.getLsbD_extractLsb', BitVec.getLsbD_append]; simp [hi]

/-! ### Match and mask -/

theorem extract_and (w m : CommandWord) (a b : Nat) :
    (w &&& m).extractLsb' a b = w.extractLsb' a b &&& m.extractLsb' a b := by
  apply BitVec.eq_of_getLsbD_eq; intro i hi
  simp [BitVec.getLsbD_extractLsb']; cases decide (i < b) <;> simp

/-- A field the mask covers has the pattern's value in every word that selects the row. -/
theorem field_of_selects {w k m : CommandWord} {name : String} (a b : Nat)
    (h : (TableRow.mk name k m).selects w = true) (hm : m.extractLsb' a b = BitVec.allOnes b) :
    w.extractLsb' a b = k.extractLsb' a b := by
  simp only [TableRow.selects, beq_iff_eq] at h
  rw [← h, extract_and, hm, BitVec.and_allOnes]

theorem selects_of_bits {w k m : CommandWord} {name : String}
    (h : ∀ i, i < 64 → (w.getLsbD i && m.getLsbD i) = k.getLsbD i) : (TableRow.mk name k m).selects w = true := by
  simp only [TableRow.selects, beq_iff_eq]
  apply BitVec.eq_of_getLsbD_eq; intro i hi
  rw [BitVec.getLsbD_and]; exact h i hi

theorem rowReadWord_selects (w : CommandWord) :
    rowReadWord.selects w = true ↔ opcOf w = 1#4 ∧ rsvOf w = 0#4 ∧ dataOf w = 0#32 := by
  constructor
  · intro h
    exact ⟨field_of_selects 60 4 h (by decide), field_of_selects 56 4 h (by decide), field_of_selects 0 32 h (by decide)⟩
  · rintro ⟨h1, h2, h3⟩
    rw [← formatC_fields w h2, h1, h3]
    generalize busOf w = b; generalize devOf w = d; generalize fnOf w = f; generalize offOf w = o
    apply selects_of_bits; intro i hi
    interval_cases i <;> first | rfl | (simp only [formatC, BitVec.getLsbD_append]; simp)

theorem rowWriteWord_selects (w : CommandWord) :
    rowWriteWord.selects w = true ↔ opcOf w = 2#4 ∧ rsvOf w = 0#4 ∧ dataHiOf w = 0#16 := by
  constructor
  · intro h
    exact ⟨field_of_selects 60 4 h (by decide), field_of_selects 56 4 h (by decide), field_of_selects 16 16 h (by decide)⟩
  · rintro ⟨h1, h2, h3⟩
    rw [← formatC_fields w h2, h1, ← dataOf_halves, h3]
    generalize busOf w = b; generalize devOf w = d; generalize fnOf w = f; generalize offOf w = o
    generalize value16Of w = v
    apply selects_of_bits; intro i hi
    interval_cases i <;> first | rfl | (simp only [formatC, BitVec.getLsbD_append]; simp)

theorem rowReadDword_selects (w : CommandWord) :
    rowReadDword.selects w = true ↔ opcOf w = 3#4 ∧ rsvOf w = 0#4 ∧ dataOf w = 0#32 := by
  constructor
  · intro h
    exact ⟨field_of_selects 60 4 h (by decide), field_of_selects 56 4 h (by decide), field_of_selects 0 32 h (by decide)⟩
  · rintro ⟨h1, h2, h3⟩
    rw [← formatC_fields w h2, h1, h3]
    generalize busOf w = b; generalize devOf w = d; generalize fnOf w = f; generalize offOf w = o
    apply selects_of_bits; intro i hi
    interval_cases i <;> first | rfl | (simp only [formatC, BitVec.getLsbD_append]; simp)

theorem rowWriteDword_selects (w : CommandWord) :
    rowWriteDword.selects w = true ↔ opcOf w = 4#4 ∧ rsvOf w = 0#4 := by
  constructor
  · intro h
    exact ⟨field_of_selects 60 4 h (by decide), field_of_selects 56 4 h (by decide)⟩
  · rintro ⟨h1, h2⟩
    rw [← formatC_fields w h2, h1]
    generalize busOf w = b; generalize devOf w = d; generalize fnOf w = f; generalize offOf w = o
    generalize dataOf w = v
    apply selects_of_bits; intro i hi
    interval_cases i <;> first | rfl | (simp only [formatC, BitVec.getLsbD_append]; simp)

theorem rowToBytes_selects (w : CommandWord) :
    rowToBytes.selects w = true ↔ opcOf w = 8#4 ∧ formatFZeroOf w = 0#60 := by
  constructor
  · intro h
    exact ⟨field_of_selects 60 4 h (by decide), field_of_selects 0 60 h (by decide)⟩
  · rintro ⟨h1, h2⟩
    rw [← formatF_fields w h2, h1]; decide

theorem rowFromBytes_selects (w : CommandWord) :
    rowFromBytes.selects w = true ↔ opcOf w = 9#4 ∧ formatFZeroOf w = 0#60 := by
  constructor
  · intro h
    exact ⟨field_of_selects 60 4 h (by decide), field_of_selects 0 60 h (by decide)⟩
  · rintro ⟨h1, h2⟩
    rw [← formatF_fields w h2, h1]; decide

namespace Machine

/-- What refusing a word leaves: the code in the status register of the unit bit 63 names. -/
theorem refuseWord_eq (w : CommandWord) (s : State) :
    refuseWord w s =
      if w.getLsbD 63 then { s with fcSt := .illegalCommand } else { s with csaSt := .illegalCommand } := by
  unfold refuseWord routedUnit
  by_cases h : routesToFc w = true
  · rw [if_pos h, if_pos (show w.getLsbD 63 = true from h)]; rfl
  · rw [if_neg h, if_neg (show ¬ w.getLsbD 63 = true from h)]; rfl

end Machine

end Sys2Proof
end

