-- ==== Sys2Proof/Laws/Frame.lean ====
section
/-! SUPPORT. The frame codec: what the frame buffer, the payload array and a frame's bytes read as, and everything the
decoder and the two operations of unit FC can do. -/

namespace Sys2Proof.Machine

variable {s : State}

/-! ### The buffer and the payload as lists -/

@[simp] theorem buffer_length : s.buffer.length = s.blen.toNat := by simp [State.buffer]

theorem byteAt_buffer {i : Nat} (h : i < s.blen.toNat) : byteAt s.buffer i = s.fbByte i := by
  simp [byteAt, State.buffer, List.getD_eq_getElem?_getD, h]

@[simp] theorem frame_payload_length : s.frame.payload.length = s.fPcnt.toNat := by simp [State.frame]

theorem frame_payload_getD {i : Nat} (h : i < s.fPcnt.toNat) : s.frame.payload.getD i 0#8 = s.payByte i := by
  simp [State.frame, List.getD_eq_getElem?_getD, h]

theorem frame_wellFormed (h : s.FrameOk) : s.frame.WellFormed := by
  rw [State.FrameOk] at h
  exact ⟨by simp only [frame_payload_length]; exact h.1, h.2⟩

/-! ### A frame's bytes (R90) -/

/-- The header before the payload: 22 bytes. -/
theorem headerAndPayload_eq (f : Frame) :
    f.headerAndPayload = ([0xAA, 0xAA, 0xAA, 0xAA, 0xAA, 0xAA, 0xAA, 0xAB,
      f.dst[0], f.dst[1], f.dst[2], f.dst[3], f.dst[4], f.dst[5],
      f.src[0], f.src[1], f.src[2], f.src[3], f.src[4], f.src[5],
      f.len.extractLsb' 8 8, f.len.extractLsb' 0 8] : List Byte) ++ f.payload := by
  have h6 : ∀ v : Vector Byte 6, v.toList = [v[0], v[1], v[2], v[3], v[4], v[5]] := by
    intro v
    apply List.ext_getElem (by simp)
    intro i h1 h2
    have : i < 6 := by simpa using h1
    rcases (by omega : i = 0 ∨ i = 1 ∨ i = 2 ∨ i = 3 ∨ i = 4 ∨ i = 5) with rfl | rfl | rfl | rfl | rfl | rfl <;> simp
  simp [Frame.headerAndPayload, h6, Config.preambleLen, Config.preamble, Config.sfd, List.replicate]

theorem headerAndPayload_length (f : Frame) : f.headerAndPayload.length = 22 + f.payload.length := by
  rw [headerAndPayload_eq]; simp; omega

/-- A byte of the frame at or above index 22 is a payload byte. -/
theorem headerAndPayload_getD_payload (f : Frame) (i : Nat) :
    f.headerAndPayload.getD (22 + i) 0#8 = f.payload.getD i 0#8 := by
  rw [headerAndPayload_eq, List.getD_append_right _ _ _ _ (by simp)]
  simp

/-- A byte of the frame below index 22 is a header byte. -/
theorem headerAndPayload_getD_header (f : Frame) (i : Nat) (h : i < 22) :
    f.headerAndPayload.getD i 0#8 = ([0xAA, 0xAA, 0xAA, 0xAA, 0xAA, 0xAA, 0xAA, 0xAB,
      f.dst[0], f.dst[1], f.dst[2], f.dst[3], f.dst[4], f.dst[5],
      f.src[0], f.src[1], f.src[2], f.src[3], f.src[4], f.src[5],
      f.len.extractLsb' 8 8, f.len.extractLsb' 0 8] : List Byte).getD i 0#8 := by
  rw [headerAndPayload_eq, List.getD_append _ _ _ _ (by simpa using h)]

/-- A 16-bit number is its two bytes (R91). -/
theorem half_bytes (v : Half) : (v.extractLsb' 8 8).toNat * 256 + (v.extractLsb' 0 8).toNat = v.toNat := by
  simp only [BitVec.extractLsb'_toNat, Nat.shiftRight_zero]
  have := v.isLt
  rw [Nat.shiftRight_eq_div_pow]
  omega

/-- The length field never exceeds 16 bits. -/
theorem lengthField_lt (bs : List Byte) : lengthField bs < 65536 := by
  have h1 := (byteAt bs 20).isLt
  have h2 := (byteAt bs 21).isLt
  unfold lengthField; omega

/-! ### The decoder -/

/-- A bad preamble: a byte other than `0xAA` among the first `min(7, n)` (R172). -/
theorem badPreamble_iff (bs : List Byte) :
    badPreamble bs = true ↔ ∃ i, i < min 7 bs.length ∧ byteAt bs i ≠ Config.preamble := by
  simp only [badPreamble, List.any_eq_true, bne_iff_ne, ne_eq, Config.preambleLen]
  constructor
  · rintro ⟨x, hx, hne⟩
    obtain ⟨i, hi, rfl⟩ := List.getElem_of_mem hx
    have hl : i < min 7 bs.length := by simpa using hi
    refine ⟨i, hl, ?_⟩
    have : i < bs.length := by omega
    simpa [byteAt, List.getD_eq_getElem?_getD, this] using hne
  · rintro ⟨i, hi, hne⟩
    have : i < bs.length := by omega
    refine ⟨bs[i], ?_, by simpa [byteAt, List.getD_eq_getElem?_getD, this] using hne⟩
    have : (bs.take 7)[i]'(by simpa using hi) = bs[i] := by simp
    rw [← this]; exact List.getElem_mem _

/-- Everything the decoder can answer, and when (R142). -/
theorem decodeFrame_cases (bs : List Byte) :
    (badPreamble bs = true ∧ decodeFrame bs = .fails .noStart) ∨
    (badPreamble bs = false ∧ (bs.length < 22 ∨ 1454 < lengthField bs ∨ bs.length < 22 + lengthField bs) ∧
      decodeFrame bs = .fails .invalidPacket) ∨
    (badPreamble bs = false ∧ 22 ≤ bs.length ∧ lengthField bs ≤ 1454 ∧ 22 + lengthField bs ≤ bs.length ∧
      decodeFrame bs = .frame
        { dst := sixBytes bs 8, src := sixBytes bs 14, len := BitVec.ofNat 16 (lengthField bs)
          payload := (bs.drop 22).take (lengthField bs) }) := by
  have m : Config.minLen = 14 := rfl
  have l : Config.hdrLen = 22 := rfl
  have p : Config.payloadMax = 1454 := rfl
  unfold decodeFrame
  split
  · rename_i h1; exact .inl ⟨h1, rfl⟩
  rename_i h1
  have hb : badPreamble bs = false := by simpa using h1
  right
  split
  · exact .inl ⟨hb, by omega, rfl⟩
  split
  · exact .inl ⟨hb, by omega, rfl⟩
  split
  · exact .inl ⟨hb, by omega, rfl⟩
  split
  · exact .inl ⟨hb, by omega, rfl⟩
  · exact .inr ⟨hb, by omega, by omega, by omega, rfl⟩

theorem decodeFrame_badPreamble {bs : List Byte} (h : badPreamble bs = true) : decodeFrame bs = .fails .noStart :=
  if_pos h

theorem decodeFrame_short {bs : List Byte} (h : badPreamble bs = false)
    (hl : bs.length < 22 ∨ 1454 < lengthField bs ∨ bs.length < 22 + lengthField bs) :
    decodeFrame bs = .fails .invalidPacket := by
  rcases decodeFrame_cases bs with ⟨h1, -⟩ | ⟨-, -, h1⟩ | ⟨-, h1, h2, h3, -⟩
  · rw [h] at h1; cases h1
  · exact h1
  · omega

theorem decodeFrame_ok {bs : List Byte} (h : badPreamble bs = false) (h1 : lengthField bs ≤ 1454)
    (h2 : 22 + lengthField bs ≤ bs.length) :
    decodeFrame bs = .frame
      { dst := sixBytes bs 8, src := sixBytes bs 14, len := BitVec.ofNat 16 (lengthField bs)
        payload := (bs.drop 22).take (lengthField bs) } := by
  rcases decodeFrame_cases bs with ⟨h3, -⟩ | ⟨-, h3, -⟩ | ⟨-, -, -, -, h3⟩
  · rw [h] at h3; cases h3
  · omega
  · exact h3

/-- The decoder answers two codes only. -/
theorem decodeFrame_fails {bs : List Byte} {c : Status} (h : decodeFrame bs = .fails c) :
    c = .noStart ∨ c = .invalidPacket := by
  rcases decodeFrame_cases bs with ⟨-, h1⟩ | ⟨-, -, h1⟩ | ⟨-, -, -, -, h1⟩ <;> rw [h1] at h <;> cases h <;> simp

/-- Every frame the decoder produces is well formed (R29). -/
theorem decodeFrame_wellFormed {bs : List Byte} {f : Frame} (h : decodeFrame bs = .frame f) : f.WellFormed := by
  rcases decodeFrame_cases bs with ⟨-, h1⟩ | ⟨-, -, h1⟩ | ⟨-, -, h2, h3, h1⟩ <;> rw [h1] at h <;> cases h
  have e : (BitVec.ofNat 16 (lengthField bs)).toNat = lengthField bs := by
    rw [BitVec.toNat_ofNat]; exact Nat.mod_eq_of_lt (lengthField_lt bs)
  refine ⟨?_, by rw [e]; exact h2⟩
  show (BitVec.ofNat 16 (lengthField bs)).toNat = _
  rw [e]; simp; omega

/-! ### The operations -/

theorem execToBytes_refused (h : ¬ s.FrameOk) : execToBytes s = .next (setStatus .fc .encodeRefused s) := if_neg h

theorem execToBytes_ok (h : s.FrameOk) : execToBytes s = .next (setStatus .fc .ok
    { s with fb := Memory.ofBytes zeroDflt 0 s.frame.headerAndPayload, blen := 1504#11 }) := if_pos h

theorem execFromBytes_frame {f : Frame} (h : decodeFrame s.buffer = .frame f) :
    execFromBytes s = .next (setStatus .fc .ok (loadFrame f s)) := by simp [execFromBytes, h]

theorem execFromBytes_fails {c : Status} (h : decodeFrame s.buffer = .fails c) :
    execFromBytes s = .next (setStatus .fc c s) := by simp [execFromBytes, h]

/-- A byte of the buffer `TO_BYTES` writes. -/
theorem fbByte_ofBytes (bs : List Byte) (i : Nat) :
    State.fbByte { s with fb := Memory.ofBytes zeroDflt 0 bs } i = bs.getD i 0#8 := read_ofBytes_zero bs i

/-- A payload byte of the frame `FROM_BYTES` loads. -/
theorem payByte_loadFrame {f : Frame} {i : Nat} (h : i < f.payload.length) :
    (loadFrame f s).payByte i = f.payload[i] := by
  simp [State.payByte, find_ofBytes_none, h]

/-- The frame in the registers after a load is the frame loaded. -/
theorem frame_loadFrame {f : Frame} (h : f.WellFormed) : (loadFrame f s).frame = f := by
  have hp : f.payload.length < 2048 := by have := h.1; have := h.2; simp only [Config.payloadMax] at *; omega
  have e : (BitVec.ofNat 11 f.payload.length).toNat = f.payload.length := by
    rw [BitVec.toNat_ofNat]; exact Nat.mod_eq_of_lt hp
  cases f with
  | mk d r l p =>
    simp only [State.frame, loadFrame_fDst, loadFrame_fSrc, loadFrame_fLen, loadFrame_fPcnt, Frame.mk.injEq,
      true_and]
    simp only at e
    apply List.ext_getElem
    · simp [e]
    · intro i h1 h2
      rw [List.getElem_map, List.getElem_range, payByte_loadFrame h2]

/-- A loaded frame that is well formed is well formed in the registers. -/
theorem frameOk_loadFrame {f : Frame} (h : f.WellFormed) : (loadFrame f s).FrameOk := by
  have h1 := h.1
  have h2 := h.2
  refine ⟨?_, h2⟩
  rw [loadFrame_fLen, loadFrame_fPcnt, BitVec.toNat_ofNat, ← h1]
  exact (Nat.mod_eq_of_lt (by simp only [Config.payloadMax] at h2; omega)).symm

end Sys2Proof.Machine
end

