-- ==== Sys2Proof/Laws/Invariant.lean ====
section
/-! SUPPORT. What the shared operations keep: for each, one lemma that says every result it can have is a next state that
meets the invariant, or the one refusal. -/

namespace Sys2Proof.Machine

variable {s : State}

/-- Every next state meets `P`, nothing faults, and the only refusal is a data-port write with `CA[31] = 0`. -/
def Sound (P : State → Prop) : Result → Prop
  | .next t => P t
  | .fault _ => False
  | .refused x => x = .dataWriteWhileDisabled

theorem Sound.next {P : State → Prop} {r : Result} {t : State} (h : Sound P r) (e : r = .next t) : P t := by
  subst e; exact h

theorem Sound.not_fault {P : State → Prop} {r : Result} (h : Sound P r) (f : Fault) : r ≠ .fault f := by
  rintro rfl; exact h

theorem Sound.refused {P : State → Prop} {r : Result} {x : Refusal} (h : Sound P r) (e : r = .refused x) :
    x = .dataWriteWhileDisabled := by subst e; exact h

theorem Sound.imp {P Q : State → Prop} {r : Result} (h : Sound P r) (hk : ∀ t, P t → Q t) : Sound Q r := by
  cases r with
  | next t => exact hk t h
  | fault f => exact h
  | refused x => exact h

/-- A sequence of sound results is sound. -/
theorem sound_andThen {P Q : State → Prop} {r : Result} {k : State → Result} (h : Sound P r)
    (hk : ∀ t, P t → Sound Q (k t)) : Sound Q (andThen r k) := by
  cases r with
  | next t => exact hk t h
  | fault f => exact h
  | refused x => exact h

/-! ### The platform -/

/-- The two port numbers of the platform differ (R51). -/
theorem addrPort_ne_dataPort : Config.addrPort ≠ Config.dataPort := by
  intro h
  have h2 : BitVec.ofNat 16 (Config.dataPortGap.val + 1) = 0#16 := by
    have h3 : Config.addrPort + BitVec.ofNat 16 (Config.dataPortGap.val + 1) = Config.addrPort + 0#16 := by
      rw [BitVec.add_zero]; exact h.symm
    exact BitVec.add_right_inj _ |>.1 h3
  have h4 := congrArg BitVec.toNat h2
  rw [BitVec.toNat_ofNat] at h4
  have := Config.dataPortGap.isLt
  simp only [BitVec.toNat_ofNat, Nat.zero_mod] at h4
  omega

/-! ### The pieces of the invariant -/

theorem inv_setStatus_fc (c : Status) (h : s.Inv) : (setStatus .fc c s).Inv := h

theorem inv_refuseWord (w : CommandWord) (h : s.Inv) : (refuseWord w s).Inv := by
  unfold refuseWord routedUnit
  split
  · exact h
  · exact ⟨h.1, h.2.1, ⟨h.2.2.1.1, .inr rfl⟩, h.2.2.2⟩

theorem inv_clientWrite (c : ClientWrite) (h : s.Inv) : (clientWrite c s).Inv := by
  obtain ⟨⟨m1, m2, m3⟩, ⟨c1, c2, c3⟩, ⟨d1, d2⟩, e⟩ := h
  cases c with
  | fDst i v => exact ⟨⟨m1, m2, m3⟩, ⟨c1, c2, c3⟩, ⟨d1, d2⟩, e⟩
  | fSrc i v => exact ⟨⟨m1, m2, m3⟩, ⟨c1, c2, c3⟩, ⟨d1, d2⟩, e⟩
  | fLen v => exact ⟨⟨m1, m2, m3⟩, ⟨c1, c2, c3⟩, ⟨d1, d2⟩, e⟩
  | fPcnt n =>
    refine ⟨⟨m1, m2, m3⟩, ⟨?_, c2, c3⟩, ⟨d1, d2⟩, e⟩
    show (BitVec.ofNat 11 n.val).toNat ≤ 1454
    have := n.isLt
    rw [BitVec.toNat_ofNat]; omega
  | fPay i v => exact ⟨⟨m1, m2, wf_write m3 i.isLt⟩, ⟨c1, c2, c3⟩, ⟨d1, d2⟩, e⟩
  | fb i v => exact ⟨⟨m1, wf_write m2 i.isLt, m3⟩, ⟨c1, c2, c3⟩, ⟨d1, d2⟩, e⟩
  | blen n =>
    refine ⟨⟨m1, m2, m3⟩, ⟨c1, ?_, c3⟩, ⟨d1, d2⟩, e⟩
    show (BitVec.ofNat 11 n.val).toNat ≤ 1504
    have := n.isLt
    rw [BitVec.toNat_ofNat]; omega

theorem inv_csChange (r : CfgSel) (v : Dword) (h : s.Inv) : (csChange r v s).Inv := by
  obtain ⟨⟨m1, m2, m3⟩, ⟨c1, c2, c3⟩, d, e⟩ := h
  unfold csChange
  split
  · exact ⟨⟨wf_write32 v m1 (cfgBase_lt r), m2, m3⟩, ⟨c1, c2, c3⟩, d, e⟩
  · exact ⟨⟨m1, m2, m3⟩, ⟨c1, c2, by show s.fPayGen ≤ s.free + 1; omega⟩, d, e⟩

theorem inv_cfgWrite (r : CfgSel) (v : Dword) (h : s.Inv) : (cfgWrite r v s).Inv := by
  obtain ⟨⟨m1, m2, m3⟩, c, d, e⟩ := h
  refine ⟨⟨?_, m2, m3⟩, c, d, e⟩
  rw [cfgWrite_cs]
  split
  · exact wf_write32 v m1 (cfgBase_lt r)
  · exact m1

theorem inv_portWriteAddr (who : Requester) (v : Dword) (h : s.Inv) : (portWriteAddr who v s).Inv := h

theorem inv_portReadData (who : Requester) (h : s.Inv) : (portReadData who s).Inv := by
  obtain ⟨m, ⟨c1, c2, c3⟩, d, e⟩ := h
  exact ⟨m, ⟨c1, c2, by show s.fPayGen ≤ s.free + 1; omega⟩, d, e⟩

theorem inv_applyReset (h : s.Inv) : (applyReset s).Inv := by
  obtain ⟨⟨m1, m2, m3⟩, c, d, e⟩ := h
  refine ⟨⟨m1, rfl, rfl⟩, ⟨show (0#11).toNat ≤ 1454 by decide, show (0#11).toNat ≤ 1504 by decide, Nat.zero_le _⟩, ⟨rfl, .inl rfl⟩, e⟩

theorem inv_loadFrame {f : Frame} (hf : f.WellFormed) (h : s.Inv) : (loadFrame f s).Inv := by
  obtain ⟨⟨m1, m2, m3⟩, ⟨c1, c2, c3⟩, d, e⟩ := h
  have h1 := hf.1
  have h2 : f.len.toNat ≤ 1454 := hf.2
  refine ⟨⟨m1, m2, ?_⟩, ⟨?_, c2, Nat.le_refl _⟩, d, e⟩
  · exact wf_ofBytes 0 f.payload (by show 0 + f.payload.length ≤ 1454; omega)
  · show (BitVec.ofNat 11 f.payload.length).toNat ≤ 1454
    rw [BitVec.toNat_ofNat]; omega

/-- Acceptance of one of the four commands. -/
theorem inv_accept {op : BitVec 4} {bus : BitVec 8} {dev : BitVec 5} {fn : BitVec 3} {off : BitVec 8} {wd : Dword}
    (ho : phaseOfOp op .addr = true) (h : s.Inv) : (accept op bus dev fn off wd s).Inv :=
  ⟨h.1, h.2.1, ⟨ho, h.2.2.1.2⟩, h.2.2.2⟩

/-! ### Unit FC -/

theorem sound_execToBytes (h : s.Inv) : Sound State.Inv (execToBytes s) := by
  by_cases hf : s.FrameOk
  · rw [execToBytes_ok hf]
    obtain ⟨⟨m1, m2, m3⟩, ⟨c1, c2, c3⟩, d, e⟩ := h
    refine ⟨⟨m1, ?_, m3⟩, ⟨c1, show (1504#11).toNat ≤ 1504 by decide, c3⟩, d, e⟩
    refine wf_ofBytes 0 _ ?_
    rw [headerAndPayload_length, frame_payload_length, Config.fbSize]
    simp only [Config.payloadMax] at c1
    omega
  · rw [execToBytes_refused hf]; exact h

theorem sound_execFromBytes (h : s.Inv) : Sound State.Inv (execFromBytes s) := by
  cases hd : decodeFrame s.buffer with
  | frame f => rw [execFromBytes_frame hd]; exact inv_loadFrame (decodeFrame_wellFormed hd) h
  | fails c => rw [execFromBytes_fails hd]; exact h

/-! ### The port cycles and the sequencer -/

theorem sound_portWriteData (who : Requester) (v : Dword) (h : s.Inv) :
    Sound State.Inv (portWriteData who v s) := by
  unfold portWriteData
  split
  · exact inv_cfgWrite (caSelect s.ca) v h
  · rfl

theorem afterAddr_of_phase {op : BitVec 4} (h : phaseOfOp op .addr = true) :
    ∃ p, afterAddr op = some p ∧ phaseOfOp op p = true := by
  revert op; decide

theorem inv_phase {p : Phase} (hp : phaseOfOp s.op p = true) (h : s.Inv) : State.Inv { s with ph := p } :=
  ⟨h.1, h.2.1, ⟨hp, h.2.2.1.2⟩, h.2.2.2⟩

/-- Every port cycle of a legal state keeps the invariant, or is the one refusal. -/
theorem sound_portCycle (h : s.Inv) : Sound State.Inv (portCycle s) := by
  have hph := h.2.2.1.1
  cases hp : s.ph with
  | idle => simp only [portCycle, hp]; exact h
  | addr =>
    rw [hp] at hph
    obtain ⟨p, ho, hq⟩ := afterAddr_of_phase hph
    rw [portCycle_addr hp ho]
    exact inv_phase (s := portWriteAddr .csa s.addressWord s) hq h
  | dread =>
    rw [hp] at hph
    have hr := inv_portReadData .csa h
    have : s.op = opReadDword ∨ s.op = opReadWord ∨ s.op = opWriteWord := by
      revert hph; generalize s.op = o; revert o; decide
    rcases this with ho | ho | ho
    · rw [portCycle_dread_readDword hp ho]
      exact ⟨hr.1, hr.2.1, ⟨rfl, .inl rfl⟩, hr.2.2.2⟩
    · rw [portCycle_dread_readWord hp ho]
      exact ⟨hr.1, hr.2.1, ⟨rfl, .inl rfl⟩, hr.2.2.2⟩
    · rw [portCycle_dread_writeWord hp ho]
      refine ⟨hr.1, hr.2.1, ⟨?_, hr.2.2.1.2⟩, hr.2.2.2⟩
      show phaseOfOp s.op .dwrite = true
      rw [ho]; rfl
  | dwrite =>
    rw [hp] at hph
    have : ∃ v, writeValue s = some v := by
      have : s.op = opWriteDword ∨ s.op = opWriteWord := by
        revert hph; generalize s.op = o; revert o; decide
      rcases this with ho | ho
      · exact ⟨_, writeValue_writeDword ho⟩
      · exact ⟨_, writeValue_writeWord ho⟩
    obtain ⟨v, hv⟩ := this
    by_cases hc : caEnabled s.ca = true
    · rw [portCycle_dwrite hp hv hc]
      have hw := inv_cfgWrite (caSelect s.ca) v h
      exact ⟨hw.1, hw.2.1, ⟨rfl, .inl rfl⟩, hw.2.2.2⟩
    · rw [portCycle_dwrite_disabled hp hv (by simpa using hc)]; rfl

/-! ### The world -/

theorem sound_agentStep (a : AgentStep) (h : s.Inv) : Sound State.Inv (agentStep a s) := by
  cases a with
  | csChange r v => exact inv_csChange r v h
  | portWrite n v =>
    simp only [agentStep]
    split
    · exact h
    · exact sound_portWriteData .other v h
    · exact h
  | portRead n =>
    simp only [agentStep]
    split
    · exact inv_portReadData .other h
    · exact h
    · exact h

theorem inv_whenIdle {k : State → State} (h : s.Inv) (hk : (k s).Inv) : (whenIdle s k).Inv := by
  unfold whenIdle; split
  · exact hk
  · exact h

theorem sound_offer (w : CommandWord) (h : s.Inv) : Sound State.Inv (offer w s) := by
  unfold offer
  split
  · split
    · exact inv_refuseWord w h
    · exact inv_whenIdle h (inv_refuseWord w h)
  · exact sound_execToBytes h
  · exact sound_execFromBytes h
  all_goals exact inv_whenIdle h (inv_accept rfl h)

theorem sound_applyInput (x : Input) (h : s.Inv) : Sound State.Inv (applyInput x s) := by
  cases x with
  | command w => exact sound_offer w h
  | write c => exact inv_clientWrite c h
  | read r => exact h
  | agent a => exact sound_agentStep a h
  | reset => exact inv_applyReset h

theorem sound_applyInputs (xs : List Input) : ∀ {s : State}, s.Inv → Sound State.Inv (applyInputs xs s) := by
  induction xs with
  | nil => intro s h; exact h
  | cons x xs ih => intro s h; exact sound_andThen (sound_applyInput x h) fun t ht => ih ht

theorem sound_passGap (h : s.Inv) : Sound State.Inv (passGap s) := by
  unfold passGap
  split
  · exact h
  · rename_i g gs _
    exact sound_applyInputs g (s := { s with gaps := gs }) h

theorem sound_tick (h : s.Inv) : Sound State.Inv (tick s) := by
  unfold tick
  split
  · exact h
  · exact sound_andThen (sound_passGap h) fun t ht => sound_portCycle ht

theorem sound_runTicks (n : Nat) : ∀ {s : State}, s.Inv → Sound State.Inv (runTicks n s) := by
  induction n with
  | zero => intro s h; exact h
  | succ n ih => intro s h; exact sound_andThen (sound_tick h) fun t ht => ih ht

theorem sound_perform {n : Nat} {op : BitVec 4} {bus : BitVec 8} {dev : BitVec 5} {fn : BitVec 3} {off : BitVec 8}
    {wd : Dword} (ho : phaseOfOp op .addr = true) (h : s.Inv) :
    Sound State.Inv (perform n op bus dev fn off wd s) := by
  unfold perform
  split
  · exact sound_runTicks n (inv_accept ho h)
  · exact h

/-- Every operation of a legal state ends in a legal state, or is the one refusal. -/
theorem sound_exec (i : Instr) (h : s.Inv) : Sound State.Inv (exec i s) := by
  cases i with
  | toBytes => exact sound_execToBytes h
  | fromBytes => exact sound_execFromBytes h
  | _ => exact sound_perform rfl h

/-! ### A client's commands -/

theorem sound_takeInput (x : Input) (h : s.Inv) : Sound State.Inv (takeInput x s) := by
  cases x with
  | command w =>
    simp only [takeInput]
    split
    · exact sound_exec _ h
    · exact inv_refuseWord w h
  | write c => exact sound_applyInput (.write c) h
  | read r => exact sound_applyInput (.read r) h
  | agent a => exact sound_applyInput (.agent a) h
  | reset => exact sound_applyInput .reset h

theorem sound_waitIdle (h : s.Inv) : Sound State.Inv (waitIdle s) := sound_runTicks _ h

theorem sound_takeInputs (xs : List Input) : ∀ {s : State}, s.Inv → Sound State.Inv (takeInputs xs s) := by
  induction xs with
  | nil => intro s h; exact h
  | cons x xs ih =>
    intro s h
    exact sound_andThen (sound_takeInput x h) fun t ht => sound_andThen (sound_waitIdle ht) fun u hu => ih hu

theorem sound_issue (i : Instr) (h : s.Inv) : Sound State.Inv (issue i s) :=
  sound_andThen (sound_waitIdle h) fun _ ht => sound_andThen (sound_exec i ht) fun _ hu => sound_waitIdle hu

/-! ### The program and the schedule are not touched by what they contain -/

/-- What is still to come of the program and of the schedule is the same in both states. -/
def SameProgram (s t : State) : Prop := t.inbox = s.inbox ∧ t.gaps = s.gaps

theorem SameProgram.trans {t u : State} (h : SameProgram s t) (k : SameProgram t u) : SameProgram s u :=
  ⟨k.1.trans h.1, k.2.trans h.2⟩

theorem sameProgram_refuseWord (w : CommandWord) : SameProgram s (refuseWord w s) := by
  unfold refuseWord routedUnit; split <;> exact ⟨rfl, rfl⟩

theorem sameProgram_whenIdle {k : State → State} (hk : SameProgram s (k s)) : SameProgram s (whenIdle s k) := by
  unfold whenIdle; split
  · exact hk
  · exact ⟨rfl, rfl⟩

theorem sameProgram_accept {op : BitVec 4} {bus : BitVec 8} {dev : BitVec 5} {fn : BitVec 3} {off : BitVec 8}
    {wd : Dword} : SameProgram s (accept op bus dev fn off wd s) := ⟨rfl, rfl⟩

theorem sameProgram_portWriteData (who : Requester) (v : Dword) :
    Sound (SameProgram s) (portWriteData who v s) := by
  unfold portWriteData; split
  · exact ⟨rfl, rfl⟩
  · rfl

theorem sameProgram_offer (w : CommandWord) : Sound (SameProgram s) (offer w s) := by
  unfold offer
  split
  · split
    · exact sameProgram_refuseWord w
    · exact sameProgram_whenIdle (sameProgram_refuseWord w)
  · by_cases h : s.FrameOk
    · rw [execToBytes_ok h]; exact ⟨rfl, rfl⟩
    · rw [execToBytes_refused h]; exact ⟨rfl, rfl⟩
  · cases h : decodeFrame s.buffer with
    | frame f => rw [execFromBytes_frame h]; exact ⟨rfl, rfl⟩
    | fails c => rw [execFromBytes_fails h]; exact ⟨rfl, rfl⟩
  all_goals exact sameProgram_whenIdle sameProgram_accept

/-- What the world does never changes what is still to come; it never faults. -/
theorem sameProgram_applyInput (x : Input) : Sound (SameProgram s) (applyInput x s) := by
  cases x with
  | command w => exact sameProgram_offer w
  | write c => exact ⟨clientWrite_inbox s c, clientWrite_gaps s c⟩
  | read r => exact ⟨rfl, rfl⟩
  | agent a =>
    cases a with
    | csChange r v => exact ⟨csChange_inbox s r v, csChange_gaps s r v⟩
    | portWrite n v =>
      simp only [applyInput, agentStep]
      split
      · exact ⟨rfl, rfl⟩
      · exact sameProgram_portWriteData .other v
      · exact ⟨rfl, rfl⟩
    | portRead n =>
      simp only [applyInput, agentStep]
      split <;> exact ⟨rfl, rfl⟩
  | reset => exact ⟨rfl, rfl⟩

theorem sameProgram_applyInputs (xs : List Input) : ∀ {s : State}, Sound (SameProgram s) (applyInputs xs s) := by
  induction xs with
  | nil => intro s; exact ⟨rfl, rfl⟩
  | cons x xs ih =>
    intro s
    refine sound_andThen (sameProgram_applyInput x) fun t ht => ?_
    exact (ih (s := t)).imp fun _ => ht.trans

/-- A gap takes its own entry of the schedule, and nothing else of what is to come. -/
theorem sameProgram_passGap : Sound (SameProgram { s with gaps := s.gaps.drop 1 }) (passGap s) := by
  unfold passGap
  split
  · rename_i hg; exact ⟨rfl, by rw [hg]; rfl⟩
  · rename_i g gs hg
    refine (sameProgram_applyInputs g (s := { s with gaps := gs })).imp fun t ht => ⟨ht.1, ?_⟩
    rw [ht.2, hg]; rfl

theorem sameProgram_portCycle {t : State} (h : portCycle s = .next t) : SameProgram s t := by
  rcases portCycle_cases h with ⟨-, rfl⟩ | ⟨p, -, -, rfl⟩ | ⟨-, -, rfl⟩ | ⟨-, -, rfl⟩ | ⟨-, -, rfl⟩ | ⟨v, -, -, -, rfl⟩ <;>
    exact ⟨rfl, rfl⟩

/-- A step of an operation in progress takes one gap of the schedule, and nothing of the program. -/
theorem tick_program {t : State} (hp : s.ph ≠ .idle) (h : tick s = .next t) :
    SameProgram { s with gaps := s.gaps.drop 1 } t := by
  rw [tick, if_neg hp] at h
  obtain ⟨u, hu, ht⟩ := (andThen_eq_next _ _ _).1 h
  exact (sameProgram_passGap.next hu).trans (sameProgram_portCycle ht)

/-! ### Runs -/

theorem run_succ (M : Host.Core) (n : Nat) (s : M.State) : M.run (n + 1) s = (match M.step s with
    | .next t => M.run n t
    | .fault f => .fault f
    | .refused x => .refused x) := by
  cases h : M.step s <;> simp [Host.Core.run, h]

/-- The host's run is the model's. -/
theorem core_run_eq (n : Nat) : ∀ s : State, Sys2Proof.core.run n s = runSteps n s := by
  induction n with
  | zero => intro s; rfl
  | succ n ih =>
    intro s
    refine (run_succ Sys2Proof.core n s).trans ?_
    have h : Sys2Proof.core.step s = step s := rfl
    rw [runSteps, h]
    cases step s with
    | next t => exact ih t
    | fault f => rfl
    | refused x => rfl

/-- A step of an operation in progress, first of a run. -/
theorem runSteps_tick (n : Nat) (hp : s.ph ≠ .idle) : runSteps (n + 1) s = andThen (tick s) (runSteps n) := by
  rw [runSteps, step, if_neg hp]

end Sys2Proof.Machine
end

