-- ==== Sys2Proof/Laws/Exclusive.lean ====
section
/-! SUPPORT. Exclusive use of the port pair (R69): what may still happen in a gap changes nothing of unit CSA, of the
address register or of the record. -/

namespace Sys2Proof.Machine

variable {s : State}

/-- The first state, with what a second client or a device can reach without the ports as the second has it: the store,
unit FC, the client's observations and the model's counter. -/
def withReachable (s t : State) : State :=
  { s with cs := t.cs, fDst := t.fDst, fSrc := t.fSrc, fLen := t.fLen, fPcnt := t.fPcnt, fPay := t.fPay
           fPayGen := t.fPayGen, fb := t.fb, blen := t.blen, fcSt := t.fcSt, seen := t.seen, free := t.free }

/-- The states differ in nothing else: unit CSA, the address register, the record, the target's history and parameters, and
what is still to come are the same. -/
def SameCsa (s t : State) : Prop := t = withReachable s t

namespace SameCsa

variable {t u : State}

theorem refl (s : State) : SameCsa s s := rfl

theorem trans (h : SameCsa s t) (k : SameCsa t u) : SameCsa s u := by
  unfold SameCsa at h k ⊢
  rw [k, h]; rfl

/-- A field that is none of those is the same. -/
theorem field {α : Type} (h : SameCsa s t) (f : State → α) : f t = f (withReachable s t) := congrArg f h

theorem op (h : SameCsa s t) : t.op = s.op := h.field State.op
theorem bus (h : SameCsa s t) : t.bus = s.bus := h.field State.bus
theorem dev (h : SameCsa s t) : t.dev = s.dev := h.field State.dev
theorem fn (h : SameCsa s t) : t.fn = s.fn := h.field State.fn
theorem off (h : SameCsa s t) : t.off = s.off := h.field State.off
theorem wd (h : SameCsa s t) : t.wd = s.wd := h.field State.wd
theorem ca (h : SameCsa s t) : t.ca = s.ca := h.field State.ca
theorem tmp (h : SameCsa s t) : t.tmp = s.tmp := h.field State.tmp
theorem rd (h : SameCsa s t) : t.rd = s.rd := h.field State.rd
theorem ph (h : SameCsa s t) : t.ph = s.ph := h.field State.ph
theorem trace (h : SameCsa s t) : t.trace = s.trace := h.field State.trace
theorem gaps (h : SameCsa s t) : t.gaps = s.gaps := h.field State.gaps
theorem target (h : SameCsa s t) : t.target = s.target := h.field State.target
theorem present (h : SameCsa s t) : t.present = s.present := h.field State.present

end SameCsa

/-- `TO_BYTES` always ends, and leaves unit CSA. -/
theorem execToBytes_sameCsa (s : State) : ∃ t, execToBytes s = .next t ∧ SameCsa s t := by
  by_cases h : s.FrameOk
  · exact ⟨_, execToBytes_ok h, rfl⟩
  · exact ⟨_, execToBytes_refused h, rfl⟩

/-- `FROM_BYTES` always ends, and leaves unit CSA. -/
theorem execFromBytes_sameCsa (s : State) : ∃ t, execFromBytes s = .next t ∧ SameCsa s t := by
  cases h : decodeFrame s.buffer with
  | frame f => exact ⟨_, execFromBytes_frame h, rfl⟩
  | fails c => exact ⟨_, execFromBytes_fails h, rfl⟩

/-- A device's change of a register leaves unit CSA. -/
theorem csChange_sameCsa (r : CfgSel) (v : Dword) (s : State) : SameCsa s (csChange r v s) := by
  unfold csChange; split <;> rfl

/-- A client's direct write leaves unit CSA. -/
theorem clientWrite_sameCsa (c : ClientWrite) (s : State) : SameCsa s (clientWrite c s) := by
  cases c <;> rfl

theorem whenIdle_busy (hp : s.ph ≠ .idle) (k : State → State) : whenIdle s k = s := if_neg hp

/-- A command word offered while unit CSA is busy: unit FC may take it, unit CSA does not. -/
theorem offer_busy (w : CommandWord) (hp : s.ph ≠ .idle) : ∃ t, offer w s = .next t ∧ SameCsa s t := by
  unfold offer
  simp only [whenIdle_busy hp]
  split
  · split
    · rename_i h
      exact ⟨_, rfl, by rw [refuseWord, routedUnit, if_pos h]; rfl⟩
    · exact ⟨s, rfl, .refl s⟩
  · exact execToBytes_sameCsa s
  · exact execFromBytes_sameCsa s
  all_goals exact ⟨s, rfl, .refl s⟩

/-- Whatever keeps the port pair to unit CSA leaves unit CSA alone while it is busy. -/
theorem applyInput_keepsPorts {x : Input} (hx : x.keepsPorts = true) (hp : s.ph ≠ .idle) :
    ∃ t, applyInput x s = .next t ∧ SameCsa s t := by
  cases x with
  | command w => exact offer_busy w hp
  | write c => exact ⟨_, rfl, clientWrite_sameCsa c s⟩
  | read r => exact ⟨_, rfl, rfl⟩
  | agent a =>
    cases a with
    | csChange r v => exact ⟨_, rfl, csChange_sameCsa r v s⟩
    | portWrite n v => cases hx
    | portRead n => cases hx
  | reset => cases hx

theorem applyInputs_keepsPorts (xs : List Input) : ∀ {s : State}, (∀ x ∈ xs, x.keepsPorts = true) → s.ph ≠ .idle →
    ∃ t, applyInputs xs s = .next t ∧ SameCsa s t := by
  induction xs with
  | nil => intro s _ _; exact ⟨s, rfl, .refl s⟩
  | cons x xs ih =>
    intro s hx hp
    obtain ⟨t, ht, st⟩ := applyInput_keepsPorts (hx x (by simp)) hp
    obtain ⟨u, hu, tu⟩ := ih (s := t) (fun y hy => hx y (by simp [hy])) (by rw [st.ph]; exact hp)
    exact ⟨u, by rw [applyInputs, ht, andThen_next, hu], st.trans tu⟩

/-- A step of the sequencer under exclusive use: the port cycle, from a state in which unit CSA is as before, and which is
legal if the state before was. -/
theorem tick_exclusive {n : Nat} (h : s.ExclusivePorts (n + 1)) (hp : s.ph ≠ .idle) :
    ∃ t, tick s = portCycle t ∧ SameCsa { s with gaps := s.gaps.drop 1 } t ∧ t.ExclusivePorts n ∧
      (s.Inv → t.Inv) := by
  have key : ∃ t, passGap s = .next t ∧ SameCsa { s with gaps := s.gaps.drop 1 } t := by
    unfold passGap
    split
    · rename_i hg
      refine ⟨s, rfl, ?_⟩
      rw [hg, List.drop_nil, ← hg]; rfl
    · rename_i g gs hg
      obtain ⟨t, ht, st⟩ := applyInputs_keepsPorts g (s := { s with gaps := gs })
        (h g (by rw [hg, List.take_succ_cons]; exact List.mem_cons_self)) hp
      refine ⟨t, ht, ?_⟩
      have : s.gaps.drop 1 = gs := by rw [hg]; rfl
      rw [this]; exact st
  obtain ⟨t, ht, st⟩ := key
  refine ⟨t, by rw [tick, if_neg hp, ht, andThen_next], st, ?_, fun hi => (sound_passGap hi).next ht⟩
  intro g hg
  rw [st.gaps] at hg
  refine h g ?_
  show g ∈ s.gaps.take (n + 1)
  have hg' : g ∈ (s.gaps.drop 1).take n := hg
  rw [List.take_drop] at hg'
  rw [Nat.add_comm]
  exact List.mem_of_mem_drop hg'

@[simp] theorem csaCycles_append (l m : List PortEvent) : csaCycles (l ++ m) = csaCycles l ++ csaCycles m := by
  simp [csaCycles]

@[simp] theorem csaCycles_nil : csaCycles [] = [] := rfl

@[simp] theorem csaCycles_cons_csa (c : PortCycle) (l : List PortEvent) :
    csaCycles (⟨.csa, c⟩ :: l) = c :: csaCycles l := rfl

@[simp] theorem csaCycles_cons_other (c : PortCycle) (l : List PortEvent) :
    csaCycles (⟨.other, c⟩ :: l) = csaCycles l := rfl

end Sys2Proof.Machine
end

