-- ==== Sys2Proof/Laws/PerInstr.lean ====
section
/-! SUPPORT. Per operation: its command word selects its own row of the opcode table, with every operand at every value. -/

namespace Sys2Proof.Laws.SelectsItsRow

/-- The command word of the operation selects the row the operation belongs to, and that row is in the table (R83). -/
def Statement (i : Instr) : Prop := i.row ∈ opcodeTable ∧ i.row.selects (encode i) = true

theorem readWord (bus : BitVec 8) (dev : BitVec 5) (fn : BitVec 3) (off : BitVec 8) :
    Statement (.readWord bus dev fn off) :=
  ⟨by simp [Instr.row, opcodeTable], (rowReadWord_selects _).2 (by simp [encode])⟩

theorem writeWord (bus : BitVec 8) (dev : BitVec 5) (fn : BitVec 3) (off : BitVec 8) (value : Half) :
    Statement (.writeWord bus dev fn off value) :=
  ⟨by simp [Instr.row, opcodeTable], (rowWriteWord_selects _).2 (by simp [encode])⟩

theorem readDword (bus : BitVec 8) (dev : BitVec 5) (fn : BitVec 3) (off : BitVec 8) :
    Statement (.readDword bus dev fn off) :=
  ⟨by simp [Instr.row, opcodeTable], (rowReadDword_selects _).2 (by simp [encode])⟩

theorem writeDword (bus : BitVec 8) (dev : BitVec 5) (fn : BitVec 3) (off : BitVec 8) (value : Dword) :
    Statement (.writeDword bus dev fn off value) :=
  ⟨by simp [Instr.row, opcodeTable], (rowWriteDword_selects _).2 (by simp [encode])⟩

theorem toBytes : Statement .toBytes := ⟨by simp [Instr.row, opcodeTable], (rowToBytes_selects _).2 (by simp [encode])⟩

theorem fromBytes : Statement .fromBytes :=
  ⟨by simp [Instr.row, opcodeTable], (rowFromBytes_selects _).2 (by simp [encode])⟩

end Sys2Proof.Laws.SelectsItsRow
end

