-- ==== Sys2Proof/Tests/Slice0.lean ====
section
/-! SUPPORT. The model's own tests. Expected values are those of spec/95_test_vectors.md and of the worked examples of the
rules, copied from there; none comes from the model. The last part holds the witnesses: states and operands that meet
the hypotheses of the statements. -/

namespace Sys2Proof.Tests

open Sys2Proof.Machine

/-! ### WellFormed: one ill-formed line for each check (R93) -/

theorem test_wf_bus : (AsmLine.readWord 256 0 0 0).wellFormed = false := by decide
theorem test_wf_dev : (AsmLine.readDword 0 32 0 0).wellFormed = false := by decide
theorem test_wf_fn : (AsmLine.readWord 0 0 8 0).wellFormed = false := by decide
theorem test_wf_off : (AsmLine.readWord 0 0 0 256).wellFormed = false := by decide
theorem test_wf_value16 : (AsmLine.writeWord 0 0 0 0 0x10000).wellFormed = false := by decide
theorem test_wf_value32 : (AsmLine.writeDword 0 0 0 0 0x100000000).wellFormed = false := by decide
theorem test_wf_limits : (AsmLine.writeDword 255 31 7 255 0xFFFFFFFF).wellFormed = true := by decide
theorem test_wf_aligned : (Instr.readWord 0 3 0 0x05).wordAligned = false := by decide
theorem test_asm_refuses : assemble (.readWord 0 32 0 0) = none := by decide
theorem test_asm_tokens :
    (AsmLine.ofTokens "WRITE_WORD" [0, 3, 0, 0x04, 0x0005]).bind assemble = some 0x2000180400000005#64 := by decide

/-! ### Decode: a word written out from the encoding (R81 to R83, vectors 2.2) for every constructor -/

theorem test_decode_readWord : decode 0x10FFFFFE00000000#64 = .instr (.readWord 255 31 7 0xFE) := by decide
theorem test_decode_writeWord : decode 0x2012553E00001234#64 = .instr (.writeWord 18 10 5 0x3E 0x1234) := by decide
theorem test_decode_readDword : decode 0x3000181000000000#64 = .instr (.readDword 0 3 0 0x10) := by decide
theorem test_decode_writeDword :
    decode 0x40001810FFFFFFFF#64 = .instr (.writeDword 0 3 0 0x10 0xFFFFFFFF) := by decide
theorem test_decode_toBytes : decode 0x8000000000000000#64 = .instr .toBytes := by decide
theorem test_decode_fromBytes : decode 0x9000000000000000#64 = .instr .fromBytes := by decide

/-- The words of vectors 2.6 are refused. -/
theorem test_decode_refused : [0x0#64, 0x5000000000000000#64, 0xF000000000000000#64].map decode =
    [.illegal (.reservedOpcode 0#4), .illegal (.reservedOpcode 5#4), .illegal (.reservedOpcode 15#4)] := by decide
/-- The words of vectors 2.6 with a reserved field that is not zero. -/
theorem test_decode_reserved_fields :
    [0x1100180000000000#64, 0x1000180000000001#64, 0x3000181000000001#64, 0x2000180400010005#64,
      0x8000000000000001#64, 0x9000000000000100#64].map decode =
    [.illegal (.reservedField 1#4), .illegal (.reservedField 1#4), .illegal (.reservedField 3#4),
      .illegal (.reservedField 2#4), .illegal (.reservedField 8#4), .illegal (.reservedField 9#4)] := by decide
/-- The opcode table's numbering of a word. -/
theorem test_decodeTableWord : decodeTableWord 64 0x2000180400000005 = some (.writeWord 0 3 0 0x04 0x0005) := by decide

/-! ### The address word and the lane (vectors 2.1, 2.3, 2.4) -/

theorem test_addressWord : [addressWord 0 0 0 0x03, addressWord 1 2 3 0x10, addressWord 18 10 5 0x3E,
    addressWord 255 31 7 0xFF, addressWord 0 31 0 0x00] =
    [0x80000000#32, 0x80011310#32, 0x8012553C#32, 0x80FFFFFC#32, 0x8000F800#32] := by decide
theorem test_laneRead : [laneRead 0x56781234 0x01, laneRead 0x56781234 0x03, laneRead 0x80000000 0x02] =
    [0x1234#16, 0x5678#16, 0x8000#16] := by decide
theorem test_laneMerge : [laneMerge 0xFFFFFFFF 0x00 0x0000, laneMerge 0x00000000 0x02 0xFFFF,
    laneMerge 0x12345678 0x03 0xABCD, laneMerge 0x9ABCDEF0 0x3E 0x1234] =
    [0xFFFF0000#32, 0xFFFF0000#32, 0xABCD5678#32, 0x1234DEF0#32] := by decide

/-! ### Unit CSA from state `T0` (vectors 2.5) -/

/-- The function 0:3.0. -/
def dev3 : Bdf := ⟨0, 3, 0⟩

/-- State `T0` of spec/95_test_vectors.md. -/
def t0 : State :=
  { State.reset with
    target := .ram, present := [dev3], absent := 0xFFFFFFFF#32, addrPort := 0x0CF8#16, dataPort := 0x0CFC#16
    cs := [(6144, 0x34), (6145, 0x12), (6146, 0x78), (6147, 0x56), (6150, 0x90), (6151, 0x02), (6160, 0x01),
      (6161, 0xC0)] }

/-- The result is a next state of which `p` holds. -/
def ends (r : Result) (p : State → Bool) : Bool :=
  match r with
  | .next t => p t
  | .fault _ => false
  | .refused _ => false

/-- The result is the refusal of a data-port write with `CA[31] = 0`. -/
def refuses (r : Result) : Bool :=
  match r with
  | .next _ => false
  | .fault _ => false
  | .refused x => x == .dataWriteWhileDisabled

/-- The cycles of the record, whoever performed them. -/
def cycles (t : State) : List PortCycle := t.trace.map PortEvent.cycle

theorem test_readWord : ends (exec (.readWord 0 3 0 0x02) t0) (fun t =>
    cycles t == [.aw 0x80001800, .dr 0x56781234] && t.rd == 0x00005678 && t.ca == 0x80001800 && t.ph == .idle) := by
  decide
theorem test_readWord_absent : ends (exec (.readWord 0 4 0 0x00) t0) (fun t =>
    cycles t == [.aw 0x80002000, .dr 0xFFFFFFFF] && t.rd == 0x0000FFFF && t.csaSt == .ok) := by decide
theorem test_readDword : ends (exec (.readDword 0 3 0 0x13) t0) (fun t =>
    cycles t == [.aw 0x80001810, .dr 0x0000C001] && t.rd == 0x0000C001) := by decide
theorem test_writeDword : ends (exec (.writeDword 0 3 0 0x10 0xFFFFFFFF) t0) (fun t =>
    cycles t == [.aw 0x80001810, .dw 0xFFFFFFFF] && read32 t.cs 6160 == 0xFFFFFFFF && t.rd == t0.rd &&
      t.csaSt == .ok) := by decide
theorem test_writeWord : ends (exec (.writeWord 0 3 0 0x06 0xBEEF) t0) (fun t =>
    cycles t == [.aw 0x80001804, .dr 0x02900000, .dw 0xBEEF0000] && read32 t.cs 6148 == 0xBEEF0000 &&
      t.tmp == 0x02900000) := by decide
theorem test_writeWord_absent : ends (exec (.writeWord 0 4 0 0x04 0x0005) t0) (fun t =>
    cycles t == [.aw 0x80002004, .dr 0xFFFFFFFF, .dw 0xFFFF0005] && t.cs == t0.cs && t.tmp == 0xFFFFFFFF) := by decide

/-- H1: another agent writes the address port between the address cycle and the fetch. -/
theorem test_H1 : ends (exec (.writeWord 0 3 0 0x04 0x0005)
    { t0 with
      present := [dev3, ⟨0, 4, 0⟩]
      cs := t0.cs ++ [(8196, 0x07), (8198, 0x10)]
      gaps := [[], [.agent (.portWrite 0x0CF8 0x80002004)]] }) (fun t =>
    t.trace == [⟨.csa, .aw 0x80001804⟩, ⟨.other, .aw 0x80002004⟩, ⟨.csa, .dr 0x00100007⟩, ⟨.csa, .dw 0x00100005⟩] &&
      t.ca == 0x80002004 && t.tmp == 0x00100007 && read32 t.cs 8196 == 0x00100005 && read32 t.cs 6148 == 0x02900000 &&
      t.csaSt == .ok) := by decide
/-- H2: the device changes its register between the fetch and the write-back. -/
theorem test_H2 : ends (exec (.writeWord 0 3 0 0x04 0x0005)
    { t0 with gaps := [[], [], [.agent (.csChange ⟨0, 3, 0, 1⟩ 0x0AB00000)]] }) (fun t =>
    cycles t == [.aw 0x80001804, .dr 0x02900000, .dw 0x02900005] && read32 t.cs 6148 == 0x02900005) := by decide

/-! ### The pseudo-instructions (vectors P1 and P2) -/

/-- The answer of a pseudo-instruction is a next state, with this value. -/
def answers {α : Type} [BEq α] (r : Host.Outcome (α × State) Fault Refusal) (v : α) : Bool :=
  match r with
  | .next x => x.1 == v
  | .fault _ => false
  | .refused _ => false

/-- P1: a present function and an absent one. -/
theorem test_probe : answers (probe 0 3 0 [] t0) false = true ∧ answers (probe 0 4 0 [] t0) true = true := by decide
/-- P1: the two reads together. -/
theorem test_readPair : answers (readPair 0 3 0 0x00 [] [] [] t0) 0x56781234#32 = true := by decide
/-- P2: the lane is updated and its neighbour unchanged. -/
theorem test_updateWord : ends (updateWord 0 3 0 0x04 0x0000 0x0005 [] [] t0) (fun t =>
    cycles t == [.aw 0x80001804, .dr 0x02900000, .aw 0x80001804, .dr 0x02900000, .dw 0x02900005] &&
      read32 t.cs 6148 == 0x02900005) := by decide
/-- R94, R213: a second client's `WRITE_DWORD` of the register runs whole between the two commands of `UPDATE_WORD`: five
more port cycles follow the first two, and the upper lane it wrote stays. -/
theorem test_updateWord_second_client : ends (updateWord 0 3 0 0x04 0x0000 0x0005 []
    [.command 0x40001804ABCD0002#64] t0) (fun t =>
    cycles t == [.aw 0x80001804, .dr 0x02900000, .aw 0x80001804, .dw 0xABCD0002, .aw 0x80001804, .dr 0xABCD0002,
      .dw 0xABCD0005] && read32 t.cs 6148 == 0xABCD0005 && t.ph == .idle) := by decide
/-- R110: a command issued to a busy unit runs after the operation in progress. -/
theorem test_issue_waits : ends (issue (.readDword 0 3 0 0x10) (accept 0x1#4 0 3 0 0x00 0 t0)) (fun t =>
    cycles t == [.aw 0x80001800, .dr 0x56781234, .aw 0x80001810, .dr 0x0000C001] && t.rd == 0x0000C001) := by decide

/-! ### Unit FC (vectors 3.1 and 3.2) -/

/-- The first 20 bytes of the decoder's vectors. -/
def hdr : List Byte := [0xAA, 0xAA, 0xAA, 0xAA, 0xAA, 0xAA, 0xAA, 0xAB, 1, 2, 3, 4, 5, 6, 6, 5, 4, 3, 2, 1]

/-- A state whose frame buffer holds the bytes `bs`. -/
def received (bs : List Byte) : State :=
  { t0 with fb := Memory.ofBytes zeroDflt 0 bs, blen := BitVec.ofNat 11 bs.length }

/-- The frame of vector E2. -/
def e2 : State :=
  { t0 with
    fDst := #v[0x52, 0x54, 0x00, 0x12, 0x34, 0x56], fSrc := #v[0x52, 0x54, 0x00, 0xAB, 0xCD, 0xEF]
    fLen := 3, fPcnt := 3, fPay := [(0, 0xDE), (1, 0xAD), (2, 0x42)] }

theorem test_toBytes_E2 : ends (exec .toBytes e2) (fun t =>
    (List.range 29).map t.fbByte == [0xAA, 0xAA, 0xAA, 0xAA, 0xAA, 0xAA, 0xAA, 0xAB, 0x52, 0x54, 0x00, 0x12, 0x34, 0x56,
      0x52, 0x54, 0x00, 0xAB, 0xCD, 0xEF, 0x00, 0x03, 0xDE, 0xAD, 0x42, 0x00, 0x00, 0x00, 0x00] &&
    t.blen == 1504 && t.fcSt == .ok) := by decide
theorem test_toBytes_E5 : ends (exec .toBytes { e2 with fLen := 4 }) (fun t =>
    t.fcSt == .encodeRefused && t.fb == e2.fb && t.blen == e2.blen) := by decide
theorem test_fromBytes_V12 : ends (exec .fromBytes (received (hdr ++ [0x00, 0x01, 0x99]))) (fun t =>
    t.fcSt == .ok && t.fDst == #v[1, 2, 3, 4, 5, 6] && t.fSrc == #v[6, 5, 4, 3, 2, 1] && t.fLen == 1 && t.fPcnt == 1 &&
      t.payByte 0 == 0x99) := by decide
/-- V1 to V11, V13 to V15, V18 and V19: the status each buffer gives. -/
theorem test_fromBytes_status : [[], [0x00], [0xAA], hdr.take 7, hdr.take 6 ++ [0x55], hdr.take 13,
    List.replicate 13 0x00, hdr.take 14, hdr ++ [0x00], hdr ++ [0x00, 0x00], hdr ++ [0x00, 0x01],
    hdr.set 7 0x00 ++ [0x00, 0x01, 0x99], hdr.set 6 0xAB ++ [0x00, 0x01, 0x99], hdr ++ [0x05, 0xAF],
    hdr ++ [0xFF, 0xFF], hdr ++ [0x00, 0x02, 0x11, 0x22, 0xDE, 0xAD, 0xBE, 0xEF]].map (fun bs =>
      match decodeFrame bs with
      | .frame _ => Status.ok
      | .fails c => c) =
    [.invalidPacket, .noStart, .invalidPacket, .invalidPacket, .noStart, .invalidPacket, .noStart, .invalidPacket,
      .invalidPacket, .ok, .invalidPacket, .ok, .noStart, .invalidPacket, .invalidPacket, .ok] := by decide

/-! ### Steps from reset -/

/-- Each operation, placed as the next command after reset, runs. -/
theorem test_fetch_csa : ends (step (State.reset.withFetchWord 64 0x4000181000000000)) (fun t => t.op == 4#4) := by
  decide
theorem test_fetch_fc : ends (step (State.reset.withFetchWord 64 0x9000000000000000)) (fun t =>
    t.fcSt == .invalidPacket) := by decide
/-- A refused word leaves its code in the status of the unit bit 63 names (R87). -/
theorem test_refused_word : ends (step (State.reset.withFetchWord 64 0xA000000000000000)) (fun t =>
    t.fcSt == .illegalCommand && t.csaSt == .ok && t.trace == []) := by decide
/-- P1: the address cycle of an operation in progress, one step of the sequencer. -/
theorem test_tick : ends (step (accept 0x1#4 0 3 0 0x00 0 t0)) (fun t =>
    t.ph == .dread && t.ca == 0x80001800) := by decide
/-- Another agent clears `CA[31]` before a write's data cycle: refused (assumption 11). -/
theorem test_disabled_write : refuses (exec (.writeDword 0 3 0 0x10 1)
    { t0 with gaps := [[], [.agent (.portWrite 0x0CF8 0x00001810)]] }) = true := by decide

/-! ### Witnesses: the hypotheses of each statement can be met together

Each theorem names the statement; `t0` and `received` are the states above. -/

/-- `EncodeOfDecodeIsIdentity`, `StepRunsTheDecodedOperation` (the decoded word and the idle machine). -/
theorem witness_decoded_word : decode 0x2000180400000005#64 = .instr (.writeWord 0 3 0 0x04 0x0005) ∧
    decodeTableWord 64 0x2000180400000005 = some (.writeWord 0 3 0 0x04 0x0005) ∧
    { t0 with inbox := [.command 0x2000180400000005#64] }.ph = .idle ∧ t0.inbox = [] := by decide
/-- `OpcodeTableDecidesDecoding`: a word and the row it selects. -/
theorem witness_OpcodeTable : rowReadWord ∈ opcodeTable ∧ rowReadWord.selects 0x1000180000000000#64 = true := by decide
/-- `ReservedOpcodesAreRefused`, at the smallest and the largest reserved opcode. -/
theorem witness_ReservedOpcodes : opcOf 0x0#64 ∈ reservedOpcodes ∧ opcOf 0xFFFFFFFFFFFFFFFF#64 ∈ reservedOpcodes ∧
    { t0 with inbox := [.command 0x0#64] }.ph = .idle := by decide
/-- `ReservedFieldsAreRefused`: one word for each of the four clauses, with one bit set. -/
theorem witness_ReservedFields :
    (opcOf 0x4100000000000000#64 ∈ [0x1#4, 0x2#4, 0x3#4, 0x4#4] ∧ rsvOf 0x4100000000000000#64 ≠ 0#4) ∧
    (opcOf 0x3000000080000000#64 ∈ [0x1#4, 0x3#4] ∧ dataOf 0x3000000080000000#64 ≠ 0#32) ∧
    (opcOf 0x2000000000010000#64 = 0x2#4 ∧ dataHiOf 0x2000000000010000#64 ≠ 0#16) ∧
    (opcOf 0x9800000000000000#64 ∈ [0x8#4, 0x9#4] ∧ formatFZeroOf 0x9800000000000000#64 ≠ 0#60) := by decide
/-- `AssemblerEmitsOnlyLinesInRange`: lines at every limit are assembled, and one above each limit is not. -/
theorem witness_Assembler : assemble (.writeDword 255 31 7 255 0xFFFFFFFF) = some 0x40FFFFFFFFFFFFFF#64 ∧
    assemble (.writeWord 255 31 7 255 0xFFFF) = some 0x20FFFFFF0000FFFF#64 ∧
    [AsmLine.readWord 256 31 7 255, .readDword 255 32 7 255, .readWord 255 31 8 255, .readDword 255 31 7 256,
      .writeWord 255 31 7 255 0x10000, .writeDword 255 31 7 255 0x100000000].map assemble =
        List.replicate 6 none := by decide
/-- `AddressWordIsConcatenation`, `LowOffsetBitsAreIgnored`: two offsets with one address word, and with one lane. -/
theorem witness_low_bits : addressWord 0 3 0 0x10 = addressWord 0 3 0 0x13 ∧
    (0x10#8).extractLsb' 2 6 = (0x13#8).extractLsb' 2 6 ∧ (0x12#8).extractLsb' 1 7 = (0x13#8).extractLsb' 1 7 := by decide
/-- `LaneShiftMaskReadAndMerge`, `WriteWordPreservesTheOtherLane`: offsets of both lanes, and an odd one. -/
theorem witness_lanes : (0xFD#8).getLsbD 1 = false ∧ (0xFE#8).getLsbD 1 = true ∧ (0xFF#8).getLsbD 0 = true := by decide
/-- `ReadDwordMeaning`, `ReadWordMeaning`, `WriteDwordMeaning`, `WriteWordMeaning`, `WriteWordPreservesTheOtherLane`,
`ReadAfterWriteUnderRamTarget`, `LanesAndBytesAreLittleEndian`, `ConfigSpaceFrame`, `RamTargetIsAStore`,
`StepsOfASequencerMakeTheOperation`, `StatusDoesNotAffectTheNextCommand`, `CodecFrame`,
`EveryStepKeepsTheInvariant`, `StepsDoNotFault`: a legal, idle, quiet state with the function present, and the register
values of the worked examples. -/
theorem witness_t0 : t0.Inv ∧ t0.ph = .idle ∧ t0.Quiet 5 ∧ t0.RamPresent (operandSel 0 3 0 0x10) ∧
    t0.RamPresent (operandSel 0 3 0 0xFF) ∧ read32 t0.cs (cfgBase ⟨0, 3, 0, 0⟩) = 0x56781234#32 ∧
    read32 t0.cs (cfgBase ⟨0, 3, 0, 1⟩) = 0x02900000#32 ∧ read32 t0.cs (cfgBase ⟨0, 3, 0, 4⟩) = 0x0000C001#32 := by decide
/-- The four `Meaning` statements and `RamTargetIsAStore`: a function that is absent; two registers that differ. -/
theorem witness_absent : targetAnswer (operandSel 255 31 7 0xFF) t0 = none ∧ t0.target = .ram ∧
    (operandSel 0 4 0 0).bdf ∉ t0.present ∧ (operandSel 0 3 0 0x0) ≠ (operandSel 0 3 0 0x4) := by decide
/-- `ReadDwordMeaning`: the device changes the register before the data read. -/
theorem witness_changed_before_read : { t0 with gaps := [[], [.agent (.csChange (operandSel 0 3 0 0x10) 7)]] }.Inv ∧
    { t0 with gaps := [[], [.agent (.csChange (operandSel 0 3 0 0x10) 7)]] }.RamPresent (operandSel 0 3 0 0x10) := by
  decide
/-- `ExclusiveUseCompletesWithTheRecord`, `UnderExclusiveUseNoOperationIsRefused`, `WriteWordPreservesTheOtherLane`: gaps
that are not empty. -/
theorem witness_exclusive :
    { t0 with gaps := [[.command 0x8000000000000000#64], [.agent (.csChange ⟨0, 3, 0, 0⟩ 1), .read .busy],
      [.write (.fLen 1)]] }.ExclusivePorts 3 ∧
    { t0 with gaps := [[.command 0x8000000000000000#64]] }.Inv := by decide
/-- `AddressRewrittenInsideAnOperation`, `AddressRewrittenBeforeTheWriteBack`: both cases of the rewritten value, under
`RamTarget`, and a register other than the one meant. -/
theorem witness_address_rewritten :
    { t0 with gaps := [[], [.agent (.portWrite 0x0CF8 0x80001810)], []] }.gaps =
      [] :: [.agent (.portWrite t0.addrPort 0x80001810)] :: [] :: [] ∧
    { t0 with gaps := [[], [], [.agent (.portWrite 0x0CF8 0x80001810)]] }.Inv ∧
    t0.RamPresent (caSelect 0x80001810) ∧ operandSel 0 3 0 0x04 ≠ caSelect 0x80001810 ∧
    caEnabled 0x80001810 = true ∧ caEnabled 0x7FFFFFFF = false := by decide
/-- `UpdateBetweenFetchAndWriteBackIsLost`, `ResetAbandonsTheOperation`: the four schedules. -/
theorem witness_schedules : { t0 with gaps := [[], [], [.agent (.csChange (operandSel 0 3 0 0x04) 7)]] }.Inv ∧
    { t0 with gaps := [[.reset]] }.ph = .idle ∧ { t0 with gaps := [[], [.reset]] }.ph = .idle ∧
    { t0 with gaps := [[], [], [.reset]] }.ph = .idle := by decide
/-- `PortCyclesOfOtherAgents`: the ports differ, the address register enabled and not, and a third port number. -/
theorem witness_ports : { t0 with ca := 0x80001800 }.addrPort ≠ { t0 with ca := 0x80001800 }.dataPort ∧
    caEnabled { t0 with ca := 0x80001800 }.ca = true ∧ caEnabled t0.ca = false ∧ (0x0CF9#16) ≠ t0.addrPort ∧
    (0x0CF9#16) ≠ t0.dataPort := by decide
/-- `PseudoInstructions`, `PseudoInstructionsAmongOtherCommands`: the premises at a dword-aligned offset, and an absent
function for `PROBE`. -/
theorem witness_pseudo : t0.Inv ∧ t0.Quiet 7 ∧ t0.RamPresent (operandSel 0 3 0 0xFC) ∧ (0xFC#8).extractLsb' 0 2 = 0#2 ∧
    targetAnswer ⟨0, 4, 0, 0⟩ t0 = none := by decide
/-- `WaitingClientGetsTheUnit`: an operation in progress before and after its address cycle, with something in the gaps. -/
theorem witness_waiting :
    { accept 0x2#4 0 3 0 0x04 5 t0 with gaps := [[.read .busy], [.command 0x8000000000000000#64]] }.Inv ∧
    (∀ g ∈ [[Input.read .busy], [.command 0x8000000000000000#64]], ∀ x ∈ g, x.keepsPorts = true) ∧
    { t0 with op := 0x2#4, ph := .dread, ca := 0x80001804 }.Inv ∧ caEnabled 0x80001804 = true := by decide
/-- `BusyUnitAcceptsNoCommand`, `OperationInProgressTerminates`, `FailingCommandChangesOnlyItsStatus` (its last clause):
every phase of an operation in progress; a legal word of unit CSA, and an illegal one of each unit. -/
theorem witness_busy : (accept 0x2#4 0 3 0 0x04 5 t0).CsaOk ∧ (accept 0x2#4 0 3 0 0x04 5 t0).ph = .addr ∧
    (accept 0x2#4 0 3 0 0x04 5 t0).Quiet 3 ∧ { t0 with op := 0x2#4, ph := .dread, ca := 0x80001804 }.CsaOk ∧
    { t0 with op := 0x2#4, ph := .dwrite, ca := 0x80001804 }.CsaOk ∧ caEnabled 0x80001804 = true ∧
    decode 0x2000180400000005#64 = .instr (.writeWord 0 3 0 0x04 0x0005) ∧ (0x2000180400000005#64).getLsbD 63 = false ∧
    decode 0xF000000000000000#64 = .illegal (.reservedOpcode 15#4) ∧ (0xF000000000000000#64).getLsbD 63 = true ∧
    decode 0x0000000000000000#64 = .illegal (.reservedOpcode 0#4) := by decide
/-- `BusyUnitAcceptsNoCommand`: the step of a busy unit does answer a next state. -/
theorem witness_busy_steps : ends (step (accept 0x2#4 0 3 0 0x04 5 t0)) (fun t => t.ph == .dread) := by decide
/-- `ToBytesMeaning`, `FrameRoundTrip`: a frame at the limit, one that disagrees with its count, one above the limit,
the worked example. -/
theorem witness_frames : { t0 with fLen := 1454, fPcnt := 1454 }.FrameOk ∧ t0.FrameOk ∧
    ({ t0 with fLen := 1454, fPcnt := 1453 }.fLen.toNat ≠ { t0 with fLen := 1454, fPcnt := 1453 }.fPcnt.toNat) ∧
    1454 < { t0 with fLen := 1455, fPcnt := 1455 }.fLen.toNat ∧
    e2.payByte 0 = 0xDE#8 ∧ e2.payByte 1 = 0xAD#8 ∧ e2.payByte 2 = 0x42#8 ∧ e2.fLen = 3#16 ∧ e2.fPcnt = 3#11 := by decide
/-- `AbstractFrameRoundTrip`: a well-formed frame as a value. -/
theorem witness_abstract_frame : Frame.WellFormed ⟨#v[1, 2, 3, 4, 5, 6], #v[6, 5, 4, 3, 2, 1], 2, [0x11, 0x22]⟩ := by
  decide
/-- `FromBytesMeaning`: a good preamble, then the smallest buffer that decodes and the buffer of the worked example. -/
theorem witness_good_buffers : badPreamble (received (hdr ++ [0x00, 0x00])).buffer = false ∧
    (received (hdr ++ [0x00, 0x00])).blen.toNat = 22 ∧ fbLength (received (hdr ++ [0x00, 0x00])) = 0 ∧
    (received (hdr ++ [0x00, 0x01, 0x99])).blen = 23#11 ∧
    (List.range 23).map (received (hdr ++ [0x00, 0x01, 0x99])).fbByte = hdr ++ [0x00, 0x01, 0x99] := by decide
/-- `FromBytesMeaning`, `FromBytesOutcomeByLength`: a length field of 1454 in a buffer one byte too short, and of 1455. -/
theorem witness_length_limits : fbLength { received (hdr ++ [0x05, 0xAE]) with blen := 1475 } = 1454 ∧
    fbLength { received (hdr ++ [0x05, 0xAE]) with blen := 1476 } = 1454 ∧
    fbLength { received (hdr ++ [0x05, 0xAF]) with blen := 1504 } = 1455 := by decide
/-- `FromBytesMeaning`, `FromBytesOutcomeByLength`: a bad byte at the last index that is examined, for both lengths. -/
theorem witness_bad_preamble : badByteBelow (received (hdr.set 6 0x55)) 7 ∧ fbBadPreamble (received [0x00]) ∧
    badByteBelow (received [0x00]) (received [0x00]).blen.toNat :=
  ⟨⟨6, by decide, by decide⟩, ⟨0, by decide, by decide⟩, ⟨0, by decide, by decide⟩⟩
/-- `FromBytesMeaning`, `FromBytesOutcomeByLength`: no bad byte, in a buffer of 0, 1, 6, 7 and 21 bytes. -/
theorem witness_no_bad_preamble : ∀ n ∈ [0, 1, 6, 7, 21], badPreamble (received (hdr ++ [0x00])).buffer = false ∧
    badPreamble (received ((hdr ++ [0x00]).take n)).buffer = false ∧
    (received ((hdr ++ [0x00]).take n)).blen.toNat = n := by decide
/-- `DecodedFramesAreWellFormed`: a decode that succeeds. -/
theorem witness_decoded_frame : ends (exec .fromBytes (received (hdr ++ [0x00, 0x00]))) (fun t => t.fcSt == .ok) := by
  decide
/-- `DelimiterAndTrailerAreNotExamined`: two buffers that differ in the delimiter and in the trailer. -/
theorem witness_delimiter : 22 + lengthField (hdr ++ [0x00, 0x00]) ≤ (hdr ++ [0x00, 0x00]).length ∧
    22 + lengthField (hdr ++ [0x00, 0x00]) ≤ (hdr.set 7 0x00 ++ [0x00, 0x00, 0xDE]).length ∧
    ∀ i, i < 22 → i ≠ 7 → byteAt (hdr ++ [0x00, 0x00]) i = byteAt (hdr.set 7 0x00 ++ [0x00, 0x00, 0xDE]) i := by decide
/-- `CodecDependsOnItsInputsAlone`: two states that differ outside unit FC. -/
theorem witness_sameFcInputs : sameFcInputs e2 { e2 with rd := 7, ca := 0x80001804 } := ⟨rfl, rfl, rfl, rfl⟩
/-- `FailingCommandChangesOnlyItsStatus`: both operations of unit FC can fail. -/
theorem witness_failing : ends (exec .toBytes { t0 with fLen := 1 }) (fun t => t.fcSt != .ok) ∧
    ends (exec .fromBytes t0) (fun t => t.fcSt != .ok) := by decide
/-- `ClientReads`, `ClientWritesOneByteOrRegister`, `ResetGivesIdleAndOk`: an idle state with each input offered, at the
last index. -/
theorem witness_inputs : { t0 with inbox := [.read (.fb 1503)] }.ph = .idle ∧
    { t0 with inbox := [.write (.fb 1503 1), .write (.fPay 1453 1), .write (.fDst 5 1), .write (.fSrc 5 1),
      .write (.fLen 0xFFFF), .write (.fPcnt 1454), .write (.blen 1504), .reset] }.Inv := by decide
/-- `EveryStepKeepsTheInvariant`: a step of a legal state that answers a next state. -/
theorem witness_step : ends (step { t0 with inbox := [.command 0x2000180400000005#64] }) (fun t => t.csaSt == .ok) := by
  decide
/-- `StepsDoNotFault`: a legal state whose step is refused. -/
theorem witness_refused : { t0 with op := 0x4#4, ph := .dwrite, ca := 0 }.Inv ∧
    refuses (step { t0 with op := 0x4#4, ph := .dwrite, ca := 0 }) = true := by decide

end Sys2Proof.Tests
end

section
/-! PROOFS. The operations of unit CSA with nothing in their gaps, one cycle at a time, and the bytes of memory they
change. -/

namespace Sys2Proof.Machine

section QuietCycles

variable {bus : BitVec 8} {dev : BitVec 5} {fn : BitVec 3} {off : BitVec 8} {s : State}

/-- Gaps that are quiet stay so when fewer of them are looked at. -/
theorem quiet_mono {m n : Nat} (hmn : m ≤ n) (hq : s.Quiet n) : s.Quiet m := fun g hg =>
  hq g (List.take_subset_take_left s.gaps hmn hg)

/-- The address cycle of an accepted command in a quiet gap; the sequencer goes on from the phase after it (R110). -/
theorem perform_quiet {op : BitVec 4} {wd : Dword} {p : Phase} {n : Nat} (ho : afterAddr op = some p)
    (hp : s.ph = .idle) (hq : s.Quiet (n + 1)) :
    perform (n + 1) op bus dev fn off wd s = runTicks n
      { s with
        op := op, bus := bus, dev := dev, fn := fn, off := off, wd := wd, ph := p
        ca := addressWord bus dev fn off
        trace := s.trace ++ [⟨.csa, .aw (addressWord bus dev fn off)⟩]
        gaps := s.gaps.drop 1 } := by
  rw [perform, if_pos hp, runTicks, tick_accept ho (take_one_of_take (by omega) hq), andThen_next]

/-- While an address word stands in `CA`, the data port returns the register its operands name (R53, R55); the gaps
still to come take no part. -/
theorem dataPortValue_addressWord (hc : s.ca = addressWord bus dev fn off) (gs : List (List Input)) :
    dataPortValue { s with gaps := gs } = cfgRead (operandSel bus dev fn off) s := by
  rw [dataPortValue_enabled (by rw [hc, caEnabled_addressWord]), hc, caSelect_addressWord]
  rfl

/-- The data cycle of `READ_DWORD` (R111) in a quiet gap. -/
theorem tick_readDword_quiet (hp : s.ph = .dread) (ho : s.op = opReadDword) (hc : s.ca = addressWord bus dev fn off)
    (hq : s.Quiet 1) :
    tick s = .next
      { s with
        rd := cfgRead (operandSel bus dev fn off) s, ph := .idle, csaSt := .ok
        trace := s.trace ++ [⟨.csa, .dr (cfgRead (operandSel bus dev fn off) s)⟩]
        free := s.free + 1, gaps := s.gaps.drop 1 } := by
  rw [tick_quiet (by simp [hp]) hq, portCycle_dread_readDword (s := { s with gaps := s.gaps.drop 1 }) hp ho,
    portReadData, dataPortValue_addressWord hc]
  rfl

/-- The data cycle of `READ_WORD` (R113) in a quiet gap. -/
theorem tick_readWord_quiet (hp : s.ph = .dread) (ho : s.op = opReadWord) (hc : s.ca = addressWord bus dev fn off)
    (hq : s.Quiet 1) :
    tick s = .next
      { s with
        rd := (laneRead (cfgRead (operandSel bus dev fn off) s) s.off).setWidth 32, ph := .idle, csaSt := .ok
        trace := s.trace ++ [⟨.csa, .dr (cfgRead (operandSel bus dev fn off) s)⟩]
        free := s.free + 1, gaps := s.gaps.drop 1 } := by
  rw [tick_quiet (by simp [hp]) hq, portCycle_dread_readWord (s := { s with gaps := s.gaps.drop 1 }) hp ho,
    portReadData, dataPortValue_addressWord hc]
  rfl

/-- The fetch of `WRITE_WORD` (R114) in a quiet gap. -/
theorem tick_fetch_quiet (hp : s.ph = .dread) (ho : s.op = opWriteWord) (hc : s.ca = addressWord bus dev fn off)
    (hq : s.Quiet 1) :
    tick s = .next
      { s with
        tmp := cfgRead (operandSel bus dev fn off) s, ph := .dwrite
        trace := s.trace ++ [⟨.csa, .dr (cfgRead (operandSel bus dev fn off) s)⟩]
        free := s.free + 1, gaps := s.gaps.drop 1 } := by
  rw [tick_quiet (by simp [hp]) hq, portCycle_dread_writeWord (s := { s with gaps := s.gaps.drop 1 }) hp ho,
    portReadData, dataPortValue_addressWord hc]
  rfl

/-- The last cycle of a write (R112, R114) in a quiet gap: the register its operands name takes the value. -/
theorem tick_write_quiet {v : Dword} (hp : s.ph = .dwrite) (hv : writeValue s = some v)
    (hc : s.ca = addressWord bus dev fn off) (hq : s.Quiet 1) :
    tick s = .next
      { cfgWrite (operandSel bus dev fn off) v s with
        ph := .idle, csaSt := .ok
        trace := s.trace ++ [⟨.csa, .dw v⟩], gaps := s.gaps.drop 1 } := by
  rw [tick_quiet (by simp [hp]) hq, portCycle_dwrite (s := { s with gaps := s.gaps.drop 1 }) hp hv (by simp [hc]),
    ← caSelect_addressWord, ← hc]
  rfl

end QuietCycles

section QuietOperations

variable (bus : BitVec 8) (dev : BitVec 5) (fn : BitVec 3) (off : BitVec 8) {s : State}

/-- R111 with nothing in the gaps: the state `READ_DWORD` leaves. -/
theorem exec_readDword_quiet (hp : s.ph = .idle) (hq : s.Quiet 2) :
    exec (.readDword bus dev fn off) s = .next
      { s with
        op := opReadDword, bus := bus, dev := dev, fn := fn, off := off, wd := 0#32
        ca := addressWord bus dev fn off
        rd := cfgRead (operandSel bus dev fn off) s
        csaSt := .ok
        trace := s.trace ++ [⟨.csa, .aw (addressWord bus dev fn off)⟩,
          ⟨.csa, .dr (cfgRead (operandSel bus dev fn off) s)⟩]
        free := s.free + 1
        gaps := s.gaps.drop 2 } := by
  rw [exec, execReadDword, perform_quiet afterAddr_readDword hp hq, runTicks,
    tick_readDword_quiet rfl rfl rfl (take_drop_of_take (by omega) hq), andThen_next, runTicks]
  simp [hp, cfgRead, targetAnswer]

/-- R113 with nothing in the gaps: the state `READ_WORD` leaves. -/
theorem exec_readWord_quiet (hp : s.ph = .idle) (hq : s.Quiet 2) :
    exec (.readWord bus dev fn off) s = .next
      { s with
        op := opReadWord, bus := bus, dev := dev, fn := fn, off := off, wd := 0#32
        ca := addressWord bus dev fn off
        rd := (laneRead (cfgRead (operandSel bus dev fn off) s) off).setWidth 32
        csaSt := .ok
        trace := s.trace ++ [⟨.csa, .aw (addressWord bus dev fn off)⟩,
          ⟨.csa, .dr (cfgRead (operandSel bus dev fn off) s)⟩]
        free := s.free + 1
        gaps := s.gaps.drop 2 } := by
  rw [exec, execReadWord, perform_quiet afterAddr_readWord hp hq, runTicks,
    tick_readWord_quiet rfl rfl rfl (take_drop_of_take (by omega) hq), andThen_next, runTicks]
  simp [hp, cfgRead, targetAnswer]

/-- R112 with nothing in the gaps: the state `WRITE_DWORD` leaves. -/
theorem exec_writeDword_quiet (w : Dword) (hp : s.ph = .idle) (hq : s.Quiet 2) :
    exec (.writeDword bus dev fn off w) s = .next
      { cfgWrite (operandSel bus dev fn off) w s with
        op := opWriteDword, bus := bus, dev := dev, fn := fn, off := off, wd := w
        ca := addressWord bus dev fn off
        csaSt := .ok
        trace := s.trace ++ [⟨.csa, .aw (addressWord bus dev fn off)⟩, ⟨.csa, .dw w⟩]
        gaps := s.gaps.drop 2 } := by
  rw [exec, execWriteDword, perform_quiet afterAddr_writeDword hp hq, runTicks,
    tick_write_quiet rfl (writeValue_writeDword rfl) rfl (take_drop_of_take (by omega) hq), andThen_next, runTicks]
  simp [hp, cfgWrite, storeTakes]

/-- R114 with nothing in the gaps: the state `WRITE_WORD` leaves. -/
theorem exec_writeWord_quiet (v : Half) (hp : s.ph = .idle) (hq : s.Quiet 3) :
    exec (.writeWord bus dev fn off v) s = .next
      { cfgWrite (operandSel bus dev fn off) (laneMerge (cfgRead (operandSel bus dev fn off) s) off v) s with
        op := opWriteWord, bus := bus, dev := dev, fn := fn, off := off, wd := v.setWidth 32
        ca := addressWord bus dev fn off
        tmp := cfgRead (operandSel bus dev fn off) s
        csaSt := .ok
        trace := s.trace ++ [⟨.csa, .aw (addressWord bus dev fn off)⟩,
          ⟨.csa, .dr (cfgRead (operandSel bus dev fn off) s)⟩,
          ⟨.csa, .dw (laneMerge (cfgRead (operandSel bus dev fn off) s) off v)⟩]
        free := s.free + 1
        gaps := s.gaps.drop 3 } := by
  rw [exec, execWriteWord, perform_quiet afterAddr_writeWord hp hq, runTicks,
    tick_fetch_quiet rfl rfl rfl (take_drop_of_take (by omega) hq), andThen_next, runTicks,
    tick_write_quiet rfl (writeValue_writeWord rfl) rfl ?_, andThen_next, runTicks]
  · simp [hp, cfgWrite, storeTakes, cfgRead, targetAnswer]
  · exact take_drop_of_take (n := 2) (by omega) (take_drop_of_take (by omega) hq)

end QuietOperations

section StoreBytes

variable {s : State} {r : CfgSel}

/-- A configuration write leaves every byte of the store outside the four of its register. -/
theorem csByte_cfgWrite_outside (v : Dword) {a : Nat} (hm : Memory.wf zeroDflt Config.csSize s.cs = true)
    (ha : ¬ (cfgBase r ≤ a ∧ a < cfgBase r + 4)) : (cfgWrite r v s).csByte a = s.csByte a := by
  unfold State.csByte
  rw [cfgWrite_cs]
  split
  · rw [find_write32 v a hm (cfgBase_lt r), if_neg (by omega), if_neg (by omega), if_neg (by omega),
      if_neg (by omega)]
  · rfl

/-- A configuration write to a present function of `RamTarget` puts the dword in its register's place, byte `i` being
bits `8i+7 : 8i` (R57; the place is the model's, log 27). -/
theorem csByte_cfgWrite_ram (v : Dword) {i : Nat} (hm : Memory.wf zeroDflt Config.csSize s.cs = true)
    (hr : s.RamPresent r) (hi : i < 4) : (cfgWrite r v s).csByte (cfgBase r + i) = v.extractLsb' (8 * i) 8 := by
  obtain ⟨htarget, hpresent⟩ := hr
  unfold State.csByte
  rw [cfgWrite_cs, if_pos (storeTakes_ram htarget hpresent), find_write32 v _ hm (cfgBase_lt r)]
  interval_cases i <;> simp

end StoreBytes

/-- Settles O18: a quiet read leaves the three memories as they are; a quiet write is, for the memories, the one
configuration write of its last cycle. -/
theorem configSpaceFrame : Obligations.ConfigSpaceFrame := by
  unfold Obligations.ConfigSpaceFrame
  intro bus dev fn off v w s hinv hp hq
  obtain ⟨⟨hm, -, -⟩, -, -, -⟩ := hinv
  have hq2 : s.Quiet 2 := quiet_mono (by omega) hq
  simp only [caSelect_addressWord]
  refine ⟨⟨_, exec_readDword_quiet bus dev fn off hp hq2, fun a => ⟨rfl, rfl, rfl⟩⟩,
    ⟨_, exec_readWord_quiet bus dev fn off hp hq2, fun a => ⟨rfl, rfl, rfl⟩⟩,
    ⟨_, exec_writeDword_quiet bus dev fn off w hp hq2, fun a => ⟨rfl, rfl⟩, ?_, ?_⟩,
    ⟨_, exec_writeWord_quiet bus dev fn off v hp hq, fun a => ⟨rfl, rfl⟩, ?_, ?_⟩⟩
  · exact fun a ha => csByte_cfgWrite_outside w hm ha
  · exact fun hr i hi => csByte_cfgWrite_ram w hm hr hi
  · exact fun a ha => csByte_cfgWrite_outside _ hm ha
  · exact fun hr i hi => csByte_cfgWrite_ram _ hm hr hi

end Sys2Proof.Machine
end

section
/-! PROOFS. The encoding: what the decoder answers against the rows of the opcode table, what the machine does with a
word that is no operation, and the address word and the lane as functions of the operands. -/

namespace Sys2Proof.Machine

/-! ### The decoder and the opcode table -/

section Decoder

variable {w : CommandWord} {i : Instr} {r : TableRow}

/-- The row of the decoded operation is one the word selects (R83). -/
theorem row_selects_of_decode (h : decode w = .instr i) : i.row.selects w = true := by
  rcases decode_cases h with ⟨ho, hr, hd, rfl⟩ | ⟨ho, hr, hd, rfl⟩ | ⟨ho, hr, hd, rfl⟩ | ⟨ho, hr, rfl⟩ |
    ⟨ho, hz, rfl⟩ | ⟨ho, hz, rfl⟩
  · exact (rowReadWord_selects w).2 ⟨ho, hr, hd⟩
  · exact (rowWriteWord_selects w).2 ⟨ho, hr, hd⟩
  · exact (rowReadDword_selects w).2 ⟨ho, hr, hd⟩
  · exact (rowWriteDword_selects w).2 ⟨ho, hr⟩
  · exact (rowToBytes_selects w).2 ⟨ho, hz⟩
  · exact (rowFromBytes_selects w).2 ⟨ho, hz⟩

/-- A word that selects a row of the table decodes to an operation of that row (R83). -/
theorem decode_of_selects (hr : r ∈ opcodeTable) (h : r.selects w = true) :
    ∃ i : Instr, decode w = .instr i ∧ i.row = r := by
  simp only [opcodeTable, List.mem_cons, List.not_mem_nil, or_false] at hr
  rcases hr with rfl | rfl | rfl | rfl | rfl | rfl
  · obtain ⟨ho, hz, hd⟩ := (rowReadWord_selects w).1 h
    exact ⟨_, decode_readWord ho hz hd, rfl⟩
  · obtain ⟨ho, hz, hd⟩ := (rowWriteWord_selects w).1 h
    exact ⟨_, decode_writeWord ho hz hd, rfl⟩
  · obtain ⟨ho, hz, hd⟩ := (rowReadDword_selects w).1 h
    exact ⟨_, decode_readDword ho hz hd, rfl⟩
  · obtain ⟨ho, hz⟩ := (rowWriteDword_selects w).1 h
    exact ⟨_, decode_writeDword ho hz, rfl⟩
  · obtain ⟨ho, hz⟩ := (rowToBytes_selects w).1 h
    exact ⟨_, decode_toBytes ho hz, rfl⟩
  · obtain ⟨ho, hz⟩ := (rowFromBytes_selects w).1 h
    exact ⟨_, decode_fromBytes ho hz, rfl⟩

theorem selects_iff_decode (hr : r ∈ opcodeTable) :
    r.selects w = true ↔ ∃ i : Instr, decode w = .instr i ∧ i.row = r := by
  refine ⟨decode_of_selects hr, ?_⟩
  rintro ⟨i, hi, rfl⟩
  exact row_selects_of_decode hi

/-- A word decodes to one operation, which has one row (R83). -/
theorem selects_unique {q : TableRow} (hr : r ∈ opcodeTable) (hq : q ∈ opcodeTable) (hrw : r.selects w = true)
    (hqw : q.selects w = true) : r = q := by
  obtain ⟨i, hi, rfl⟩ := decode_of_selects hr hrw
  obtain ⟨j, hj, rfl⟩ := decode_of_selects hq hqw
  have hij : i = j := by simpa [hi] using hj
  rw [hij]

/-- The sixteen opcodes are the six assigned ones and the ten reserved ones (R83). -/
theorem mem_reservedOpcodes_iff : ∀ opc : BitVec 4, opc ∈ reservedOpcodes ↔
    opc ≠ 1#4 ∧ opc ≠ 2#4 ∧ opc ≠ 3#4 ∧ opc ≠ 4#4 ∧ opc ≠ 8#4 ∧ opc ≠ 9#4 := by
  decide

/-- The branch of an assigned opcode never answers that the opcode is reserved. -/
theorem ite_instr_ne_reservedOpcode {c : Prop} [Decidable c] {a : Instr} {o p : BitVec 4} :
    (if c then Decoded.instr a else .illegal (.reservedField o)) ≠ .illegal (.reservedOpcode p) := by
  split <;> simp

/-- The decoder names the opcode as the reason exactly for the ten reserved ones (R83, R87). -/
theorem decode_eq_reservedOpcode_iff (w : CommandWord) :
    decode w = .illegal (.reservedOpcode (opcOf w)) ↔ opcOf w ∈ reservedOpcodes := by
  rw [mem_reservedOpcodes_iff]
  constructor
  · intro h
    refine ⟨?_, ?_, ?_, ?_, ?_, ?_⟩ <;>
    · intro ho
      simp only [decode, ho] at h
      exact ite_instr_ne_reservedOpcode h
  · rintro ⟨h1, h2, h3, h4, h8, h9⟩
    simp only [decode, h1, h2, h3, h4, h8, h9, if_false]

/-- A word some reserved field of whose format is not zero (R88). -/
def HasReservedField (w : CommandWord) : Prop :=
  (opcOf w ∈ [0x1#4, 0x2#4, 0x3#4, 0x4#4] ∧ rsvOf w ≠ 0#4) ∨
    (opcOf w ∈ [0x1#4, 0x3#4] ∧ dataOf w ≠ 0#32) ∨
    (opcOf w = 0x2#4 ∧ dataHiOf w ≠ 0#16) ∨
    (opcOf w ∈ [0x8#4, 0x9#4] ∧ formatFZeroOf w ≠ 0#60)

/-- Whatever the decoder accepts has every reserved field zero (R88). -/
theorem not_hasReservedField_of_decode (h : decode w = .instr i) : ¬ HasReservedField w := by
  unfold HasReservedField
  rcases decode_cases h with ⟨ho, hr, hd, -⟩ | ⟨ho, hr, hd, -⟩ | ⟨ho, hr, hd, -⟩ | ⟨ho, hr, -⟩ | ⟨ho, hz, -⟩ |
    ⟨ho, hz, -⟩
  · simp [ho, hr, hd]
  · simp [ho, hr, hd]
  · simp [ho, hr, hd]
  · simp [ho, hr]
  · simp [ho, hz]
  · simp [ho, hz]

theorem decode_illegal_of_hasReservedField (h : HasReservedField w) : ∃ why, decode w = .illegal why := by
  cases hd : decode w with
  | instr i => exact absurd h (not_hasReservedField_of_decode hd)
  | illegal why => exact ⟨why, rfl⟩

end Decoder

/-- The idle machine offered a word that is no operation refuses it: the status of the unit bit 63 names, and nothing
else (R87, R88). -/
theorem step_illegal {w : CommandWord} {why : IllegalWord} {rest : List Input} {s : State} (hp : s.ph = .idle)
    (hi : s.inbox = .command w :: rest) (hw : decode w = .illegal why) :
    step s = .next (afterRefusal w rest s) := by
  rw [step, if_pos hp, hi]
  simp only [takeInput, hw, refuseWord_eq, afterRefusal]

/-! ### The address word and the lane -/

section Operands

variable (bus : BitVec 8) (dev : BitVec 5) (fn : BitVec 3) (off : BitVec 8)

/-- R85: the bitwise OR of the fields puts them side by side. -/
theorem addressWord_eq_append : addressWord bus dev fn off =
    (1#1 ++ 0#7 ++ bus ++ dev ++ fn ++ off.extractLsb' 2 6 ++ 0#2 : BitVec (1 + 7 + 8 + 5 + 3 + 6 + 2)) := by
  apply BitVec.eq_of_getLsbD_eq; intro i hi
  rw [getLsbD_addressWord _ _ _ _ _ hi]
  simp only [BitVec.getLsbD_append]
  interval_cases i <;> simp

/-- Bits 55:32 of a word of format C, but for the low two offset bits, are bits 23:0 of its address word (R97). -/
theorem extract_formatC_masked (opc : BitVec 4) (data : Dword) :
    (formatC opc bus dev fn off data).extractLsb' 32 24 &&& 0xFFFFFC#24 =
      (addressWord bus dev fn off).extractLsb' 0 24 := by
  apply BitVec.eq_of_getLsbD_eq; intro i hi
  rw [formatC, addressWord_eq_append]
  simp only [BitVec.getLsbD_and, BitVec.getLsbD_extractLsb', BitVec.getLsbD_append]
  interval_cases i <;> simp

/-- The lane goes by `off[1]` (R86), which bits 7:1 of the offset hold. -/
theorem getLsbD_one_congr {off off' : BitVec 8} (h : off.extractLsb' 1 7 = off'.extractLsb' 1 7) :
    off.getLsbD 1 = off'.getLsbD 1 := by
  simpa using congrArg (fun x => x.getLsbD 0) h

end Operands

/-- Settles O4: the word of each row decodes to an operation of that row, and a word decodes to one operation only. -/
theorem opcodeTableDecidesDecoding : Obligations.OpcodeTableDecidesDecoding := by
  unfold Obligations.OpcodeTableDecidesDecoding
  refine ⟨fun w r hr => selects_iff_decode hr, fun w r q hr hq => selects_unique hr hq, ?_,
    fun w => (decode_eq_reservedOpcode_iff w).symm⟩
  intro bus dev fn off v x
  simp only [encode, opcOf_formatC, opcOf_formatF, and_self]

/-- Settles O5: the decoder names the opcode as the reason, and the step refuses the word. -/
theorem reservedOpcodesAreRefused : Obligations.ReservedOpcodesAreRefused := by
  unfold Obligations.ReservedOpcodesAreRefused
  intro w rest s ho hp hi
  exact step_illegal hp hi ((decode_eq_reservedOpcode_iff w).2 ho)

/-- Settles O6: no accepted word has a reserved field that is not zero, and the step refuses the others. -/
theorem reservedFieldsAreRefused : Obligations.ReservedFieldsAreRefused := by
  unfold Obligations.ReservedFieldsAreRefused
  intro w rest s hf hp hi
  obtain ⟨why, hw⟩ := decode_illegal_of_hasReservedField hf
  exact step_illegal hp hi hw

/-- Settles O8: each field stands in the address word as the register selection of R55 reads it back. -/
theorem addressWordIsConcatenation : Obligations.AddressWordIsConcatenation := by
  unfold Obligations.AddressWordIsConcatenation
  refine ⟨addressWord_eq_append, ?_⟩
  intro bus bus' dev dev' fn fn' off off' h
  have hsel : operandSel bus dev fn off = operandSel bus' dev' fn' off' := by
    rw [← caSelect_addressWord, h, caSelect_addressWord]
  simpa [operandSel] using hsel

/-- Settles O22: the address word takes bits 7:2 of the offset, the lane bit 1. -/
theorem lowOffsetBitsAreIgnored : Obligations.LowOffsetBitsAreIgnored := by
  unfold Obligations.LowOffsetBitsAreIgnored
  intro bus dev fn off off' d v
  refine ⟨fun h => ⟨addressWord_congr bus dev fn off h, operandSel_congr bus dev fn off h⟩, fun h => ?_⟩
  have hlane : off.getLsbD 1 = off'.getLsbD 1 := getLsbD_one_congr h
  simp only [laneShift_eq, laneRead_eq, laneMerge_eq, hlane, and_self]

/-- Settles O3: each example by evaluation, the last sentence bit by bit for every word of format C. -/
theorem workedEncodings : Obligations.WorkedEncodings := by
  unfold Obligations.WorkedEncodings
  refine ⟨?_, ?_, ?_, ?_, ?_, ?_, ?_, ?_, ?_, fun opc bus dev fn off data =>
    extract_formatC_masked bus dev fn off opc data⟩ <;> decide

/-- Settles O9: the shift and the mask go by `off[1]`; the lane read and the merge are the rule's own. -/
theorem laneShiftMaskReadAndMerge : Obligations.LaneShiftMaskReadAndMerge := by
  unfold Obligations.LaneShiftMaskReadAndMerge
  intro off d v
  refine ⟨rfl, fun h => ?_, fun h => ?_, rfl, rfl⟩
  · rw [laneShift_eq, laneMask_eq, h]
    exact ⟨rfl, rfl⟩
  · rw [laneShift_eq, laneMask_eq, h]
    exact ⟨rfl, rfl⟩

end Sys2Proof.Machine
end

section
/-! PROOFS. The four operations of unit CSA, whole (spec/40_config_access.md R111 to R114), what `WRITE_WORD` preserves
(R116), and read after write under `RamTarget` (R117). -/

namespace Sys2Proof.Machine

/-! ### The offset -/

/-- Flipping `off[1]` names the other word of the same register (R55). -/
theorem extractLsb'_xor_two (off : BitVec 8) : (off ^^^ 2#8).extractLsb' 2 6 = off.extractLsb' 2 6 := by
  revert off; decide

theorem getLsbD_one_xor_two (off : BitVec 8) : (off ^^^ 2#8).getLsbD 1 = !off.getLsbD 1 := by
  revert off; decide

/-- An odd offset and the even one below share bits 7:1 (R59). -/
theorem extractLsb'_pred_of_odd (off : BitVec 8) :
    off.getLsbD 0 = true → (off - 1#8).extractLsb' 1 7 = off.extractLsb' 1 7 := by
  revert off; decide

/-- The register goes by bits 7:2 of the offset, which bits 7:1 hold. -/
theorem extractLsb'_two_congr {off off' : BitVec 8} (h : off.extractLsb' 1 7 = off'.extractLsb' 1 7) :
    off.extractLsb' 2 6 = off'.extractLsb' 2 6 := by
  have key : ∀ x : BitVec 8, x.extractLsb' 2 6 = (x.extractLsb' 1 7).extractLsb' 1 6 := by decide
  rw [key off, key off', h]

/-- The even offsets of a register's two words, `4k` and `4k + 2`: their register and their lane. -/
theorem word_offsets (off : BitVec 8) :
    (off &&& 0xFC#8).extractLsb' 2 6 = off.extractLsb' 2 6 ∧ (off &&& 0xFC#8).getLsbD 1 = false ∧
    ((off &&& 0xFC#8) + 2#8).extractLsb' 2 6 = off.extractLsb' 2 6 ∧ ((off &&& 0xFC#8) + 2#8).getLsbD 1 = true := by
  revert off; decide

/-! ### The lane -/

section Lane

variable {off off' : BitVec 8}

theorem laneRead_congr (d : Dword) (h : off.extractLsb' 1 7 = off'.extractLsb' 1 7) :
    laneRead d off = laneRead d off' := by
  rw [laneRead_eq, laneRead_eq, getLsbD_one_congr h]

theorem laneMerge_congr (d : Dword) (v : Half) (h : off.extractLsb' 1 7 = off'.extractLsb' 1 7) :
    laneMerge d off v = laneMerge d off' v := by
  rw [laneMerge_eq, laneMerge_eq, getLsbD_one_congr h]

end Lane

/-- The lane a write replaces reads as the value written. -/
theorem laneRead_laneMerge_same (d : Dword) (off : BitVec 8) (v : Half) : laneRead (laneMerge d off v) off = v := by
  rw [laneRead_eq, laneMerge_eq]
  cases off.getLsbD 1
  · exact BitVec.extractLsb'_append_eq_right
  · exact BitVec.extractLsb'_append_eq_left

/-- The lane a write leaves reads as before (R116). -/
theorem laneRead_laneMerge_other (d : Dword) (off : BitVec 8) (v : Half) :
    laneRead (laneMerge d off v) (off ^^^ 2#8) = laneRead d (off ^^^ 2#8) := by
  rw [laneRead_eq, laneRead_eq, laneMerge_eq, getLsbD_one_xor_two]
  cases off.getLsbD 1
  · exact BitVec.extractLsb'_append_eq_left
  · exact BitVec.extractLsb'_append_eq_right

/-! ### The target -/

section Target

variable {r : CfgSel} {s : State}

/-- Where no device answers, a read gives `P_ABSENT` (R56). -/
theorem cfgRead_of_no_answer (h : targetAnswer r s = none) : cfgRead r s = s.absent := by
  rw [cfgRead, h, Option.getD_none]

/-- A write to a present function of `RamTarget` is a write to the store (R64). -/
theorem cfgWrite_cs_present (v : Dword) (hr : s.RamPresent r) : (cfgWrite r v s).cs = write32 (cfgBase r) v s.cs := by
  rw [cfgWrite_cs, if_pos (storeTakes_ram hr.1 hr.2)]

/-- A write to an absent function leaves the store (R56). -/
theorem cfgWrite_cs_absent (v : Dword) (hr : r.bdf ∉ s.present) : (cfgWrite r v s).cs = s.cs := by
  rw [cfgWrite_cs, storeTakes_absent hr, if_neg Bool.false_ne_true]

/-- A register of `RamTarget` reads as its place in the store was last written, whatever has changed beside it. -/
theorem cfgRead_of_cs_eq_write32 {t : State} (v : Dword) (hi : s.Inv) (hr : s.RamPresent r)
    (htarget : t.target = s.target) (hpresent : t.present = s.present) (hcs : t.cs = write32 (cfgBase r) v s.cs) :
    cfgRead r t = v := by
  obtain ⟨⟨hm, -, -⟩, -, -, -⟩ := hi
  rw [cfgRead_ram (htarget.trans hr.1) (hpresent ▸ hr.2), hcs]
  exact read32_write32_same v hm (cfgBase_lt r)

/-- The store holds in a present register what was last written to it. -/
theorem read32_cfgWrite_same (v : Dword) (hi : s.Inv) (hr : s.RamPresent r) :
    read32 (cfgWrite r v s).cs (cfgBase r) = v := by
  obtain ⟨⟨hm, -, -⟩, -, -, -⟩ := hi
  rw [cfgWrite_cs_present v hr]
  exact read32_write32_same v hm (cfgBase_lt r)

end Target

/-! ### The data cycle after a device's change of the register -/

/-- As `perform_quiet`, where only the first gap is known to be quiet. -/
theorem perform_addressCycle {bus : BitVec 8} {dev : BitVec 5} {fn : BitVec 3} {off : BitVec 8} {s : State}
    {op : BitVec 4} {wd : Dword} {p : Phase} {n : Nat} (ho : afterAddr op = some p) (hp : s.ph = .idle)
    (hq : s.Quiet 1) :
    perform (n + 1) op bus dev fn off wd s = runTicks n
      { s with
        op := op, bus := bus, dev := dev, fn := fn, off := off, wd := wd, ph := p
        ca := addressWord bus dev fn off
        trace := s.trace ++ [⟨.csa, .aw (addressWord bus dev fn off)⟩]
        gaps := s.gaps.drop 1 } := by
  rw [perform, if_pos hp, runTicks, tick_accept ho hq, andThen_next]

/-- `READ_DWORD` returns what `RamTarget` holds at the moment of the data cycle, a change after the address cycle
included (R111). -/
theorem exec_readDword_after_csChange (bus : BitVec 8) (dev : BitVec 5) (fn : BitVec 3) (off : BitVec 8) {s : State}
    {v : Dword} {rest : List (List Input)} (hi : s.Inv) (hp : s.ph = .idle)
    (hr : s.RamPresent (operandSel bus dev fn off))
    (hg : s.gaps = [] :: [.agent (.csChange (operandSel bus dev fn off) v)] :: rest) :
    ∃ t, exec (.readDword bus dev fn off) s = .next t ∧ t.rd = v ∧ t.csaSt = .ok := by
  have hq : s.Quiet 1 := by
    intro g hmem
    simpa [hg] using hmem
  rw [exec, execReadDword, perform_addressCycle afterAddr_readDword hp hq, runTicks,
    tick_after_csChange (r := operandSel bus dev fn off) (x := v) (gs := rest), portCycle_dread_readDword,
    andThen_next, runTicks]
  · refine ⟨_, rfl, ?_, rfl⟩
    rw [setStatus_csa_rd, dataPortValue_enabled, caSelect_addressWord]
    · exact cfgRead_of_cs_eq_write32 v hi hr rfl rfl rfl
    · exact caEnabled_addressWord bus dev fn off
  · rfl
  · rfl
  · simp
  · exact hr.1
  · rw [hg, List.drop_one, List.tail_cons]

/-- Settles O10: the quiet operation's state, field by field; the other clauses read it off. -/
theorem readDwordMeaning : Obligations.ReadDwordMeaning := by
  unfold Obligations.ReadDwordMeaning
  intro bus dev fn off
  refine ⟨⟨opcOf_formatC .., dataOf_formatC ..⟩, fun s hp hq => exec_readDword_quiet bus dev fn off hp hq,
    fun s v rest hi hp hr hg => exec_readDword_after_csChange bus dev fn off hi hp hr hg, ?_, ?_, ?_⟩
  · intro s hp hq habsent
    exact ⟨_, exec_readDword_quiet bus dev fn off hp hq, cfgRead_of_no_answer habsent, rfl⟩
  · intro s off' hp hq h
    refine ⟨_, exec_readDword_quiet bus dev fn off hp hq, ?_⟩
    rw [exec_readDword_quiet bus dev fn off' hp hq, addressWord_congr bus dev fn off' h,
      operandSel_congr bus dev fn off' h]
  · intro s hp hq hr hd
    have hread : cfgRead (operandSel 0 3 0 0x10) s = 0x0000C001#32 := (cfgRead_ram hr.1 hr.2).trans hd
    refine ⟨_, exec_readDword_quiet 0 3 0 0x10 hp hq, ?_, hread⟩
    rw [grewBy, hread]
    rfl

/-- Settles O11: the quiet operation's state is the one configuration write of its last cycle. -/
theorem writeDwordMeaning : Obligations.WriteDwordMeaning := by
  unfold Obligations.WriteDwordMeaning
  intro bus dev fn off v
  refine ⟨⟨opcOf_formatC .., dataOf_formatC ..⟩, fun s hp hq => exec_writeDword_quiet bus dev fn off v hp hq,
    ?_, ?_, ?_, ?_⟩
  · intro s hi hp hq hr
    exact ⟨_, exec_writeDword_quiet bus dev fn off v hp hq,
      cfgRead_of_cs_eq_write32 v hi hr rfl rfl (cfgWrite_cs_present v hr)⟩
  · intro s hp hq _ hr
    exact ⟨_, exec_writeDword_quiet bus dev fn off v hp hq, cfgWrite_cs_absent v hr, rfl⟩
  · intro s off' hp hq h
    refine ⟨_, exec_writeDword_quiet bus dev fn off v hp hq, ?_⟩
    rw [exec_writeDword_quiet bus dev fn off' v hp hq, addressWord_congr bus dev fn off' h,
      operandSel_congr bus dev fn off' h]
  · intro s hi hp hq hr
    refine ⟨_, exec_writeDword_quiet 0 3 0 0x10 0xFFFFFFFF hp hq, rfl, ?_⟩
    exact read32_cfgWrite_same 0xFFFFFFFF#32 hi hr

/-- Settles O12: the quiet operation's state, with the lane `off[1]` names. -/
theorem readWordMeaning : Obligations.ReadWordMeaning := by
  unfold Obligations.ReadWordMeaning
  intro bus dev fn off
  refine ⟨⟨opcOf_formatC .., dataOf_formatC ..⟩, ?_, ?_, ?_, ?_⟩
  · intro s hp hq
    rw [exec_readWord_quiet bus dev fn off hp hq, laneRead_eq, apply_ite (BitVec.setWidth 32)]
    rfl
  · intro s hp hq habsent
    refine ⟨_, exec_readWord_quiet bus dev fn off hp hq, rfl, ?_⟩
    rw [cfgRead_of_no_answer habsent]
  · intro s hp hq hodd
    have heven := extractLsb'_pred_of_odd off hodd
    have hreg := extractLsb'_two_congr heven
    refine ⟨_, exec_readWord_quiet bus dev fn (off - 1#8) hp hq, ?_⟩
    rw [exec_readWord_quiet bus dev fn off hp hq, addressWord_congr bus dev fn (off - 1#8) hreg,
      operandSel_congr bus dev fn (off - 1#8) hreg, laneRead_congr _ heven]
  · intro s hp hq hr hd
    have hread : cfgRead (operandSel 0 3 0 0x02) s = 0x56781234#32 := (cfgRead_ram hr.1 hr.2).trans hd
    refine ⟨_, exec_readWord_quiet 0 3 0 0x02 hp hq, ?_, ?_⟩
    · rw [grewBy, hread]
      rfl
    · rw [hread]
      rfl

/-- Settles O13: the quiet operation's state is the configuration write of the dword merged from the fetched one. -/
theorem writeWordMeaning : Obligations.WriteWordMeaning := by
  unfold Obligations.WriteWordMeaning
  intro bus dev fn off v
  refine ⟨⟨opcOf_formatC .., ?_, ?_⟩, fun s hp hq => exec_writeWord_quiet bus dev fn off v hp hq, ?_, ?_, ?_⟩
  · exact (value16Of_formatC ..).trans (lower_half_value v)
  · exact (dataHiOf_formatC ..).trans (upper_half_zero v)
  · intro s hp hq htarget hr
    exact ⟨_, exec_writeWord_quiet bus dev fn off v hp hq, cfgRead_ram_absent htarget hr,
      cfgWrite_cs_absent _ hr, rfl⟩
  · intro s hp hq hodd
    have heven := extractLsb'_pred_of_odd off hodd
    have hreg := extractLsb'_two_congr heven
    refine ⟨_, exec_writeWord_quiet bus dev fn (off - 1#8) v hp hq, ?_⟩
    rw [exec_writeWord_quiet bus dev fn off v hp hq, addressWord_congr bus dev fn (off - 1#8) hreg,
      operandSel_congr bus dev fn (off - 1#8) hreg, laneMerge_congr _ v heven]
  · intro s hi hp hq hr hd
    have hread : cfgRead (operandSel 0 3 0 0x04) s = 0x02900000#32 := (cfgRead_ram hr.1 hr.2).trans hd
    refine ⟨_, exec_writeWord_quiet 0 3 0 0x04 0x0005 hp hq, ?_, ?_⟩
    · rw [grewBy, hread]
      rfl
    · rw [hread]
      exact read32_cfgWrite_same 0x02900005#32 hi hr

/-! ### Read after write -/

section ReadAfterWrite

variable (bus : BitVec 8) (dev : BitVec 5) (fn : BitVec 3) {off off' : BitVec 8} {s : State}

/-- A quiet `READ_WORD` on any offset of a register returns that offset's lane of it. -/
theorem exec_readWord_rd (hp : s.ph = .idle) (hq : s.Quiet 2) (h : off'.extractLsb' 2 6 = off.extractLsb' 2 6) :
    ∃ u, exec (.readWord bus dev fn off') s = .next u ∧
      u.rd = (laneRead (cfgRead (operandSel bus dev fn off) s) off').setWidth 32 := by
  refine ⟨_, exec_readWord_quiet bus dev fn off' hp hq, ?_⟩
  rw [operandSel_congr bus dev fn off' h]

/-- A quiet `WRITE_WORD` on a present register of `RamTarget`, for the command after it. -/
theorem exec_writeWord_ram (v : Half) {n : Nat} (hi : s.Inv) (hp : s.ph = .idle) (hq : s.Quiet (3 + n))
    (hr : s.RamPresent (operandSel bus dev fn off)) :
    ∃ t, exec (.writeWord bus dev fn off v) s = .next t ∧ t.ph = .idle ∧ t.Quiet n ∧
      cfgRead (operandSel bus dev fn off) t = laneMerge (cfgRead (operandSel bus dev fn off) s) off v :=
  ⟨_, exec_writeWord_quiet bus dev fn off v hp (quiet_mono (by omega) hq), hp, take_drop_of_take le_rfl hq,
    cfgRead_of_cs_eq_write32 _ hi hr rfl rfl (cfgWrite_cs_present _ hr)⟩

/-- A quiet `WRITE_DWORD` on a present register of `RamTarget`, for the command after it. -/
theorem exec_writeDword_ram (w : Dword) {n : Nat} (hi : s.Inv) (hp : s.ph = .idle) (hq : s.Quiet (2 + n))
    (hr : s.RamPresent (operandSel bus dev fn off)) :
    ∃ t, exec (.writeDword bus dev fn off w) s = .next t ∧ t.ph = .idle ∧ t.Quiet n ∧
      cfgRead (operandSel bus dev fn off) t = w :=
  ⟨_, exec_writeDword_quiet bus dev fn off w hp (quiet_mono (by omega) hq), hp, take_drop_of_take le_rfl hq,
    cfgRead_of_cs_eq_write32 w hi hr rfl rfl (cfgWrite_cs_present w hr)⟩

end ReadAfterWrite

/-- Settles O16: each read takes its lane of the dword the write left in the register. -/
theorem readAfterWriteUnderRamTarget : Obligations.ReadAfterWriteUnderRamTarget := by
  unfold Obligations.ReadAfterWriteUnderRamTarget
  intro bus dev fn off v w s hi hp hq hr
  constructor
  · obtain ⟨t, ht, htp, htq, hread⟩ := exec_writeWord_ram bus dev fn v (n := 2) hi hp hq hr
    obtain ⟨u, hu, hurd⟩ := exec_readWord_rd bus dev fn (off := off) (off' := off) htp htq rfl
    obtain ⟨u₀, hu₀, hu₀rd⟩ := exec_readWord_rd bus dev fn hp (quiet_mono (by omega) hq) (extractLsb'_xor_two off)
    obtain ⟨u', hu', hu'rd⟩ := exec_readWord_rd bus dev fn htp htq (extractLsb'_xor_two off)
    refine ⟨t, ht, ⟨u, hu, ?_⟩, u₀, u', hu₀, hu', ?_⟩
    · rw [hurd, hread, laneRead_laneMerge_same]
    · rw [hu'rd, hread, laneRead_laneMerge_other, hu₀rd]
  · obtain ⟨t, ht, htp, htq, hread⟩ := exec_writeDword_ram bus dev fn w (n := 2) hi hp (quiet_mono (by omega) hq) hr
    obtain ⟨hlo, hlo1, hhi, hhi1⟩ := word_offsets off
    obtain ⟨lo, hlor, hlord⟩ := exec_readWord_rd bus dev fn htp htq hlo
    obtain ⟨hiW, hhir, hhird⟩ := exec_readWord_rd bus dev fn htp htq hhi
    refine ⟨t, ht, ⟨_, exec_readDword_quiet bus dev fn off htp htq, hread⟩, ⟨lo, hlor, ?_⟩, hiW, hhir, ?_⟩
    · rw [hlord, hread, laneRead_eq, hlo1]
      rfl
    · rw [hhird, hread, laneRead_eq, hhi1]
      rfl

end Sys2Proof.Machine
end

section
/-! PROOFS. `WRITE_WORD` under exclusive use of the ports (spec/20_memory.md R69): whatever else falls in its gaps, what
it writes goes by what it fetched (spec/40_config_access.md R116). -/

namespace Sys2Proof.Machine

/-! ### What a port cycle changes of unit CSA

Each is the state after the cycle, but for what others can reach without the ports (`SameCsa`). -/

/-- The address cycle, and the phase after it (R52, R110). -/
def afterAddressCycle (p : Phase) (s : State) : State :=
  { s with
    ca := s.addressWord, ph := p
    trace := s.trace ++ [⟨.csa, .aw s.addressWord⟩], gaps := s.gaps.drop 1 }

/-- The fetch of `WRITE_WORD`, of the dword `d` (R53, R114). -/
def afterFetchCycle (d : Dword) (s : State) : State :=
  { s with tmp := d, ph := .dwrite, trace := s.trace ++ [⟨.csa, .dr d⟩], gaps := s.gaps.drop 1 }

/-- The last cycle of a write, of the dword `v` (R54, R112, R114). -/
def afterWriteCycle (v : Dword) (s : State) : State :=
  { s with
    ph := .idle, csaSt := .ok, cfgWrites := s.cfgWrites ++ [⟨caSelect s.ca, v⟩]
    trace := s.trace ++ [⟨.csa, .dw v⟩], gaps := s.gaps.drop 1 }

/-- A change of unit CSA that neither reads nor touches what others can reach keeps two states the same. -/
theorem SameCsa.after {s t u : State} {f : State → State} (st : SameCsa s t) (tu : SameCsa (f t) u)
    (hf : ∀ x y, f (withReachable x y) = withReachable (f x) (f y)) : SameCsa (f s) u := by
  have hst : SameCsa (f s) (f t) := (congrArg f st).trans (hf s t)
  exact hst.trans tu

section ExclusiveCycles

variable {s : State} {n : Nat}

theorem tick_address_exclusive {p : Phase} (h : s.ExclusivePorts (n + 1)) (hp : s.ph = .addr)
    (ho : afterAddr s.op = some p) :
    ∃ t, tick s = .next t ∧ t.ExclusivePorts n ∧ SameCsa (afterAddressCycle p s) t := by
  obtain ⟨u, htick, su, hu, -⟩ := tick_exclusive h (by simp [hp])
  refine ⟨_, htick.trans (portCycle_addr (su.ph.trans hp) (su.op ▸ ho)), hu, ?_⟩
  unfold SameCsa at su ⊢
  rw [su]
  rfl

theorem tick_fetch_exclusive (h : s.ExclusivePorts (n + 1)) (hp : s.ph = .dread) (ho : s.op = opWriteWord) :
    ∃ t d, tick s = .next t ∧ t.ExclusivePorts n ∧ SameCsa (afterFetchCycle d s) t := by
  obtain ⟨u, htick, su, hu, -⟩ := tick_exclusive h (by simp [hp])
  refine ⟨_, dataPortValue u, htick.trans (portCycle_dread_writeWord (su.ph.trans hp) (su.op.trans ho)), hu, ?_⟩
  unfold SameCsa at su ⊢
  rw [su]
  rfl

/-- The write also puts the value in a present register of `RamTarget` (R64). -/
theorem tick_write_exclusive {v : Dword} (h : s.ExclusivePorts (n + 1)) (hp : s.ph = .dwrite)
    (hv : writeValue s = some v) (hc : caEnabled s.ca = true) :
    ∃ t, tick s = .next t ∧ SameCsa (afterWriteCycle v s) t ∧
      (s.Inv → s.RamPresent (caSelect s.ca) → cfgRead (caSelect s.ca) t = v) := by
  obtain ⟨u, htick, su, -, hinv⟩ := tick_exclusive h (by simp [hp])
  have hwrite : writeValue u = some v := by rw [← hv, su]; rfl
  have hsel : caSelect u.ca = caSelect s.ca := congrArg caSelect su.ca
  refine ⟨_, htick.trans (portCycle_dwrite (su.ph.trans hp) hwrite (su.ca ▸ hc)), ?_, fun hi hr => ?_⟩
  · unfold SameCsa at su ⊢
    rw [su]
    rfl
  · have hru : u.RamPresent (caSelect u.ca) := ⟨su.target.trans hr.1, hsel ▸ su.present ▸ hr.2⟩
    rw [← hsel]
    exact cfgRead_of_cs_eq_write32 v (hinv hi) hru rfl rfl (cfgWrite_cs_present v hru)

end ExclusiveCycles

/-- R114 under exclusive use: the three cycles of `WRITE_WORD`, with the dword `d` it fetched. -/
theorem exec_writeWord_exclusive (bus : BitVec 8) (dev : BitVec 5) (fn : BitVec 3) (off : BitVec 8) (v : Half)
    {s : State} (hp : s.ph = .idle) (h : s.ExclusivePorts 3) :
    ∃ t d, exec (.writeWord bus dev fn off v) s = .next t ∧
      SameCsa (afterWriteCycle (laneMerge d off v) (afterFetchCycle d (afterAddressCycle .dread
        (accept opWriteWord bus dev fn off (v.setWidth 32) s)))) t ∧
      (s.Inv → s.RamPresent (operandSel bus dev fn off) →
        cfgRead (operandSel bus dev fn off) t = laneMerge d off v) := by
  obtain ⟨t₁, htick₁, hex₁, same₁⟩ :=
    tick_address_exclusive (s := accept opWriteWord bus dev fn off (v.setWidth 32) s) (n := 2) h rfl rfl
  obtain ⟨t₂, d, htick₂, hex₂, same₂⟩ := tick_fetch_exclusive hex₁ same₁.ph same₁.op
  have same₁₂ := same₁.after same₂ fun _ _ => rfl
  have hca : t₂.ca = addressWord bus dev fn off := same₁₂.ca
  have hvalue : writeValue t₂ = some (laneMerge d off v) := by
    rw [writeValue_writeWord same₁₂.op, same₁₂.tmp, same₁₂.off, same₁₂.wd]
    exact congrArg (fun x => some (laneMerge d off x)) (value_of_latch v)
  obtain ⟨t₃, htick₃, same₃, hread⟩ :=
    tick_write_exclusive hex₂ same₁₂.ph hvalue (by rw [hca, caEnabled_addressWord])
  refine ⟨t₃, d, ?_, same₁₂.after same₃ fun _ _ => rfl, fun hi hr => ?_⟩
  · rw [exec, execWriteWord, perform, if_pos hp, runTicks, htick₁, andThen_next, runTicks, htick₂, andThen_next,
      runTicks, htick₃, andThen_next, runTicks]
  · have hi₂ : t₂.Inv := (sound_tick ((sound_tick (inv_accept rfl hi)).next htick₁)).next htick₂
    rw [hca, caSelect_addressWord] at hread
    exact hread hi₂ ⟨same₁₂.target.trans hr.1, same₁₂.present ▸ hr.2⟩

/-- Settles O14: the dword written is the merge of the one fetched, which R86 lays out by lanes. -/
theorem writeWordPreservesTheOtherLane : Obligations.WriteWordPreservesTheOtherLane := by
  unfold Obligations.WriteWordPreservesTheOtherLane
  intro bus dev fn off v s hp h
  obtain ⟨t, d, hexec, same, hread⟩ := exec_writeWord_exclusive bus dev fn off v hp h
  have htmp : t.tmp = d := same.tmp
  refine ⟨t, laneMerge d off v, hexec, ?_, fun hlane => ?_, fun hlane => ?_, hread⟩
  · rw [same.trace, htmp]
    simp [afterWriteCycle, afterFetchCycle, afterAddressCycle, State.addressWord]
  · rw [laneMerge_eq, hlane, htmp]
    rfl
  · rw [laneMerge_eq, hlane, htmp]
    rfl

end Sys2Proof.Machine
end

section
/-! PROOFS. The frame codec on its own: a buffer that holds a frame's bytes decodes to that frame, the round trip of the
frame registers (spec/41_frame_codec.md R144), and what the decoder does not examine (R146). -/

namespace Sys2Proof.Machine

/-! ### What the decoder reads of a buffer -/

section Decoder

variable {bs bs' : List Byte}

/-- The frame the decoder takes from a buffer that passes its checks (R142). -/
def decodedFrame (bs : List Byte) : Frame where
  dst := sixBytes bs 8
  src := sixBytes bs 14
  len := BitVec.ofNat 16 (lengthField bs)
  payload := (bs.drop 22).take (lengthField bs)

theorem decodedFrame_len_toNat (bs : List Byte) : (decodedFrame bs).len.toNat = lengthField bs :=
  (BitVec.toNat_ofNat ..).trans (Nat.mod_eq_of_lt (lengthField_lt bs))

theorem decodedFrame_payload (h : 22 + lengthField bs ≤ bs.length) :
    (decodedFrame bs).payload = (List.range (lengthField bs)).map fun i => byteAt bs (22 + i) := by
  apply List.ext_getElem
  · simp only [decodedFrame, List.length_take, List.length_drop, List.length_map, List.length_range]
    omega
  · intro i h1 h2
    have hi : i < lengthField bs := by simpa using h2
    have hlen : 22 + i < bs.length := by omega
    simp [decodedFrame, byteAt, List.getD_eq_getElem?_getD, hlen]

/-- In a buffer that reaches the end of its payload, or of the header where the length field is above the limit, the
preamble and the length field alone decide whether the decoder answers a frame. -/
theorem decodeFrame_of_reaches (h : 22 + min (lengthField bs) 1454 ≤ bs.length) :
    decodeFrame bs = if badPreamble bs then .fails .noStart
      else if 1454 < lengthField bs then .fails .invalidPacket else .frame (decodedFrame bs) := by
  cases hb : badPreamble bs with
  | true => exact decodeFrame_badPreamble hb
  | false =>
    rw [if_neg Bool.false_ne_true]
    split
    next hL => exact decodeFrame_short hb (.inr (.inl hL))
    next hL => exact decodeFrame_ok hb (by omega) (by omega)

theorem badPreamble_congr (h : 7 ≤ bs.length) (h' : 7 ≤ bs'.length)
    (agree : ∀ i, i < 7 → byteAt bs i = byteAt bs' i) : badPreamble bs = badPreamble bs' := by
  rw [Bool.eq_iff_iff, badPreamble_iff, badPreamble_iff, min_eq_left h, min_eq_left h']
  exact exists_congr fun i => and_congr_right fun hi => by rw [agree i hi]

theorem lengthField_congr (h20 : byteAt bs 20 = byteAt bs' 20) (h21 : byteAt bs 21 = byteAt bs' 21) :
    lengthField bs = lengthField bs' := by
  rw [lengthField, lengthField, h20, h21]

theorem sixBytes_congr {start : Nat} (agree : ∀ i, start ≤ i → i < start + 6 → byteAt bs i = byteAt bs' i) :
    sixBytes bs start = sixBytes bs' start := by
  rw [sixBytes, sixBytes, agree start (by omega) (by omega), agree (start + 1) (by omega) (by omega),
    agree (start + 2) (by omega) (by omega), agree (start + 3) (by omega) (by omega),
    agree (start + 4) (by omega) (by omega), agree (start + 5) (by omega) (by omega)]

theorem sixBytes_getElem (bs : List Byte) (start : Nat) (i : Fin 6) :
    (sixBytes bs start)[i] = byteAt bs (start + i.val) := by
  fin_cases i <;> rfl

theorem decodedFrame_congr (h : 22 + lengthField bs ≤ bs.length) (h' : 22 + lengthField bs ≤ bs'.length)
    (agree : ∀ i, 8 ≤ i → i < 22 + lengthField bs → byteAt bs i = byteAt bs' i) :
    decodedFrame bs = decodedFrame bs' := by
  have hL : lengthField bs = lengthField bs' :=
    lengthField_congr (agree 20 (by omega) (by omega)) (agree 21 (by omega) (by omega))
  have hpay : (decodedFrame bs).payload = (decodedFrame bs').payload := by
    rw [decodedFrame_payload h, decodedFrame_payload (hL ▸ h'), ← hL]
    exact List.map_congr_left fun i hi => agree (22 + i) (by omega) (by have := List.mem_range.1 hi; omega)
  rw [Frame.mk.injEq]
  exact ⟨sixBytes_congr fun i h1 h2 => agree i h1 (by omega),
    sixBytes_congr fun i h1 h2 => agree i (by omega) (by omega), congrArg (BitVec.ofNat 16) hL, hpay⟩

/-- The decoder examines the seven preamble bytes, the addresses, the length field, and as many payload bytes as the
field says, up to the limit (R142, R146). -/
theorem decodeFrame_congr (h : 22 + min (lengthField bs) 1454 ≤ bs.length)
    (h' : 22 + min (lengthField bs) 1454 ≤ bs'.length)
    (agree : ∀ i, i < 22 + min (lengthField bs) 1454 → i ≠ 7 → byteAt bs i = byteAt bs' i) :
    decodeFrame bs = decodeFrame bs' := by
  have hb : badPreamble bs = badPreamble bs' :=
    badPreamble_congr (by omega) (by omega) fun i hi => agree i (by omega) (by omega)
  have hL : lengthField bs = lengthField bs' :=
    lengthField_congr (agree 20 (by omega) (by omega)) (agree 21 (by omega) (by omega))
  rw [decodeFrame_of_reaches h, decodeFrame_of_reaches (hL ▸ h'), ← hb, ← hL]
  split
  · rfl
  · split
    · rfl
    · rw [decodedFrame_congr (by omega) (by omega) fun i _ h2 => agree i (by omega) (by omega)]

end Decoder

/-- Settles O34: of a buffer that reaches the end of its payload the decoder reads neither index 7 nor anything above
the payload, and whether it fails depends on the preamble and the length field alone. -/
theorem delimiterAndTrailerAreNotExamined : Obligations.DelimiterAndTrailerAreNotExamined := by
  unfold Obligations.DelimiterAndTrailerAreNotExamined
  intro bs bs' h h'
  refine ⟨fun agree => decodeFrame_congr (by omega) (by omega) fun i hi => agree i (by omega), fun agree c => ?_⟩
  have hb : badPreamble bs = badPreamble bs' :=
    badPreamble_congr (by omega) (by omega) fun i hi => agree i (by omega) (.inl hi)
  have hL : lengthField bs = lengthField bs' :=
    lengthField_congr (agree 20 (by omega) (.inr le_rfl)) (agree 21 (by omega) (.inr (by omega)))
  rw [decodeFrame_of_reaches (by omega), decodeFrame_of_reaches (by omega), ← hb, ← hL]
  split
  · rfl
  · split
    · rfl
    · simp only [reduceCtorEq]

/-! ### A frame's bytes decode to the frame -/

theorem sixBytes_eq {bs : List Byte} {start : Nat} (v : Vector Byte 6)
    (h : ∀ i : Fin 6, byteAt bs (start + i.val) = v[i]) : sixBytes bs start = v := by
  apply Vector.ext
  intro i hi
  exact (sixBytes_getElem bs start ⟨i, hi⟩).trans (h ⟨i, hi⟩)

/-- The bytes of a well-formed frame decode to it, whatever follows them in the buffer (R144). -/
theorem decodeFrame_headerAndPayload_append {f : Frame} (tail : List Byte) (hf : f.WellFormed) :
    decodeFrame (f.headerAndPayload ++ tail) = .frame f := by
  obtain ⟨hcount, hmax⟩ := hf
  have hb : badPreamble (f.headerAndPayload ++ tail) = false := by
    rw [headerAndPayload_eq]
    rfl
  have hL : lengthField (f.headerAndPayload ++ tail) = f.len.toNat := by
    rw [headerAndPayload_eq]
    exact half_bytes f.len
  have hlen : 22 + f.len.toNat ≤ (f.headerAndPayload ++ tail).length := by
    rw [List.length_append, headerAndPayload_length]
    omega
  rw [decodeFrame_ok hb (hL ▸ hmax) (hL ▸ hlen), hL, headerAndPayload_eq]
  cases f with
  | mk dst src len payload =>
    congr 2
    · exact sixBytes_eq dst fun i => by fin_cases i <;> rfl
    · exact sixBytes_eq src fun i => by fin_cases i <;> rfl
    · exact BitVec.ofNat_toNat ..
    · simp [hcount]

/-! ### The frame buffer in the registers -/

section Buffer

variable {s : State} {bs : List Byte}

theorem fbByte_of_fb (h : s.fb = Memory.ofBytes zeroDflt 0 bs) (i : Nat) : s.fbByte i = bs.getD i 0#8 := by
  rw [State.fbByte, h, read_ofBytes_zero]

/-- A buffer built from bytes, and no shorter than they are, holds them and zeros after them (R30). -/
theorem buffer_of_fb (h : s.fb = Memory.ofBytes zeroDflt 0 bs) (hlen : bs.length ≤ s.blen.toNat) :
    s.buffer = bs ++ List.replicate (s.blen.toNat - bs.length) 0#8 := by
  apply List.ext_getElem
  · simp only [buffer_length, List.length_append, List.length_replicate]
    omega
  · intro i h1 h2
    rw [List.getElem_append]
    split
    next hi => simp [State.buffer, fbByte_of_fb h, List.getD_eq_getElem?_getD, hi]
    next hi =>
      simp only [State.buffer, List.getElem_map, List.getElem_range, fbByte_of_fb h, List.getElem_replicate]
      exact List.getD_eq_default _ _ (by omega)

/-- `FROM_BYTES` on a buffer that begins with the bytes of a well-formed frame loads that frame (R142). -/
theorem exec_fromBytes_of_fb {f : Frame} (hf : f.WellFormed) (h : s.fb = Memory.ofBytes zeroDflt 0 f.headerAndPayload)
    (hlen : 22 + f.payload.length ≤ s.blen.toNat) :
    exec .fromBytes s = .next (setStatus .fc .ok (loadFrame f s)) := by
  apply execFromBytes_frame
  rw [buffer_of_fb h (by rwa [headerAndPayload_length]), decodeFrame_headerAndPayload_append _ hf]

end Buffer

/-! ### The round trip -/

/-- The frame without payload. -/
def emptyFrame : Frame := ⟨#v[1, 2, 3, 4, 5, 6], #v[6, 5, 4, 3, 2, 1], 0, []⟩

/-- The machine after reset and the receipt of the 22 bytes of the frame without payload. -/
def receivedEmptyFrame : State :=
  { State.reset with fb := Memory.ofBytes zeroDflt 0 emptyFrame.headerAndPayload, blen := 22#11 }

theorem inv_receivedEmptyFrame : receivedEmptyFrame.Inv :=
  ⟨by decide, by decide, by decide, addrPort_ne_dataPort⟩

/-- Settles O31: `TO_BYTES` puts the frame's bytes at the head of the buffer, and they decode to the frame; the converse
fails on a received buffer of 22 bytes, which comes back 1504 bytes long. -/
theorem frameRoundTrip : Obligations.FrameRoundTrip := by
  unfold Obligations.FrameRoundTrip
  constructor
  · intro s hs
    have hf := frame_wellFormed hs
    have hlen : s.frame.payload.length ≤ 1454 := hf.1 ▸ hf.2
    have hfits : 22 + s.frame.payload.length ≤ (1504#11).toNat := by
      rw [show (1504#11).toNat = 1504 by decide]
      omega
    exact ⟨_, _, execToBytes_ok hs, exec_fromBytes_of_fb hf rfl hfits, rfl, frame_loadFrame hf,
      frameOk_loadFrame (s := s) hf⟩
  · have hf : emptyFrame.WellFormed := by decide
    refine ⟨receivedEmptyFrame, _, _, inv_receivedEmptyFrame,
      exec_fromBytes_of_fb hf rfl (by decide), rfl,
      execToBytes_ok (frameOk_loadFrame (s := receivedEmptyFrame) hf), rfl, fun hbuf => ?_⟩
    have hlength := congrArg List.length hbuf
    rw [buffer_length, buffer_length] at hlength
    exact absurd hlength (by decide)

end Sys2Proof.Machine
end

section
/-! PROOFS. The two operations of unit FC, whole (spec/41_frame_codec.md R141, R142), and the outcome of `FROM_BYTES` by
buffer length (R143). -/

namespace Sys2Proof.Machine

section ToBytes

variable {s : State}

theorem layoutByte_payload (s : State) (j : Nat) :
    layoutByte s (22 + j) = if j < s.fLen.toNat then s.payByte j else 0#8 := by
  rw [layoutByte, if_neg (by omega), if_neg (by omega), if_neg (by omega), if_neg (by omega), if_neg (by omega),
    if_neg (by omega), Nat.add_sub_cancel_left]
  exact if_congr (by omega) rfl rfl

theorem layoutByte_above_payload {i : Nat} (h : 22 + s.fLen.toNat ≤ i) : layoutByte s i = 0#8 := by
  obtain ⟨j, rfl⟩ := Nat.exists_eq_add_of_le (show 22 ≤ i by omega)
  rw [layoutByte_payload, if_neg (by omega)]

/-- The bytes of the frame in the registers, and zeros above them, are those of the layout table (R90). -/
theorem headerAndPayload_getD (h : s.FrameOk) (i : Nat) : s.frame.headerAndPayload.getD i 0#8 = layoutByte s i := by
  obtain ⟨hcount, -⟩ := h
  rcases Nat.lt_or_ge i 22 with hi | hi
  · rw [headerAndPayload_getD_header _ i hi]
    interval_cases i <;> simp [layoutByte, State.frame]
  · obtain ⟨j, rfl⟩ := Nat.exists_eq_add_of_le hi
    rw [headerAndPayload_getD_payload, layoutByte_payload]
    split
    next hj => exact frame_payload_getD (hcount ▸ hj)
    next hj => exact List.getD_eq_default _ _ (by rw [frame_payload_length]; omega)

/-- R141 on a well-formed frame. -/
theorem exec_toBytes_ok (h : s.FrameOk) :
    ∃ t, exec .toBytes s = .next t ∧ t = { s with fb := t.fb, blen := 1504#11, fcSt := .ok } ∧
      ∀ i, t.fbByte i = layoutByte s i :=
  ⟨_, execToBytes_ok h, rfl, fun i => (fbByte_of_fb rfl i).trans (headerAndPayload_getD h i)⟩

end ToBytes

/-- Settles O28: the buffer holds the frame's bytes, which are those of the layout. -/
theorem toBytesMeaning : Obligations.ToBytesMeaning := by
  unfold Obligations.ToBytesMeaning
  refine ⟨opcOf_formatF .., fun s hbad => ?_, fun s hcount hmax => ?_, ?_⟩
  · exact execToBytes_refused fun ⟨hcount, hmax⟩ => hbad.elim (· hcount) (Nat.not_lt.2 hmax)
  · obtain ⟨t, hexec, hframe, hbytes⟩ := exec_toBytes_ok ⟨hcount, hmax⟩
    exact ⟨t, hexec, hframe, fun i _ => hbytes i⟩
  · intro s hdst hsrc hlen hpcnt h0 h1 h2
    have hs : s.FrameOk := by
      rw [State.FrameOk, hlen, hpcnt]
      decide
    obtain ⟨t, hexec, hframe, hbytes⟩ := exec_toBytes_ok hs
    refine ⟨t, hexec, by rw [hframe], ?_, fun i hi _ => ?_⟩
    · rw [List.map_congr_left fun i _ => hbytes i]
      simp [List.range_succ, layoutByte, hdst, hsrc, hlen, h0, h1, h2]
    · rw [hbytes]
      exact layoutByte_above_payload (by rw [hlen]; exact Nat.le_trans (by decide) hi)

/-! ### The outcomes of `FROM_BYTES` -/

section FromBytes

variable {s : State}

theorem badPreamble_buffer_iff : badPreamble s.buffer = true ↔ fbBadPreamble s := by
  rw [badPreamble_iff, buffer_length]
  exact exists_congr fun i => and_congr_right fun hi => by
    rw [byteAt_buffer (by omega), Config.preamble]

theorem badPreamble_buffer_eq_false (h : ¬ fbBadPreamble s) : badPreamble s.buffer = false :=
  Bool.eq_false_iff.2 (mt badPreamble_buffer_iff.1 h)

theorem lengthField_buffer (h : 22 ≤ s.blen.toNat) : lengthField s.buffer = fbLength s := by
  rw [lengthField, byteAt_buffer (by omega), byteAt_buffer (by omega), fbLength]

/-- R142: a bad preamble byte comes before every other check. -/
theorem exec_fromBytes_noStart (h : fbBadPreamble s) :
    exec .fromBytes s = .next { s with fcSt := .noStart } :=
  execFromBytes_fails (decodeFrame_badPreamble (badPreamble_buffer_iff.2 h))

/-- R142: too few bytes for the header or for the payload, or a length above the limit. -/
theorem exec_fromBytes_invalidPacket (h : ¬ fbBadPreamble s)
    (hshort : s.blen.toNat < 22 ∨ 1454 < fbLength s ∨ s.blen.toNat < 22 + fbLength s) :
    exec .fromBytes s = .next { s with fcSt := .invalidPacket } := by
  refine execFromBytes_fails (decodeFrame_short (badPreamble_buffer_eq_false h) ?_)
  rw [buffer_length]
  rcases Nat.lt_or_ge s.blen.toNat 22 with hlt | hge
  · exact .inl hlt
  · rwa [lengthField_buffer hge]

/-- R142: a buffer that passes every check. -/
theorem exec_fromBytes_ok (h : ¬ fbBadPreamble s) (hmax : fbLength s ≤ 1454)
    (hreach : 22 + fbLength s ≤ s.blen.toNat) :
    exec .fromBytes s = .next (setStatus .fc .ok (loadFrame (decodedFrame s.buffer) s)) := by
  have hL := lengthField_buffer (s := s) (by omega)
  exact execFromBytes_frame (decodeFrame_ok (badPreamble_buffer_eq_false h) (by rwa [hL])
    (by rwa [hL, buffer_length]))

theorem decodedFrame_buffer_addresses (h : 22 ≤ s.blen.toNat) (i : Fin 6) :
    (decodedFrame s.buffer).dst[i] = s.fbByte (8 + i.val) ∧ (decodedFrame s.buffer).src[i] = s.fbByte (14 + i.val) :=
  ⟨(sixBytes_getElem s.buffer 8 i).trans (byteAt_buffer (by omega)),
    (sixBytes_getElem s.buffer 14 i).trans (byteAt_buffer (by omega))⟩

theorem decodedFrame_buffer_payload (hreach : 22 + fbLength s ≤ s.blen.toNat) :
    (decodedFrame s.buffer).payload = (List.range (fbLength s)).map fun i => s.fbByte (22 + i) := by
  have hL : lengthField s.buffer = fbLength s := lengthField_buffer (by omega)
  rw [decodedFrame_payload (by rwa [hL, buffer_length]), hL]
  exact List.map_congr_left fun i hi => byteAt_buffer (by have := List.mem_range.1 hi; omega)

/-- The status `FROM_BYTES` leaves (R142): one of three, by its checks. -/
theorem exec_fromBytes_status (s : State) : ∃ t, exec .fromBytes s = .next t ∧
    (fbBadPreamble s → t.fcSt = .noStart) ∧
    (¬ fbBadPreamble s → s.blen.toNat < 22 ∨ 1454 < fbLength s ∨ s.blen.toNat < 22 + fbLength s →
      t.fcSt = .invalidPacket) ∧
    (¬ fbBadPreamble s → fbLength s ≤ 1454 → 22 + fbLength s ≤ s.blen.toNat → t.fcSt = .ok) := by
  by_cases hbad : fbBadPreamble s
  · exact ⟨_, exec_fromBytes_noStart hbad, fun _ => rfl, fun h => absurd hbad h, fun h => absurd hbad h⟩
  by_cases hshort : s.blen.toNat < 22 ∨ 1454 < fbLength s ∨ s.blen.toNat < 22 + fbLength s
  · exact ⟨_, exec_fromBytes_invalidPacket hbad hshort, fun h => absurd h hbad, fun _ _ => rfl, by omega⟩
  · exact ⟨_, exec_fromBytes_ok hbad (by omega) (by omega), fun h => absurd h hbad, fun _ h => absurd h hshort,
      fun _ _ _ => rfl⟩

end FromBytes

/-- Settles O29: each outcome of the decoder on the buffer, and the frame it loads. -/
theorem fromBytesMeaning : Obligations.FromBytesMeaning := by
  unfold Obligations.FromBytesMeaning
  refine ⟨opcOf_formatF .., fun s hbad => exec_fromBytes_noStart hbad,
    fun s hgood hshort => exec_fromBytes_invalidPacket hgood (by omega), fun s hgood _ hmax hreach => ?_, ?_⟩
  · have hpay := decodedFrame_buffer_payload hreach
    have hcount : (decodedFrame s.buffer).payload.length = fbLength s := by
      rw [hpay, List.length_map, List.length_range]
    refine ⟨_, exec_fromBytes_ok hgood hmax hreach, rfl, decodedFrame_buffer_addresses (by omega),
      (decodedFrame_len_toNat _).trans (lengthField_buffer (by omega)), ?_, fun i hi => ?_⟩
    · rw [setStatus_fc_fPcnt, loadFrame_fPcnt, hcount, BitVec.toNat_ofNat]
      exact Nat.mod_eq_of_lt (by omega)
    · exact (payByte_loadFrame (by omega)).trans (by simp [hpay])
  · intro s hblen hbytes
    have hbuf : s.buffer = [0xAA, 0xAA, 0xAA, 0xAA, 0xAA, 0xAA, 0xAA, 0xAB, 0x01, 0x02, 0x03, 0x04, 0x05, 0x06, 0x06,
        0x05, 0x04, 0x03, 0x02, 0x01, 0x00, 0x01, 0x99] := by
      rw [State.buffer, hblen]
      exact hbytes
    have hdecode : decodeFrame s.buffer = .frame ⟨#v[0x01, 0x02, 0x03, 0x04, 0x05, 0x06],
        #v[0x06, 0x05, 0x04, 0x03, 0x02, 0x01], 1#16, [0x99]⟩ := by
      rw [hbuf]
      decide
    exact ⟨_, execFromBytes_frame hdecode, rfl, rfl, rfl, rfl, payByte_loadFrame (by decide), rfl⟩

/-! ### The largest index read -/

theorem byteAt_take {n i : Nat} (bs : List Byte) (h : i < n) : byteAt (bs.take n) i = byteAt bs i := by
  simp [byteAt, List.getD_eq_getElem?_getD, h]

/-- The header and the longest payload end at index 1475 (R143). -/
theorem decodeFrame_take (bs : List Byte) : decodeFrame (bs.take 1476) = decodeFrame bs := by
  rcases Nat.le_total bs.length 1476 with h | h
  · rw [List.take_of_length_le h]
  · symm
    apply decodeFrame_congr
    · omega
    · rw [List.length_take, min_eq_left h]
      omega
    · exact fun i hi _ => (byteAt_take bs (by omega)).symm

/-- Settles O30: in each range of lengths the preamble test covers `min(7, n)` bytes, and the other checks follow it. -/
theorem fromBytesOutcomeByLength : Obligations.FromBytesOutcomeByLength := by
  unfold Obligations.FromBytesOutcomeByLength
  refine ⟨fun s => ?_, decodeFrame_take⟩
  obtain ⟨t, hexec, hbad, hshort, hok⟩ := exec_fromBytes_status s
  unfold fbBadPreamble at hbad hshort hok
  refine ⟨t, hexec, fun h0 => ?_, fun h1 h6 => ?_, fun h7 h21 => ?_, fun h22 => ?_⟩
  · exact hshort (fun ⟨i, hi, _⟩ => by omega) (.inl (by omega))
  · rw [min_eq_right (by omega)] at hbad hshort
    exact ⟨hbad, fun h => hshort h (.inl (by omega))⟩
  · rw [min_eq_left h7] at hbad hshort
    exact ⟨hbad, fun h => hshort h (.inl (by omega))⟩
  · rw [min_eq_left (by omega)] at hbad hshort hok
    exact ⟨hbad, fun h hlen => hshort h (.inr hlen), hok⟩

end Sys2Proof.Machine
end

section
/-! PROOFS. What a failing command changes (spec/60_exceptions.md R177): its code in `ST` of its unit, and nothing
else. -/

namespace Sys2Proof.Machine

variable {s t : State}

/-- `TO_BYTES` that does not complete writes its status alone (R177). -/
theorem execToBytes_failing (h : execToBytes s = .next t) (hst : t.fcSt ≠ .ok) : t = { s with fcSt := t.fcSt } := by
  by_cases hf : s.FrameOk
  · rw [execToBytes_ok hf] at h
    cases h
    exact absurd rfl hst
  · rw [execToBytes_refused hf] at h
    cases h
    rfl

/-- `FROM_BYTES` that does not complete writes its status alone (R177). -/
theorem execFromBytes_failing (h : execFromBytes s = .next t) (hst : t.fcSt ≠ .ok) :
    t = { s with fcSt := t.fcSt } := by
  cases hd : decodeFrame s.buffer with
  | frame f =>
    rw [execFromBytes_frame hd] at h
    cases h
    exact absurd rfl hst
  | fails c =>
    rw [execFromBytes_fails hd] at h
    cases h
    rfl

/-- A word that is no operation, routed to unit FC between two steps of unit CSA, is refused whatever phase unit CSA is
in (R87, R213). -/
theorem offer_illegal_fc {w : CommandWord} {why : IllegalWord} (hfc : w.getLsbD 63 = true)
    (hw : decode w = .illegal why) : offer w s = .next { s with fcSt := .illegalCommand } := by
  have hroute : routesToFc w = true := hfc
  simp only [offer, hw]
  rw [if_pos hroute, refuseWord_eq, if_pos hfc]

/-- Settles O37: each operation of unit FC by the branch it ended in, a refused word by the unit that takes it. -/
theorem failingCommandChangesOnlyItsStatus : Obligations.FailingCommandChangesOnlyItsStatus := by
  unfold Obligations.FailingCommandChangesOnlyItsStatus
  exact ⟨fun _ _ => execToBytes_failing, fun _ _ => execFromBytes_failing, fun _ _ _ _ => step_illegal,
    fun _ _ _ => offer_illegal_fc⟩

end Sys2Proof.Machine
end

section
/-! PROOFS. Encoding and decoding are inverse to each other (spec/30_encoding.md R81 to R83), and the assembler
of R93. -/

namespace Sys2Proof.Machine

/-! ### Decoder and encoder -/

/-- An operation is read back from its own command word (R81 to R83). -/
theorem decode_encode (i : Instr) : decode (encode i) = .instr i := by
  cases i with
  | readWord bus dev fn off => rw [encode, decode_readWord (by simp) (by simp) (by simp)]; simp
  | writeWord bus dev fn off v => rw [encode, decode_writeWord (by simp) (by simp) (by simp)]; simp
  | readDword bus dev fn off => rw [encode, decode_readDword (by simp) (by simp) (by simp)]; simp
  | writeDword bus dev fn off v => rw [encode, decode_writeDword (by simp) (by simp)]; simp
  | toBytes => exact decode_toBytes (opcOf_formatF _) (formatFZeroOf_formatF _)
  | fromBytes => exact decode_fromBytes (opcOf_formatF _) (formatFZeroOf_formatF _)

/-- A word the decoder accepts is the encoding of what it reads: the word is its fields, put together (R81, R82). -/
theorem encode_of_decode {w : CommandWord} {i : Instr} (h : decode w = .instr i) : encode i = w := by
  rcases decode_cases h with ⟨ho, hr, hd, rfl⟩ | ⟨ho, hr, hd, rfl⟩ | ⟨ho, hr, hd, rfl⟩ | ⟨ho, hr, rfl⟩ |
    ⟨ho, hz, rfl⟩ | ⟨ho, hz, rfl⟩
  · rw [encode, ← ho, ← hd, formatC_fields w hr]
  · rw [encode, ← ho, ← hd, dataOf_halves, formatC_fields w hr]
  · rw [encode, ← ho, ← hd, formatC_fields w hr]
  · rw [encode, ← ho, formatC_fields w hr]
  · rw [encode, ← ho, formatF_fields w hz]
  · rw [encode, ← ho, formatF_fields w hz]

/-- Settles O1: the decoder takes the branch of the operation's opcode and finds every operand in its field. -/
theorem decodeOfEncodeIsIdentity : Obligations.DecodeOfEncodeIsIdentity := decode_encode

/-- Settles O2: every branch of the decoder fixes the opcode and the reserved fields, so the fields make up the word. -/
theorem encodeOfDecodeIsIdentity : Obligations.EncodeOfDecodeIsIdentity := fun _ _ => encode_of_decode

/-! ### The assembler -/

theorem assemble_eq_none_iff (l : AsmLine) : assemble l = none ↔ l.wellFormed = false := by
  simp [assemble]

theorem assemble_of_wellFormed {l : AsmLine} (h : l.wellFormed = true) : assemble l = some (encode l.toInstr) :=
  if_pos h

/-- The word of a line decodes to the line's operation (R93). -/
theorem decode_of_assemble {l : AsmLine} {w : CommandWord} (h : assemble l = some w) : decode w = .instr l.toInstr := by
  have hl : l.wellFormed = true := by
    by_contra hl
    rw [(assemble_eq_none_iff l).2 (by simpa using hl)] at h
    cases h
  rw [assemble_of_wellFormed hl] at h
  cases h
  exact decode_encode l.toInstr

theorem addressInRange_eq_true_iff (b d f o : Nat) :
    addressInRange b d f o = true ↔ b ≤ 255 ∧ d ≤ 31 ∧ f ≤ 7 ∧ o ≤ 255 := by
  simp [addressInRange, and_assoc]

theorem addressInRange_eq_false_iff (b d f o : Nat) :
    addressInRange b d f o = false ↔ 255 < b ∨ 31 < d ∨ 7 < f ∨ 255 < o := by
  rw [← Bool.not_eq_true, addressInRange_eq_true_iff]
  omega

/-- Every address operand in range stands in its field of a word of format C as written. -/
theorem formatC_address_toNat (opc : BitVec 4) (data : Dword) {b d f o : Nat} (hb : b ≤ 255) (hd : d ≤ 31) (hf : f ≤ 7)
    (ho : o ≤ 255) {w : CommandWord} (hw : w = formatC opc (.ofNat 8 b) (.ofNat 5 d) (.ofNat 3 f) (.ofNat 8 o) data) :
    (busOf w).toNat = b ∧ (devOf w).toNat = d ∧ (fnOf w).toNat = f ∧ (offOf w).toNat = o := by
  subst hw
  simp only [busOf_formatC, devOf_formatC, fnOf_formatC, offOf_formatC, BitVec.toNat_ofNat]
  omega

/-- Which lines of each form are refused: those with an operand above the bound of its field (R93). -/
theorem assemble_refused_iff (b d f o v x : Nat) :
    (assemble (.readWord b d f o) = none ↔ 255 < b ∨ 31 < d ∨ 7 < f ∨ 255 < o) ∧
    (assemble (.readDword b d f o) = none ↔ 255 < b ∨ 31 < d ∨ 7 < f ∨ 255 < o) ∧
    (assemble (.writeWord b d f o v) = none ↔ 255 < b ∨ 31 < d ∨ 7 < f ∨ 255 < o ∨ 0xFFFF < v) ∧
    (assemble (.writeDword b d f o x) = none ↔ 255 < b ∨ 31 < d ∨ 7 < f ∨ 255 < o ∨ 0xFFFFFFFF < x) := by
  simp only [assemble_eq_none_iff, AsmLine.wellFormed, Bool.and_eq_false_iff, addressInRange_eq_false_iff,
    decide_eq_false_iff_not, Nat.not_le, or_assoc, and_self]

/-- Settles O7: the refusal is the range check, the word is the encoding of the line's operation, and each field of
format C gives back the number it was built from. -/
theorem assemblerEmitsOnlyLinesInRange : Obligations.AssemblerEmitsOnlyLinesInRange := by
  unfold Obligations.AssemblerEmitsOnlyLinesInRange
  refine ⟨fun b d f o v x => ?_, fun _ _ => decode_of_assemble, fun b d f o v x hb hd hf ho hv hx => ?_⟩
  · obtain ⟨h1, h2, h3, h4⟩ := assemble_refused_iff b d f o v x
    exact ⟨h1, h2, h3, h4, by decide, by decide⟩
  · have hrange : addressInRange b d f o = true := (addressInRange_eq_true_iff b d f o).2 ⟨hb, hd, hf, ho⟩
    refine ⟨⟨_, assemble_of_wellFormed hrange, formatC_address_toNat _ _ hb hd hf ho rfl⟩,
      ⟨_, assemble_of_wellFormed hrange, formatC_address_toNat _ _ hb hd hf ho rfl⟩,
      ⟨_, assemble_of_wellFormed (by simp [AsmLine.wellFormed, hrange, hv]), ?_⟩,
      ⟨_, assemble_of_wellFormed (by simp [AsmLine.wellFormed, hrange, hx]), ?_⟩⟩
    · obtain ⟨hbus, hdev, hfn, hoff⟩ := formatC_address_toNat 0x2#4 _ hb hd hf ho rfl
      refine ⟨hbus, hdev, hfn, hoff, ?_⟩
      simp only [AsmLine.toInstr, encode, value16Of_formatC, lower_half_value, BitVec.toNat_ofNat]
      omega
    · obtain ⟨hbus, hdev, hfn, hoff⟩ := formatC_address_toNat 0x4#4 _ hb hd hf ho rfl
      refine ⟨hbus, hdev, hfn, hoff, ?_⟩
      simp only [AsmLine.toInstr, encode, dataOf_formatC, BitVec.toNat_ofNat]
      omega

end Sys2Proof.Machine
end

section
/-! PROOFS. Unit FC: the round trip of frames as values (spec/41_frame_codec.md R144), the frames `FROM_BYTES` produces
(spec/10_state.md R29), and what the two operations depend on and change (R140). -/

namespace Sys2Proof.Machine

/-- Settles O32: the header of a well-formed frame passes the checks, and its length field ends the payload where the
tail begins. -/
theorem abstractFrameRoundTrip : Obligations.AbstractFrameRoundTrip := fun _ tail hf =>
  decodeFrame_headerAndPayload_append tail hf

section Codec

variable {s t : State}

/-- Everything `FROM_BYTES` can do: load the frame the decoder answers, or write the decoder's code (R142). -/
theorem execFromBytes_cases (s : State) :
    (∃ f, decodeFrame s.buffer = .frame f ∧ execFromBytes s = .next (setStatus .fc .ok (loadFrame f s))) ∨
    (∃ c, decodeFrame s.buffer = .fails c ∧ c ≠ .ok ∧ execFromBytes s = .next (setStatus .fc c s)) := by
  cases hd : decodeFrame s.buffer with
  | frame f => exact .inl ⟨f, rfl, execFromBytes_frame hd⟩
  | fails c =>
    refine .inr ⟨c, rfl, ?_, execFromBytes_fails hd⟩
    rcases decodeFrame_fails hd with rfl | rfl <;> simp

/-- After a `FROM_BYTES` that succeeds the frame registers hold a well-formed frame (R29). -/
theorem frameOk_of_execFromBytes (h : execFromBytes s = .next t) (hst : t.fcSt = .ok) : t.FrameOk := by
  rcases execFromBytes_cases s with ⟨f, hd, hexec⟩ | ⟨c, -, hc, hexec⟩
  · rw [hexec] at h
    cases h
    exact frameOk_loadFrame (s := s) (decodeFrame_wellFormed hd)
  · rw [hexec] at h
    cases h
    exact absurd hst hc

end Codec

/-- Settles O33: the decoder answers well-formed frames only, and `TO_BYTES` refuses no such frame. -/
theorem decodedFramesAreWellFormed : Obligations.DecodedFramesAreWellFormed := by
  unfold Obligations.DecodedFramesAreWellFormed
  intro s t hexec hst
  have hf : t.FrameOk := frameOk_of_execFromBytes hexec hst
  exact ⟨hf.1, hf.2, _, execToBytes_ok hf, rfl⟩

/-! ### What the two operations depend on -/

/-- The state is the first, but for the registers of unit FC and the model's counter of free choices. -/
def SameButFc (s t : State) : Prop :=
  t = { s with fDst := t.fDst, fSrc := t.fSrc, fLen := t.fLen, fPcnt := t.fPcnt, fPay := t.fPay
               fPayGen := t.fPayGen, fb := t.fb, blen := t.blen, fcSt := t.fcSt, free := t.free }

/-- The two results end alike: the same status and, where it is `OK`, the same frame and buffer. -/
def EndAlike (t₁ t₂ : State) : Prop :=
  t₁.fcSt = t₂.fcSt ∧ (t₁.fcSt = .ok → t₁.frame = t₂.frame ∧ t₁.buffer = t₂.buffer)

section Inputs

variable {s₁ s₂ : State}

theorem frameOk_iff_of_sameFcInputs (h : sameFcInputs s₁ s₂) : s₁.FrameOk ↔ s₂.FrameOk := by
  obtain ⟨-, -, hlen, hcount⟩ := h
  rw [State.FrameOk, State.FrameOk, hlen, hcount]

/-- `TO_BYTES` is a function of the frame registers (R140). -/
theorem execToBytes_endAlike (h : sameFcInputs s₁ s₂) :
    ∃ t₁ t₂, execToBytes s₁ = .next t₁ ∧ execToBytes s₂ = .next t₂ ∧ EndAlike t₁ t₂ ∧ SameButFc s₁ t₁ := by
  have hframe : s₁.frame = s₂.frame := h.1
  by_cases hf : s₁.FrameOk
  · refine ⟨_, _, execToBytes_ok hf, execToBytes_ok ((frameOk_iff_of_sameFcInputs h).1 hf), ⟨rfl, fun _ => ?_⟩, rfl⟩
    refine ⟨hframe, ?_⟩
    rw [hframe]
    rfl
  · exact ⟨_, _, execToBytes_refused hf, execToBytes_refused (mt (frameOk_iff_of_sameFcInputs h).2 hf),
      ⟨rfl, fun hok => by cases hok⟩, rfl⟩

/-- `FROM_BYTES` is a function of the frame buffer (R140). -/
theorem execFromBytes_endAlike (h : sameFcInputs s₁ s₂) :
    ∃ t₁ t₂, execFromBytes s₁ = .next t₁ ∧ execFromBytes s₂ = .next t₂ ∧ EndAlike t₁ t₂ ∧ SameButFc s₁ t₁ := by
  obtain ⟨-, hbuf, -, -⟩ := h
  rcases execFromBytes_cases s₁ with ⟨f, hd, hexec⟩ | ⟨c, hd, hc, hexec⟩
  · have hf := decodeFrame_wellFormed hd
    refine ⟨_, _, hexec, execFromBytes_frame (hbuf ▸ hd), ⟨rfl, fun _ => ⟨?_, hbuf⟩⟩, rfl⟩
    exact (frame_loadFrame (s := s₁) hf).trans (frame_loadFrame (s := s₂) hf).symm
  · exact ⟨_, _, hexec, execFromBytes_fails (hbuf ▸ hd), ⟨rfl, fun hok => absurd hok hc⟩, rfl⟩

end Inputs

/-- Settles O35: each operation branches on its inputs alone and forms its result from them. -/
theorem codecDependsOnItsInputsAlone : Obligations.CodecDependsOnItsInputsAlone := by
  unfold Obligations.CodecDependsOnItsInputsAlone
  rintro i (rfl | rfl) s₁ s₂ h
  · obtain ⟨t₁, t₂, h₁, h₂, ⟨hst, hout⟩, hsame⟩ := execToBytes_endAlike h
    exact ⟨t₁, t₂, h₁, h₂, hst, hout, hsame⟩
  · obtain ⟨t₁, t₂, h₁, h₂, ⟨hst, hout⟩, hsame⟩ := execFromBytes_endAlike h
    exact ⟨t₁, t₂, h₁, h₂, hst, hout, hsame⟩

/-! ### What the two operations change -/

/-- A canonical memory lists nothing at or above its size. -/
theorem find_of_size_le {dflt : Option Byte} {size : Nat} {m : Memory} : ∀ {lo a : Nat},
    Memory.wfFrom dflt size lo m = true → size ≤ a → Memory.find a m = none := by
  induction m with
  | nil => intros; rfl
  | cons c m ih =>
    intro lo a hm ha
    obtain ⟨-, hlt, -, hrest⟩ := (wfFrom_cons lo c m).1 hm
    rw [find_cons, if_neg (by omega)]
    exact ih hrest ha

section CodecFrame

variable {s : State}

/-- Above the buffer's 1504 bytes nothing is stored (R30). -/
theorem fbByte_of_size_le (h : s.Inv) {a : Nat} (ha : 1504 ≤ a) : s.fbByte a = 0#8 := by
  obtain ⟨⟨-, hfb, -⟩, -, -, -⟩ := h
  rw [State.fbByte, find_of_size_le hfb ha, Option.getD_none]

theorem fPcnt_le_of_inv (h : s.Inv) : s.fPcnt.toNat ≤ 1454 := by
  obtain ⟨-, ⟨hcount, -, -⟩, -, -⟩ := h
  exact hcount

/-- The frame of `TO_BYTES`, on both paths (R141). -/
theorem execToBytes_changes (hi : s.Inv) :
    ∃ t, exec .toBytes s = .next t ∧ t = { s with fb := t.fb, blen := t.blen, fcSt := t.fcSt } ∧
      (∀ a, t.csByte a = s.csByte a ∧ t.payByte a = s.payByte a ∧ (1504 ≤ a → t.fbByte a = s.fbByte a)) ∧
      (t.fcSt ≠ .ok → t.blen = s.blen ∧ ∀ a, t.fbByte a = s.fbByte a) := by
  by_cases hf : s.FrameOk
  · have hcount := fPcnt_le_of_inv hi
    refine ⟨_, execToBytes_ok hf, rfl, fun a => ⟨rfl, rfl, fun ha => ?_⟩, fun hst => absurd rfl hst⟩
    rw [fbByte_of_size_le hi ha]
    refine (fbByte_of_fb rfl a).trans (List.getD_eq_default _ _ ?_)
    rw [headerAndPayload_length, frame_payload_length]
    omega
  · exact ⟨_, execToBytes_refused hf, rfl, fun a => ⟨rfl, rfl, fun _ => rfl⟩, fun _ => ⟨rfl, fun _ => rfl⟩⟩

/-- The frame of `FROM_BYTES`, on both paths (R142). -/
theorem execFromBytes_changes (s : State) :
    ∃ t, exec .fromBytes s = .next t ∧
      t = { s with fDst := t.fDst, fSrc := t.fSrc, fLen := t.fLen, fPcnt := t.fPcnt, fPay := t.fPay
                   fPayGen := t.fPayGen, fcSt := t.fcSt, free := t.free } ∧
      (∀ a, t.csByte a = s.csByte a ∧ t.fbByte a = s.fbByte a) ∧
      (t.fcSt ≠ .ok → t.fDst = s.fDst ∧ t.fSrc = s.fSrc ∧ t.fLen = s.fLen ∧ t.fPcnt = s.fPcnt ∧
        ∀ a, t.payByte a = s.payByte a) := by
  rcases execFromBytes_cases s with ⟨f, -, hexec⟩ | ⟨c, -, -, hexec⟩
  · exact ⟨_, hexec, rfl, fun a => ⟨rfl, rfl⟩, fun hst => absurd rfl hst⟩
  · exact ⟨_, hexec, rfl, fun a => ⟨rfl, rfl⟩, fun _ => ⟨rfl, rfl, rfl, rfl, fun _ => rfl⟩⟩

end CodecFrame

/-- Settles O36: each operation on the path it takes; what `TO_BYTES` writes ends below index 1504, and no legal state
stores anything from there on. -/
theorem codecFrame : Obligations.CodecFrame := fun s hi => ⟨execToBytes_changes hi, execFromBytes_changes s⟩

end Sys2Proof.Machine
end

section
/-! PROOFS. One step of the machine: it keeps the invariant and does not fault; what it does with each input offered to
the idle machine (spec/10_state.md R34 to R36, spec/20_memory.md R52 to R54). -/

namespace Sys2Proof.Machine

/-! ### The invariant -/

section Invariant

variable {s : State}

/-- Every step of a legal state ends in a legal state, or is the one refusal. -/
theorem sound_step (h : s.Inv) : Sound State.Inv (step s) := by
  unfold step
  split
  · split
    · exact h
    next x rest _ => exact sound_takeInput x (s := { s with inbox := rest }) h
  · exact sound_tick h

theorem inv_reset : State.reset.Inv := ⟨by decide, by decide, by decide, addrPort_ne_dataPort⟩

end Invariant

/-- Settles O43: a step is an input taken or a port cycle of the operation in progress, and each keeps the invariant. -/
theorem everyStepKeepsTheInvariant : Obligations.EveryStepKeepsTheInvariant := fun _ _ hi ht => (sound_step hi).next ht

/-- Settles O45: the same case analysis leaves no fault, and one refusal. -/
theorem stepsDoNotFault : Obligations.StepsDoNotFault := fun _ hi =>
  ⟨(sound_step hi).not_fault, fun _ => (sound_step hi).refused⟩

/-- Settles O44: the memories are empty, the counts zero, and the platform's two port numbers differ (log 9). -/
theorem invariantHoldsAtReset : Obligations.InvariantHoldsAtReset := inv_reset

/-! ### An input offered to the idle machine -/

section Inputs

variable {s : State} {rest : List Input}

theorem step_takes {x : Input} (hp : s.ph = .idle) (hx : s.inbox = x :: rest) :
    step s = takeInput x { s with inbox := rest } := by
  rw [step, if_pos hp, hx]

theorem step_nothing_offered (hp : s.ph = .idle) (hx : s.inbox = []) : step s = .next s := by
  rw [step, if_pos hp, hx]

/-- A word that decodes to an operation runs it (R80, R110). -/
theorem takeInput_command {w : CommandWord} {i : Instr} (h : decode w = .instr i) :
    takeInput (.command w) s = exec i s := by
  simp only [takeInput, h]

theorem step_command {w : CommandWord} {i : Instr} (hp : s.ph = .idle) (hx : s.inbox = .command w :: rest)
    (h : decode w = .instr i) : step s = exec i { s with inbox := rest } := by
  rw [step_takes hp hx, takeInput_command h]

theorem step_read {r : ClientReg} (hp : s.ph = .idle) (hx : s.inbox = .read r :: rest) :
    step s = .next { s with inbox := rest, seen := s.seen ++ [⟨r, clientRead r s⟩] } :=
  step_takes hp hx

theorem step_write {c : ClientWrite} (hp : s.ph = .idle) (hx : s.inbox = .write c :: rest) :
    step s = .next (clientWrite c { s with inbox := rest }) :=
  step_takes hp hx

theorem step_reset (hp : s.ph = .idle) (hx : s.inbox = .reset :: rest) :
    step s = .next (applyReset { s with inbox := rest }) :=
  step_takes hp hx

theorem step_agent {a : AgentStep} (hp : s.ph = .idle) (hx : s.inbox = .agent a :: rest) :
    step s = agentStep a { s with inbox := rest } :=
  step_takes hp hx

end Inputs

/-- The operation of a word of the opcode table is the one its command word decodes to. -/
theorem decode_tableWord {nbits w : Nat} {i : Instr} (h : decodeTableWord nbits w = some i) :
    decode (tableWord nbits w) = .instr i := by
  unfold decodeTableWord at h
  split at h
  next j hj => rw [hj, Option.some.inj h]
  next => cases h

/-- Settles O47: the step takes the word, and the word runs the operation it decodes to. -/
theorem stepRunsTheDecodedOperation : Obligations.StepRunsTheDecodedOperation := by
  unfold Obligations.StepRunsTheDecodedOperation
  refine ⟨fun w i rest s hp hx hw => step_command hp hx hw, fun nbits w i s h => ?_,
    fun s hp hx => step_nothing_offered hp hx⟩
  exact step_command (s := s.withFetchWord nbits w) (rest := s.inbox) rfl rfl (decode_tableWord h)

/-! ### A client's reads and writes -/

/-- Settles O39: the step delivers `clientRead`, which is the register's value, its code, or the phase's test. -/
theorem clientReads : Obligations.ClientReads := by
  unfold Obligations.ClientReads
  refine ⟨fun r rest s hp hx => step_read hp hx, fun s => ?_⟩
  have hbusy : clientRead .busy s = if s.ph = .idle then 0#32 else 1#32 := by
    by_cases hp : s.ph = .idle <;> simp [clientRead, State.busy, hp]
  have hfc (c : Status) (h : s.fcSt = c) : clientRead .fcSt s = (statusCode c).setWidth 32 := by
    rw [← h]
    rfl
  have hcsa (c : Status) (h : s.csaSt = c) : clientRead .csaSt s = (statusCode c).setWidth 32 := by
    rw [← h]
    rfl
  exact ⟨rfl, hbusy, hfc .ok, hfc .noStart, hfc .invalidPacket, hfc .encodeRefused, hfc .illegalCommand,
    hcsa .ok, hcsa .illegalCommand, fun i => ⟨rfl, rfl⟩, rfl, rfl, fun _ => rfl, fun _ => rfl, rfl⟩

section ClientWrites

/-- A byte written to a memory reads back, whether it is listed or is what an unlisted byte reads as. -/
theorem getD_find_write {dflt : Option Byte} {size : Nat} {m : Memory} {i a : Nat} {v u : Byte}
    (hm : Memory.wf dflt size m = true) (hu : ∀ b, dflt = some b → a = i → u = b) :
    (Memory.find a (Memory.write dflt i v m)).getD u = if a = i then v else (Memory.find a m).getD u := by
  rw [find_write a i v hm]
  split
  next ha =>
    split
    next hv => exact hu v hv ha
    next => rfl
  next => rfl

/-- What an unlisted byte of `F_PAY` reads as, where a fixed byte is named for it. -/
theorem unlistedPay_of_payDflt {gen a : Nat} {b : Byte} (h : payDflt gen = some b) : unlistedPay gen a = b := by
  by_cases hg : gen = 0
  · simpa [payDflt, unlistedPay, hg] using h
  · simp [payDflt, hg] at h

variable {s : State} {rest : List Input}

theorem fbByte_clientWrite (h : s.Inv) (i : Fin 1504) (v : Byte) (a : Nat) :
    (clientWrite (.fb i v) s).fbByte a = if a = i.val then v else s.fbByte a := by
  obtain ⟨⟨-, hfb, -⟩, -, -, -⟩ := h
  exact getD_find_write hfb fun b hb _ => Option.some.inj hb

theorem payByte_clientWrite (h : s.Inv) (i : Fin 1454) (v : Byte) (a : Nat) :
    (clientWrite (.fPay i v) s).payByte a = if a = i.val then v else s.payByte a := by
  obtain ⟨⟨-, -, hpay⟩, -, -, -⟩ := h
  exact getD_find_write hpay fun b hb _ => unlistedPay_of_payDflt hb

theorem getElem_set_fin (x : Vector Byte 6) (i j : Fin 6) (v : Byte) :
    (x.set i.val v i.isLt)[j] = if j = i then v else x[j] := by
  rw [Fin.getElem_fin, Vector.getElem_set]
  exact if_congr (by rw [Fin.ext_iff, eq_comm]) rfl rfl

end ClientWrites

/-- Settles O40: the step is the write; a byte array reads back the byte at its index and every other byte as before, a
count fits its register. -/
theorem clientWritesOneByteOrRegister : Obligations.ClientWritesOneByteOrRegister := by
  unfold Obligations.ClientWritesOneByteOrRegister
  intro s rest hi hp
  refine ⟨fun i v hx => ⟨_, step_write hp hx, rfl, ?_⟩, fun i v hx => ⟨_, step_write hp hx, rfl, ?_⟩,
    fun i v hx => ⟨_, step_write hp hx, rfl, fun j => getElem_set_fin s.fDst i j v⟩,
    fun i v hx => ⟨_, step_write hp hx, rfl, fun j => getElem_set_fin s.fSrc i j v⟩,
    fun v hx => step_write hp hx, fun n hx => ⟨_, step_write hp hx, rfl, ?_⟩,
    fun n hx => ⟨_, step_write hp hx, rfl, ?_⟩⟩
  · exact fbByte_clientWrite (s := { s with inbox := rest }) hi i v
  · exact payByte_clientWrite (s := { s with inbox := rest }) hi i v
  · exact (BitVec.toNat_ofNat ..).trans (Nat.mod_eq_of_lt (by omega))
  · exact (BitVec.toNat_ofNat ..).trans (Nat.mod_eq_of_lt (by omega))

/-! ### Reset, and other agents -/

/-- Settles O41: the reset writes registers of the two units only. -/
theorem resetGivesIdleAndOk : Obligations.ResetGivesIdleAndOk := by
  unfold Obligations.ResetGivesIdleAndOk
  exact ⟨⟨rfl, rfl, rfl, rfl⟩, fun s rest hp hx => ⟨_, step_reset hp hx, rfl, rfl, rfl, rfl, rfl, rfl⟩⟩

section OtherAgents

variable {s : State}

theorem portAt_addrPort (s : State) : portAt s.addrPort s = some .addr := if_pos rfl

theorem portAt_dataPort (h : s.addrPort ≠ s.dataPort) : portAt s.dataPort s = some .data := by
  rw [portAt, if_neg h.symm, if_pos rfl]

theorem portAt_none {n : BitVec 16} (ha : n ≠ s.addrPort) (hd : n ≠ s.dataPort) : portAt n s = none := by
  rw [portAt, if_neg ha, if_neg hd]

/-- Another agent's write cycle is that of the port it names (R52, R54). -/
theorem agentStep_portWrite_addr (s : State) (v : Dword) :
    agentStep (.portWrite s.addrPort v) s = .next (portWriteAddr .other v s) := by
  simp only [agentStep, portAt_addrPort]

theorem agentStep_portWrite_data (h : s.addrPort ≠ s.dataPort) (v : Dword) :
    agentStep (.portWrite s.dataPort v) s = portWriteData .other v s := by
  simp only [agentStep, portAt_dataPort h]

/-- Another agent's read cycle on the data port (R53). -/
theorem agentStep_portRead_data (h : s.addrPort ≠ s.dataPort) :
    agentStep (.portRead s.dataPort) s = .next (portReadData .other s) := by
  simp only [agentStep, portAt_dataPort h]

theorem agentStep_portRead_addr (s : State) : agentStep (.portRead s.addrPort) s = .next s := by
  simp only [agentStep, portAt_addrPort]

/-- A cycle on a third port does nothing here (log 18). -/
theorem agentStep_other_port {n : BitVec 16} (ha : n ≠ s.addrPort) (hd : n ≠ s.dataPort) (v : Dword) :
    agentStep (.portWrite n v) s = .next s ∧ agentStep (.portRead n) s = .next s := by
  simp only [agentStep, portAt_none ha hd, and_self]

end OtherAgents

/-- Settles O23: the step is the agent's, which performs the cycle of the port its number names. -/
theorem portCyclesOfOtherAgents : Obligations.PortCyclesOfOtherAgents := by
  unfold Obligations.PortCyclesOfOtherAgents
  intro s v n rest hp hne
  refine ⟨fun hx => ?_, fun hx hc => ?_, fun hx hc => ?_, fun hx hc => ?_, fun hx hc => ?_, fun hx => ?_,
    fun ha hd hx => ?_⟩
  · exact (step_agent hp hx).trans (agentStep_portWrite_addr { s with inbox := rest } v)
  · exact ((step_agent hp hx).trans (agentStep_portWrite_data (s := { s with inbox := rest }) hne v)).trans (if_pos hc)
  · exact ((step_agent hp hx).trans (agentStep_portWrite_data (s := { s with inbox := rest }) hne v)).trans
      (if_neg (by simp [hc]))
  · rw [← dataPortValue_enabled hc]
    exact (step_agent hp hx).trans (agentStep_portRead_data (s := { s with inbox := rest }) hne)
  · exact ⟨_, (step_agent hp hx).trans (agentStep_portRead_data (s := { s with inbox := rest }) hne)⟩
  · exact (step_agent hp hx).trans (agentStep_portRead_addr { s with inbox := rest })
  · obtain ⟨hw, hr⟩ := agentStep_other_port (s := { s with inbox := rest }) ha hd v
    rcases hx with hx | hx
    · exact (step_agent hp hx).trans hw
    · exact (step_agent hp hx).trans hr

end Sys2Proof.Machine
end

section
/-! PROOFS. `RamTarget` as a store (spec/20_memory.md R64), and its byte order (R57). -/

namespace Sys2Proof.Machine

/-! ### A plain store -/

section Store

variable {s t : State} {r q : CfgSel}

/-- Under `RamTarget` a register other than the one written reads as before, whatever has changed beside the store. -/
theorem cfgRead_of_cs_eq_cfgWrite_other (v : Dword) (hi : s.Inv) (hram : s.target = .ram) (hne : q ≠ r)
    (htarget : t.target = s.target) (hpresent : t.present = s.present) (habsent : t.absent = s.absent)
    (hcs : t.cs = (cfgWrite r v s).cs) : cfgRead q t = cfgRead q s := by
  obtain ⟨⟨hm, -, -⟩, -, -, -⟩ := hi
  by_cases hq : q.bdf ∈ s.present
  · have hread : read32 t.cs (cfgBase q) = read32 s.cs (cfgBase q) := by
      rw [hcs, cfgWrite_cs]
      split
      · exact read32_write32_other v hm hne
      · rfl
    rw [cfgRead_ram (htarget.trans hram) (hpresent ▸ hq), cfgRead_ram hram hq, hread]
  · rw [cfgRead_ram_absent (htarget.trans hram) (hpresent ▸ hq), cfgRead_ram_absent hram hq, habsent]

end Store

/-- Settles O24: a present register is written and read at its own place in the store, and no two places overlap. -/
theorem ramTargetIsAStore : Obligations.RamTargetIsAStore := by
  unfold Obligations.RamTargetIsAStore
  intro r q v s hi hram
  refine ⟨fun hr => ?_, fun hne => ?_, fun hr => ⟨cfgRead_ram_absent hram hr, cfgWrite_cs_absent v hr⟩⟩
  · exact cfgRead_of_cs_eq_write32 v hi ⟨hram, hr⟩ rfl rfl (cfgWrite_cs_present v ⟨hram, hr⟩)
  · exact cfgRead_of_cs_eq_cfgWrite_other v hi hram hne.symm rfl rfl rfl rfl

/-! ### Byte order -/

/-- Byte `i` of a register's place is bits `8i+7 : 8i` of its dword (R57). -/
theorem extractLsb'_read32 (m : Memory) (base : Nat) {i : Nat} (hi : i < 4) :
    (read32 m base).extractLsb' (8 * i) 8 = (Memory.find (base + i) m).getD 0#8 := by
  apply BitVec.eq_of_getLsbD_eq
  intro j hj
  rw [BitVec.getLsbD_extractLsb', read32]
  simp only [BitVec.getLsbD_append]
  interval_cases i
  · simp [hj]
  · simp [hj, show ¬ 8 + j < 8 by omega]
  · simp [hj, show ¬ 16 + j < 8 by omega, show ¬ 16 + j - 8 < 8 by omega, show 16 + j - 8 - 8 = j by omega]
  · simp [hj, show ¬ 24 + j < 8 by omega, show ¬ 24 + j - 8 < 8 by omega, show ¬ 24 + j - 8 - 8 < 8 by omega,
      show 24 + j - 8 - 8 - 8 = j by omega]

/-- The offsets `4k` and `4k + 2`: their register and their lane. -/
theorem dword_offsets (k : BitVec 6) :
    (k ++ 0#2 : BitVec (6 + 2)).extractLsb' 2 6 = k ∧ (k ++ 0#2 : BitVec (6 + 2)).getLsbD 1 = false ∧
    (k ++ 2#2 : BitVec (6 + 2)).extractLsb' 2 6 = k ∧ (k ++ 2#2 : BitVec (6 + 2)).getLsbD 1 = true := by
  revert k; decide

/-- Settles O17: the three reads take their bits of one dword, and the store keeps its bytes in that order. -/
theorem lanesAndBytesAreLittleEndian : Obligations.LanesAndBytesAreLittleEndian := by
  unfold Obligations.LanesAndBytesAreLittleEndian
  intro bus dev fn k s hp hq
  obtain ⟨hlo, hlo1, hhi, hhi1⟩ := dword_offsets k
  refine ⟨⟨_, _, _, exec_readDword_quiet bus dev fn _ hp hq, exec_readWord_quiet bus dev fn _ hp hq,
    exec_readWord_quiet bus dev fn _ hp hq, ?_, ?_⟩, fun hr i hi => ?_⟩
  · rw [laneRead_eq, hlo1]
    rfl
  · rw [laneRead_eq, hhi1, operandSel_congr bus dev fn _ (hhi.trans hlo.symm)]
    rfl
  · rw [cfgRead_ram hr.1 hr.2, extractLsb'_read32 _ _ hi]
    rfl

end Sys2Proof.Machine
end

section
/-! PROOFS. The sequencer of unit CSA (spec/40_config_access.md R110): a busy unit takes no command, an operation is its
acceptance and its port cycles, `ST` takes no part in the next one. -/

namespace Sys2Proof.Machine

/-! ### A busy unit -/

section Busy

variable {s : State}

theorem perform_busy (hp : s.ph ≠ .idle) (n : Nat) (op : BitVec 4) (bus : BitVec 8) (dev : BitVec 5) (fn : BitVec 3)
    (off : BitVec 8) (wd : Dword) : perform n op bus dev fn off wd s = .next s := if_neg hp

/-- A word routed to unit CSA is the encoding of no operation of unit FC (R80, R82). -/
theorem decode_ne_fc {w : CommandWord} (hw : w.getLsbD 63 = false) {i : Instr} (hd : decode w = .instr i) :
    i ≠ .toBytes ∧ i ≠ .fromBytes := by
  constructor <;>
  · rintro rfl
    rw [← encode_of_decode hd] at hw
    exact absurd hw (by decide)

/-- A word routed to unit CSA has no effect while that unit is busy (R110, U9; log 14). -/
theorem offer_csa_busy {w : CommandWord} (hp : s.ph ≠ .idle) (hw : w.getLsbD 63 = false) : offer w s = .next s := by
  have hroute : routesToFc w = false := hw
  cases hd : decode w with
  | illegal why => simp only [offer, hd, hroute, whenIdle_busy hp, Bool.false_eq_true, if_false]
  | instr i =>
    obtain ⟨hto, hfrom⟩ := decode_ne_fc hw hd
    cases i with
    | toBytes => exact absurd rfl hto
    | fromBytes => exact absurd rfl hfrom
    | _ => simp only [offer, hd, whenIdle_busy hp]

theorem step_busy (hp : s.ph ≠ .idle) : step s = tick s := if_neg hp

end Busy

/-- Settles O25: acceptance asks for `PH = IDLE`, and a step of a busy machine takes from the schedule alone. -/
theorem busyUnitAcceptsNoCommand : Obligations.BusyUnitAcceptsNoCommand := by
  unfold Obligations.BusyUnitAcceptsNoCommand
  intro bus dev fn off v w c s hp
  refine ⟨perform_busy hp .., perform_busy hp .., perform_busy hp .., perform_busy hp ..,
    fun hc => offer_csa_busy hp hc, fun t ht => ?_⟩
  rw [step_busy hp] at ht
  exact (tick_program hp ht).1

/-! ### An operation is its port cycles -/

section Steps

variable {s : State}

/-- Steps of the machine and of the sequencer agree as long as the operation is in progress. -/
theorem runSteps_eq_runTicks {n : Nat} (hp : s.ph ≠ .idle) (h : ∀ t, tick s = .next t → runSteps n t = runTicks n t) :
    runSteps (n + 1) s = runTicks (n + 1) s := by
  rw [runSteps_tick n hp, runTicks]
  cases ht : tick s with
  | next t => exact h t ht
  | fault f => rfl
  | refused x => rfl

/-- One step of an operation in progress is one of the sequencer. -/
theorem runSteps_one (hp : s.ph ≠ .idle) : runSteps 1 s = runTicks 1 s := runSteps_eq_runTicks hp fun _ _ => rfl

/-- Acceptance and two port cycles, the first in a quiet gap. -/
theorem runSteps_two_accept {op : BitVec 4} {bus : BitVec 8} {dev : BitVec 5} {fn : BitVec 3} {off : BitVec 8}
    {wd : Dword} {p : Phase} (ho : afterAddr op = some p) (hne : p ≠ .idle) (hp : s.ph = .idle) (hq : s.Quiet 1) :
    runSteps 2 (accept op bus dev fn off wd s) = perform 2 op bus dev fn off wd s := by
  rw [perform, if_pos hp]
  refine runSteps_eq_runTicks (by simp) fun t ht => ?_
  rw [tick_accept ho hq] at ht
  cases ht
  exact runSteps_one hne

/-- Acceptance of `WRITE_WORD` and its three port cycles, the first two in quiet gaps. -/
theorem runSteps_three_accept (bus : BitVec 8) (dev : BitVec 5) (fn : BitVec 3) (off : BitVec 8) (wd : Dword)
    (hp : s.ph = .idle) (hq : s.Quiet 2) :
    runSteps 3 (accept opWriteWord bus dev fn off wd s) = perform 3 opWriteWord bus dev fn off wd s := by
  rw [perform, if_pos hp]
  refine runSteps_eq_runTicks (by simp) fun t ht => ?_
  rw [tick_accept afterAddr_writeWord (quiet_mono (by omega) hq)] at ht
  cases ht
  refine runSteps_eq_runTicks (by simp) fun u hu => ?_
  rw [tick_fetch_quiet rfl rfl rfl (take_drop_of_take (by omega) hq)] at hu
  cases hu
  exact runSteps_one (by simp)

end Steps

/-- Settles O26: until its last cycle the operation is in progress, so each step of the machine is one of the
sequencer. -/
theorem stepsOfASequencerMakeTheOperation : Obligations.StepsOfASequencerMakeTheOperation := by
  unfold Obligations.StepsOfASequencerMakeTheOperation
  intro bus dev fn off v w s hp hq
  have hq1 : s.Quiet 1 := quiet_mono (by omega) hq
  exact ⟨runSteps_two_accept afterAddr_readWord (by simp) hp hq1,
    runSteps_two_accept afterAddr_readDword (by simp) hp hq1,
    runSteps_two_accept afterAddr_writeDword (by simp) hp hq1,
    runSteps_three_accept bus dev fn off _ hp (quiet_mono (by omega) hq)⟩

/-! ### The status before a command -/

theorem execToBytes_of_fcSt (s : State) (c : Status) : execToBytes { s with fcSt := c } = execToBytes s := by
  by_cases h : s.FrameOk
  · rw [execToBytes_ok h, execToBytes_ok (s := { s with fcSt := c }) h]
    rfl
  · rw [execToBytes_refused h, execToBytes_refused (s := { s with fcSt := c }) h]
    rfl

theorem execFromBytes_of_fcSt (s : State) (c : Status) : execFromBytes { s with fcSt := c } = execFromBytes s := by
  rcases execFromBytes_cases s with ⟨f, hd, hexec⟩ | ⟨e, hd, -, hexec⟩
  · rw [hexec]
    exact execFromBytes_frame (s := { s with fcSt := c }) hd
  · rw [hexec]
    exact execFromBytes_fails (s := { s with fcSt := c }) hd

/-- Settles O38: no branch of an operation looks at `ST`, and its last step writes it. -/
theorem statusDoesNotAffectTheNextCommand : Obligations.StatusDoesNotAffectTheNextCommand := by
  unfold Obligations.StatusDoesNotAffectTheNextCommand
  refine ⟨fun s c => ⟨execToBytes_of_fcSt s c, execFromBytes_of_fcSt s c⟩, fun bus dev fn off v w s c hp hq => ?_⟩
  have hq2 : s.Quiet 2 := quiet_mono (by omega) hq
  refine ⟨?_, ?_, ?_, ?_⟩
  · rw [exec_readWord_quiet bus dev fn off hp hq2]
    exact exec_readWord_quiet (s := { s with csaSt := c }) bus dev fn off hp hq2
  · rw [exec_readDword_quiet bus dev fn off hp hq2]
    exact exec_readDword_quiet (s := { s with csaSt := c }) bus dev fn off hp hq2
  · rw [exec_writeWord_quiet bus dev fn off v hp hq]
    exact exec_writeWord_quiet (s := { s with csaSt := c }) bus dev fn off v hp hq
  · rw [exec_writeDword_quiet bus dev fn off w hp hq2]
    exact exec_writeDword_quiet (s := { s with csaSt := c }) bus dev fn off w hp hq2

end Sys2Proof.Machine
end

section
/-! PROOFS. Hazards of an operation in progress (spec/70_reset_and_hazards.md): a reset in a gap (R200), another agent's
write of the address port (R203), a device's change of the register before the write-back (R204). -/

namespace Sys2Proof.Machine

/-! ### Up to the gap in which something falls -/

section Gaps

variable {s : State} {gs : List (List Input)}

theorem quiet_one_of_gaps (hg : s.gaps = [] :: gs) : s.Quiet 1 := by
  intro g hmem
  simpa [hg] using hmem

theorem quiet_two_of_gaps (hg : s.gaps = [] :: [] :: gs) : s.Quiet 2 := by
  intro g hmem
  simpa [hg] using hmem

theorem andThen_runTicks_zero (r : Result) : andThen r (runTicks 0) = r := by
  cases r <;> rfl

theorem runTicks_one (s : State) : runTicks 1 s = tick s := andThen_runTicks_zero (tick s)

/-- No operation is over after its address cycle (R110). -/
theorem afterAddr_ne_idle {op : BitVec 4} {p : Phase} (ho : afterAddr op = some p) : p ≠ .idle := by
  rintro rfl
  revert op
  decide

end Gaps

/-- `WRITE_WORD` between its fetch and its write-back, when nothing has fallen in the gaps so far (R114). -/
def fetched (bus : BitVec 8) (dev : BitVec 5) (fn : BitVec 3) (off : BitVec 8) (v : Half) (s : State) : State :=
  { s with
    op := opWriteWord, bus := bus, dev := dev, fn := fn, off := off, wd := v.setWidth 32, ph := .dwrite
    ca := addressWord bus dev fn off
    tmp := cfgRead (operandSel bus dev fn off) s
    trace := s.trace ++ [⟨.csa, .aw (addressWord bus dev fn off)⟩, ⟨.csa, .dr (cfgRead (operandSel bus dev fn off) s)⟩]
    free := s.free + 1
    gaps := s.gaps.drop 2 }

section Fetched

variable {bus : BitVec 8} {dev : BitVec 5} {fn : BitVec 3} {off : BitVec 8} {s : State}

/-- Once the two gaps before it were quiet, `WRITE_WORD` is its last step. -/
theorem exec_writeWord_fetched (v : Half) (hp : s.ph = .idle) (hq : s.Quiet 2) :
    exec (.writeWord bus dev fn off v) s = tick (fetched bus dev fn off v s) := by
  rw [exec, execWriteWord, perform_addressCycle afterAddr_writeWord hp (quiet_mono (by omega) hq), runTicks,
    tick_fetch_quiet rfl rfl rfl (take_drop_of_take (by omega) hq), andThen_next, runTicks_one]
  simp [fetched, cfgRead, targetAnswer]

/-- What the write-back writes: the lane replaced in the dword fetched (R114). -/
theorem writeValue_fetched (v : Half) :
    writeValue (fetched bus dev fn off v s) = some (laneMerge (cfgRead (operandSel bus dev fn off) s) off v) := by
  rw [writeValue_writeWord rfl]
  exact congrArg (fun x => some (laneMerge (cfgRead (operandSel bus dev fn off) s) off x)) (value_of_latch v)

end Fetched

/-! ### A reset in a gap -/

section Reset

variable {op : BitVec 4} {bus : BitVec 8} {dev : BitVec 5} {fn : BitVec 3} {off : BitVec 8} {wd : Dword} {s : State}
  {n : Nat} {rest : List (List Input)}

theorem perform_reset_before_address (hp : s.ph = .idle) (hg : s.gaps = [.reset] :: rest) :
    perform (n + 1) op bus dev fn off wd s = .next (applyReset { s with gaps := rest }) := by
  rw [perform, if_pos hp, runTicks, tick_after_reset (s := accept op bus dev fn off wd s) (by simp) hg, andThen_next,
    runTicks_idle _ rfl]
  rfl

theorem perform_reset_after_address {p : Phase} (ho : afterAddr op = some p) (hp : s.ph = .idle)
    (hg : s.gaps = [] :: [.reset] :: rest) :
    perform (n + 2) op bus dev fn off wd s = .next (applyReset
      { s with trace := s.trace ++ [⟨.csa, .aw (addressWord bus dev fn off)⟩], gaps := rest }) := by
  rw [perform_addressCycle ho hp (quiet_one_of_gaps hg), runTicks, tick_after_reset (gs := rest) (afterAddr_ne_idle ho),
    andThen_next, runTicks_idle _ rfl]
  · rfl
  · rw [hg, List.drop_one, List.tail_cons]

theorem exec_writeWord_reset_after_fetch (v : Half) (hp : s.ph = .idle) (hg : s.gaps = [] :: [] :: [.reset] :: rest) :
    exec (.writeWord bus dev fn off v) s = .next (applyReset
      { s with
        trace := s.trace ++ [⟨.csa, .aw (addressWord bus dev fn off)⟩,
          ⟨.csa, .dr (cfgRead (operandSel bus dev fn off) s)⟩]
        free := s.free + 1, gaps := rest }) := by
  rw [exec_writeWord_fetched v hp (quiet_two_of_gaps hg), tick_after_reset (gs := rest)]
  · rfl
  · simp [fetched]
  · simp [fetched, hg]

end Reset

/-- Settles O42: the reset ends the operation before the next cycle, whatever operation it is; the cycles before it
stand in the record. -/
theorem resetAbandonsTheOperation : Obligations.ResetAbandonsTheOperation := by
  unfold Obligations.ResetAbandonsTheOperation
  intro bus dev fn off v w rest s hp
  refine ⟨fun hg i hi => ⟨applyReset { s with gaps := rest }, ?_, rfl, rfl, rfl, rfl, rfl, rfl⟩,
    fun hg i hi => ⟨applyReset { s with trace := s.trace ++ [⟨.csa, .aw (addressWord bus dev fn off)⟩], gaps := rest },
      ?_, rfl, rfl, rfl, rfl, rfl, rfl⟩,
    fun hg => ⟨_, exec_writeWord_reset_after_fetch v hp hg, rfl, rfl, rfl, rfl, rfl, rfl⟩⟩
  · rcases hi with rfl | rfl | rfl | rfl <;> exact perform_reset_before_address hp hg
  · rcases hi with rfl | rfl | rfl | rfl
    · exact perform_reset_after_address afterAddr_readWord hp hg
    · exact perform_reset_after_address afterAddr_readDword hp hg
    · exact perform_reset_after_address afterAddr_writeWord hp hg
    · exact perform_reset_after_address afterAddr_writeDword hp hg

/-! ### The address port rewritten before the first data cycle -/

/-- An operation after its address cycle, when another agent has then written `x` to the address port (R203); `gs` is
what falls in the gaps after that. -/
def addressRewritten (op : BitVec 4) (bus : BitVec 8) (dev : BitVec 5) (fn : BitVec 3) (off : BitVec 8) (wd : Dword)
    (p : Phase) (x : Dword) (gs : List (List Input)) (s : State) : State :=
  { s with
    op := op, bus := bus, dev := dev, fn := fn, off := off, wd := wd, ph := p, ca := x
    trace := s.trace ++ [⟨.csa, .aw (addressWord bus dev fn off)⟩, ⟨.other, .aw x⟩]
    gaps := gs }

/-- `WRITE_WORD` after the fetch that follows a rewritten address. -/
def refetched (bus : BitVec 8) (dev : BitVec 5) (fn : BitVec 3) (off : BitVec 8) (v : Half) (x : Dword)
    (rest : List (List Input)) (s : State) : State :=
  let u := addressRewritten opWriteWord bus dev fn off (v.setWidth 32) .dread x rest s
  { portReadData .csa u with tmp := dataPortValue u, ph := .dwrite }

section Rewritten

variable {bus : BitVec 8} {dev : BitVec 5} {fn : BitVec 3} {off : BitVec 8} {s : State} {x : Dword}
  {rest : List (List Input)}

theorem perform_addressRewritten {op : BitVec 4} {wd : Dword} {p : Phase} {n : Nat} (ho : afterAddr op = some p)
    (hp : s.ph = .idle) (hg : s.gaps = [] :: [.agent (.portWrite s.addrPort x)] :: rest) :
    perform (n + 2) op bus dev fn off wd s =
      andThen (portCycle (addressRewritten op bus dev fn off wd p x rest s)) (runTicks n) := by
  rw [perform_addressCycle ho hp (quiet_one_of_gaps hg), runTicks,
    tick_after_addressWrite (x := x) (gs := rest) (afterAddr_ne_idle ho)]
  · simp [addressRewritten]
  · rw [hg, List.drop_one, List.tail_cons]

/-- The data port then gives the register `x` selects (R53, R55; log 12). -/
theorem dataPortValue_addressRewritten {op : BitVec 4} {wd : Dword} {p : Phase} (hx : caEnabled x = true) :
    dataPortValue (addressRewritten op bus dev fn off wd p x rest s) = cfgRead (caSelect x) s :=
  dataPortValue_enabled hx

theorem exec_readDword_addressRewritten (hp : s.ph = .idle)
    (hg : s.gaps = [] :: [.agent (.portWrite s.addrPort x)] :: rest) :
    ∃ t, exec (.readDword bus dev fn off) s = .next t ∧ t.ca = x ∧ t.csaSt = .ok ∧ t.ph = .idle ∧ t.cs = s.cs ∧
      (caEnabled x = true → t.rd = cfgRead (caSelect x) s) := by
  rw [exec, execReadDword, perform_addressRewritten afterAddr_readDword hp hg, portCycle_dread_readDword rfl rfl]
  exact ⟨_, rfl, rfl, rfl, rfl, rfl, dataPortValue_addressRewritten⟩

theorem exec_readWord_addressRewritten (hp : s.ph = .idle)
    (hg : s.gaps = [] :: [.agent (.portWrite s.addrPort x)] :: rest) :
    ∃ t, exec (.readWord bus dev fn off) s = .next t ∧ t.ca = x ∧ t.csaSt = .ok ∧ t.ph = .idle ∧ t.cs = s.cs ∧
      (caEnabled x = true → t.rd = (laneRead (cfgRead (caSelect x) s) off).setWidth 32) := by
  rw [exec, execReadWord, perform_addressRewritten afterAddr_readWord hp hg, portCycle_dread_readWord rfl rfl]
  refine ⟨_, rfl, rfl, rfl, rfl, rfl, fun hx => ?_⟩
  rw [setStatus_csa_rd, dataPortValue_addressRewritten hx]
  rfl

theorem writeValue_addressRewritten (w : Dword) :
    writeValue (addressRewritten opWriteDword bus dev fn off w .dwrite x rest s) = some w := writeValue_writeDword rfl

theorem exec_writeDword_addressRewritten (w : Dword) (hp : s.ph = .idle)
    (hg : s.gaps = [] :: [.agent (.portWrite s.addrPort x)] :: rest) :
    exec (.writeDword bus dev fn off w) s =
      portCycle (addressRewritten opWriteDword bus dev fn off w .dwrite x rest s) := by
  rw [exec, execWriteDword, perform_addressRewritten afterAddr_writeDword hp hg, andThen_runTicks_zero]

theorem exec_writeWord_refetched (v : Half) (hp : s.ph = .idle)
    (hg : s.gaps = [] :: [.agent (.portWrite s.addrPort x)] :: [] :: rest) :
    exec (.writeWord bus dev fn off v) s = portCycle (refetched bus dev fn off v x rest s) := by
  rw [exec, execWriteWord, perform_addressRewritten afterAddr_writeWord hp hg, portCycle_dread_writeWord rfl rfl,
    andThen_next, runTicks_one, tick_quiet (by simp) (quiet_one_of_gaps rfl)]
  rfl

theorem writeValue_refetched (v : Half) : writeValue (refetched bus dev fn off v x rest s) =
    some (laneMerge (refetched bus dev fn off v x rest s).tmp off v) := by
  rw [writeValue_writeWord rfl]
  exact congrArg (fun y => some (laneMerge (refetched bus dev fn off v x rest s).tmp off y)) (value_of_latch v)

/-- The fetch has read the register `x` selects. -/
theorem refetched_tmp (v : Half) (hx : caEnabled x = true) :
    (refetched bus dev fn off v x rest s).tmp = cfgRead (caSelect x) s := dataPortValue_addressRewritten hx

theorem refetched_trace (v : Half) (hx : caEnabled x = true) : (refetched bus dev fn off v x rest s).trace =
    s.trace ++ [⟨.csa, .aw (addressWord bus dev fn off)⟩, ⟨.other, .aw x⟩, ⟨.csa, .dr (cfgRead (caSelect x) s)⟩] := by
  simp only [refetched, portReadData_trace, dataPortValue_addressRewritten hx]
  simp [addressRewritten]

/-- With `CA[31] = 0` at the data write, the write is refused (log 11). -/
theorem exec_write_addressDisabled (v : Half) (w : Dword) (hp : s.ph = .idle)
    (hg : s.gaps = [] :: [.agent (.portWrite s.addrPort x)] :: [] :: rest) (hx : caEnabled x = false) :
    exec (.writeDword bus dev fn off w) s = .refused .dataWriteWhileDisabled ∧
      exec (.writeWord bus dev fn off v) s = .refused .dataWriteWhileDisabled := by
  constructor
  · rw [exec_writeDword_addressRewritten w hp hg,
      portCycle_dwrite_disabled rfl (writeValue_addressRewritten w) hx]
  · rw [exec_writeWord_refetched v hp hg, portCycle_dwrite_disabled rfl (writeValue_refetched v) hx]

end Rewritten

/-- Settles O19: every data cycle goes by the value in `CA` at its moment, and the write is a configuration write of the
register that value selects. -/
theorem addressRewrittenInsideAnOperation : Obligations.AddressRewrittenInsideAnOperation := by
  unfold Obligations.AddressRewrittenInsideAnOperation
  intro bus dev fn off v w x rest s hp hg
  refine ⟨exec_readDword_addressRewritten hp hg, exec_readWord_addressRewritten hp hg, fun hx => ?_, fun hx => ?_,
    exec_write_addressDisabled v w hp hg⟩
  · rw [exec_writeDword_addressRewritten w hp hg, portCycle_dwrite rfl (writeValue_addressRewritten w) hx]
    refine ⟨_, rfl, rfl, rfl, rfl, rfl, fun hi hr => ?_, fun hi hram hne => ?_⟩
    · exact cfgRead_of_cs_eq_write32 w hi hr rfl rfl (cfgWrite_cs_present w hr)
    · exact cfgRead_of_cs_eq_cfgWrite_other w hi hram hne rfl rfl rfl rfl
  · rw [exec_writeWord_refetched v hp hg, portCycle_dwrite rfl (writeValue_refetched v) hx, refetched_tmp v hx]
    refine ⟨_, rfl, rfl, rfl, refetched_tmp v hx, rfl, rfl, ?_, fun hi hr => ?_, fun hi hram hne => ?_⟩
    · simp [refetched_trace v hx]
    · exact cfgRead_of_cs_eq_write32 _ hi hr rfl rfl (cfgWrite_cs_present _ hr)
    · exact cfgRead_of_cs_eq_cfgWrite_other _ hi hram hne rfl rfl rfl rfl

/-! ### Something falls between the fetch and the write-back -/

/-- `WRITE_WORD` before its write-back, when another agent has written `x` to the address port since the fetch. -/
def redirected (bus : BitVec 8) (dev : BitVec 5) (fn : BitVec 3) (off : BitVec 8) (v : Half) (x : Dword)
    (rest : List (List Input)) (s : State) : State :=
  { fetched bus dev fn off v s with
    ca := x, trace := (fetched bus dev fn off v s).trace ++ [⟨.other, .aw x⟩], gaps := rest }

/-- `WRITE_WORD` before its write-back, when a device has changed the register to `x` since the fetch. -/
def overtaken (bus : BitVec 8) (dev : BitVec 5) (fn : BitVec 3) (off : BitVec 8) (v : Half) (x : Dword)
    (rest : List (List Input)) (s : State) : State :=
  { fetched bus dev fn off v s with cs := write32 (cfgBase (operandSel bus dev fn off)) x s.cs, gaps := rest }

section WriteBack

variable {bus : BitVec 8} {dev : BitVec 5} {fn : BitVec 3} {off : BitVec 8} {s : State} {x : Dword}
  {rest : List (List Input)}

theorem exec_writeWord_redirected (v : Half) (hp : s.ph = .idle)
    (hg : s.gaps = [] :: [] :: [.agent (.portWrite s.addrPort x)] :: rest) :
    exec (.writeWord bus dev fn off v) s = portCycle (redirected bus dev fn off v x rest s) := by
  rw [exec_writeWord_fetched v hp (quiet_two_of_gaps hg), tick_after_addressWrite (x := x) (gs := rest)]
  · rfl
  · simp [fetched]
  · simp [fetched, hg]

theorem writeValue_redirected (v : Half) : writeValue (redirected bus dev fn off v x rest s) =
    some (laneMerge (cfgRead (operandSel bus dev fn off) s) off v) := writeValue_fetched v

theorem exec_writeWord_overtaken (v : Half) (hp : s.ph = .idle) (hram : s.target = .ram)
    (hg : s.gaps = [] :: [] :: [.agent (.csChange (operandSel bus dev fn off) x)] :: rest) :
    exec (.writeWord bus dev fn off v) s = portCycle (overtaken bus dev fn off v x rest s) := by
  rw [exec_writeWord_fetched v hp (quiet_two_of_gaps hg),
    tick_after_csChange (r := operandSel bus dev fn off) (x := x) (gs := rest)]
  · rfl
  · simp [fetched]
  · exact hram
  · simp [fetched, hg]

theorem writeValue_overtaken (v : Half) : writeValue (overtaken bus dev fn off v x rest s) =
    some (laneMerge (cfgRead (operandSel bus dev fn off) s) off v) := writeValue_fetched v

theorem caEnabled_overtaken (v : Half) : caEnabled (overtaken bus dev fn off v x rest s).ca = true :=
  caEnabled_addressWord bus dev fn off

theorem caSelect_overtaken (v : Half) :
    caSelect (overtaken bus dev fn off v x rest s).ca = operandSel bus dev fn off :=
  caSelect_addressWord bus dev fn off

theorem inv_fetched (v : Half) (hi : s.Inv) : (fetched bus dev fn off v s).Inv := by
  obtain ⟨hm, ⟨hcount, hlen, hgen⟩, ⟨-, hst⟩, hports⟩ := hi
  exact ⟨hm, ⟨hcount, hlen, Nat.le_succ_of_le hgen⟩, ⟨rfl, hst⟩, hports⟩

theorem inv_overtaken (v : Half) (hi : s.Inv) : (overtaken bus dev fn off v x rest s).Inv := by
  obtain ⟨⟨hcs, hfb, hpay⟩, hrest⟩ := inv_fetched (bus := bus) (dev := dev) (fn := fn) (off := off) v hi
  exact ⟨⟨wf_write32 x hcs (cfgBase_lt _), hfb, hpay⟩, hrest⟩

end WriteBack

/-- Settles O20: the dword formed is that of the register meant, and the last cycle writes it where `CA` then points. -/
theorem addressRewrittenBeforeTheWriteBack : Obligations.AddressRewrittenBeforeTheWriteBack := by
  unfold Obligations.AddressRewrittenBeforeTheWriteBack
  intro bus dev fn off v x rest s hp hg
  rw [exec_writeWord_redirected v hp hg]
  refine ⟨fun hx => ?_, fun hx => portCycle_dwrite_disabled rfl (writeValue_redirected v) hx⟩
  refine ⟨_, _, portCycle_dwrite rfl (writeValue_redirected v) hx, rfl, rfl, rfl, rfl, rfl, rfl, ?_,
    fun hi hram hne => ?_⟩
  · simp [redirected, fetched]
  · exact cfgRead_of_cs_eq_cfgWrite_other _ hi hram hne rfl rfl rfl rfl

/-- Settles O21: the device's value stands in the store only until the write-back, which goes by what was fetched. -/
theorem updateBetweenFetchAndWriteBackIsLost : Obligations.UpdateBetweenFetchAndWriteBackIsLost := by
  unfold Obligations.UpdateBetweenFetchAndWriteBackIsLost
  intro bus dev fn off v x rest s hi hp hr hg
  rw [exec_writeWord_overtaken v hp hr.1 hg,
    portCycle_dwrite rfl (writeValue_overtaken v) (caEnabled_overtaken v), caSelect_overtaken]
  refine ⟨_, rfl, rfl, ?_⟩
  exact cfgRead_of_cs_eq_write32 (s := overtaken bus dev fn off v x rest s) _ (inv_overtaken v hi) hr rfl rfl
    (cfgWrite_cs_present _ hr)

end Sys2Proof.Machine
end

section
/-! PROOFS. Exclusive use of the ports (spec/20_memory.md R69): every operation of unit CSA completes with its record
(spec/40_config_access.md R119), an operation in progress ends (spec/70_reset_and_hazards.md R212), and a client that
waits gets the unit (R110, R214). -/

namespace Sys2Proof.Machine

/-! ### The operations under exclusive use -/

/-- The last cycle of a read, of the dword `d`, whose result is `r` (R53, R111, R113). -/
def afterReadCycle (d r : Dword) (s : State) : State :=
  { s with
    rd := r, ph := .idle, csaSt := .ok, trace := s.trace ++ [⟨.csa, .dr d⟩], gaps := s.gaps.drop 1 }

section ReadCycles

variable {s : State} {n : Nat}

theorem tick_readDword_exclusive (h : s.ExclusivePorts (n + 1)) (hp : s.ph = .dread) (ho : s.op = opReadDword) :
    ∃ t d, tick s = .next t ∧ SameCsa (afterReadCycle d d s) t := by
  obtain ⟨u, htick, su, -, -⟩ := tick_exclusive h (by simp [hp])
  refine ⟨_, dataPortValue u, htick.trans (portCycle_dread_readDword (su.ph.trans hp) (su.op.trans ho)), ?_⟩
  unfold SameCsa at su ⊢
  rw [su]
  rfl

theorem tick_readWord_exclusive (h : s.ExclusivePorts (n + 1)) (hp : s.ph = .dread) (ho : s.op = opReadWord) :
    ∃ t d, tick s = .next t ∧ SameCsa (afterReadCycle d ((laneRead d s.off).setWidth 32) s) t := by
  obtain ⟨u, htick, su, -, -⟩ := tick_exclusive h (by simp [hp])
  refine ⟨_, dataPortValue u, htick.trans (portCycle_dread_readWord (su.ph.trans hp) (su.op.trans ho)), ?_⟩
  rw [su.off]
  unfold SameCsa at su ⊢
  rw [su]
  rfl

end ReadCycles

section Operations

variable (bus : BitVec 8) (dev : BitVec 5) (fn : BitVec 3) (off : BitVec 8) {s : State}

/-- R111 under exclusive use: the two cycles of `READ_DWORD`, with the dword `d` it read. -/
theorem exec_readDword_exclusive (hp : s.ph = .idle) (h : s.ExclusivePorts 2) :
    ∃ t d, exec (.readDword bus dev fn off) s = .next t ∧
      SameCsa (afterReadCycle d d (afterAddressCycle .dread (accept opReadDword bus dev fn off 0#32 s))) t := by
  obtain ⟨t₁, htick₁, hex₁, same₁⟩ :=
    tick_address_exclusive (s := accept opReadDword bus dev fn off 0#32 s) (n := 1) h rfl rfl
  obtain ⟨t₂, d, htick₂, same₂⟩ := tick_readDword_exclusive hex₁ same₁.ph same₁.op
  refine ⟨t₂, d, ?_, same₁.after same₂ fun _ _ => rfl⟩
  rw [exec, execReadDword, perform, if_pos hp, runTicks, htick₁, andThen_next, runTicks_one, htick₂]

/-- R113 under exclusive use: the two cycles of `READ_WORD`, with the dword `d` it read. -/
theorem exec_readWord_exclusive (hp : s.ph = .idle) (h : s.ExclusivePorts 2) :
    ∃ t d, exec (.readWord bus dev fn off) s = .next t ∧
      SameCsa (afterReadCycle d ((laneRead d off).setWidth 32)
        (afterAddressCycle .dread (accept opReadWord bus dev fn off 0#32 s))) t := by
  obtain ⟨t₁, htick₁, hex₁, same₁⟩ :=
    tick_address_exclusive (s := accept opReadWord bus dev fn off 0#32 s) (n := 1) h rfl rfl
  obtain ⟨t₂, d, htick₂, same₂⟩ := tick_readWord_exclusive hex₁ same₁.ph same₁.op
  have hoff : t₁.off = off := same₁.off
  rw [hoff] at same₂
  refine ⟨t₂, d, ?_, same₁.after same₂ fun _ _ => rfl⟩
  rw [exec, execReadWord, perform, if_pos hp, runTicks, htick₁, andThen_next, runTicks_one, htick₂]

/-- R112 under exclusive use: the two cycles of `WRITE_DWORD`. -/
theorem exec_writeDword_exclusive (w : Dword) (hp : s.ph = .idle) (h : s.ExclusivePorts 2) :
    ∃ t, exec (.writeDword bus dev fn off w) s = .next t ∧
      SameCsa (afterWriteCycle w (afterAddressCycle .dwrite (accept opWriteDword bus dev fn off w s))) t := by
  obtain ⟨t₁, htick₁, hex₁, same₁⟩ :=
    tick_address_exclusive (s := accept opWriteDword bus dev fn off w s) (n := 1) h rfl rfl
  have hca : t₁.ca = addressWord bus dev fn off := same₁.ca
  have hvalue : writeValue t₁ = some w := (writeValue_writeDword same₁.op).trans (congrArg some same₁.wd)
  obtain ⟨t₂, htick₂, same₂, -⟩ :=
    tick_write_exclusive hex₁ same₁.ph hvalue (by rw [hca, caEnabled_addressWord])
  refine ⟨t₂, ?_, same₁.after same₂ fun _ _ => rfl⟩
  rw [exec, execWriteDword, perform, if_pos hp, runTicks, htick₁, andThen_next, runTicks_one, htick₂]

end Operations

theorem exclusivePorts_mono {s : State} {m n : Nat} (hmn : m ≤ n) (h : s.ExclusivePorts n) : s.ExclusivePorts m :=
  fun g hg => h g (List.take_subset_take_left s.gaps hmn hg)

/-- Settles O15: each operation's cycles, one after the other, leave the fields and the record the statement lists. -/
theorem exclusiveUseCompletesWithTheRecord : Obligations.ExclusiveUseCompletesWithTheRecord := by
  unfold Obligations.ExclusiveUseCompletesWithTheRecord
  intro bus dev fn off v w s hp h
  have h2 : s.ExclusivePorts 2 := exclusivePorts_mono (by omega) h
  obtain ⟨t₁, d₁, hexec₁, same₁⟩ := exec_readDword_exclusive bus dev fn off hp h2
  obtain ⟨t₂, d₂, hexec₂, same₂⟩ := exec_readWord_exclusive bus dev fn off hp h2
  obtain ⟨t₃, hexec₃, same₃⟩ := exec_writeDword_exclusive bus dev fn off w hp h2
  obtain ⟨t₄, d₄, hexec₄, same₄, -⟩ := exec_writeWord_exclusive bus dev fn off v hp h
  refine ⟨⟨t₁, d₁, hexec₁, same₁.ph, same₁.field State.csaSt, same₁.ca, same₁.rd, same₁.tmp, ?_⟩,
    ⟨t₂, d₂, hexec₂, same₂.ph, same₂.field State.csaSt, same₂.ca, same₂.rd, same₂.tmp, ?_⟩,
    ⟨t₃, hexec₃, same₃.ph, same₃.field State.csaSt, same₃.ca, same₃.rd, same₃.tmp, ?_⟩,
    ⟨t₄, d₄, hexec₄, same₄.ph, same₄.field State.csaSt, same₄.ca, same₄.rd, same₄.tmp, ?_⟩⟩
  · rw [same₁.trace]
    simp [afterReadCycle, afterAddressCycle, State.addressWord]
  · rw [same₂.trace]
    simp [afterReadCycle, afterAddressCycle, State.addressWord]
  · rw [same₃.trace]
    simp [afterWriteCycle, afterAddressCycle, State.addressWord]
  · rw [same₄.trace]
    simp [afterWriteCycle, afterFetchCycle, afterAddressCycle, State.addressWord]

/-! ### No operation is refused -/

section NotRefused

variable {s : State}

/-- An operation of unit CSA under exclusive use ends idle, with its own address word in `CA`. -/
theorem exec_csa_exclusive (i : Instr) (hto : i ≠ .toBytes) (hfrom : i ≠ .fromBytes) (hp : s.ph = .idle)
    (h : s.ExclusivePorts 3) : ∃ t, exec i s = .next t ∧ t.ph = .idle ∧ t.ca = t.addressWord := by
  have h2 : s.ExclusivePorts 2 := exclusivePorts_mono (by omega) h
  cases i with
  | toBytes => exact absurd rfl hto
  | fromBytes => exact absurd rfl hfrom
  | readWord bus dev fn off =>
    obtain ⟨t, d, hexec, same⟩ := exec_readWord_exclusive bus dev fn off hp h2
    exact ⟨t, hexec, same.ph, same.ca.trans (same.field State.addressWord).symm⟩
  | writeWord bus dev fn off v =>
    obtain ⟨t, d, hexec, same, -⟩ := exec_writeWord_exclusive bus dev fn off v hp h
    exact ⟨t, hexec, same.ph, same.ca.trans (same.field State.addressWord).symm⟩
  | readDword bus dev fn off =>
    obtain ⟨t, d, hexec, same⟩ := exec_readDword_exclusive bus dev fn off hp h2
    exact ⟨t, hexec, same.ph, same.ca.trans (same.field State.addressWord).symm⟩
  | writeDword bus dev fn off w =>
    obtain ⟨t, hexec, same⟩ := exec_writeDword_exclusive bus dev fn off w hp h2
    exact ⟨t, hexec, same.ph, same.ca.trans (same.field State.addressWord).symm⟩

/-- An operation of unit FC always ends, and leaves unit CSA (R140). -/
theorem exec_fc_sameCsa {i : Instr} (hi : i = .toBytes ∨ i = .fromBytes) (s : State) :
    ∃ t, exec i s = .next t ∧ SameCsa s t := by
  rcases hi with rfl | rfl
  · exact execToBytes_sameCsa s
  · exact execFromBytes_sameCsa s

/-- A busy unit CSA turns its four operations away (R110). -/
theorem exec_csa_busy {i : Instr} (hto : i ≠ .toBytes) (hfrom : i ≠ .fromBytes) (hp : s.ph ≠ .idle) :
    exec i s = .next s := by
  cases i with
  | toBytes => exact absurd rfl hto
  | fromBytes => exact absurd rfl hfrom
  | _ => exact perform_busy hp ..

end NotRefused

/-- Settles O46: an operation of unit FC leaves unit CSA, a busy unit CSA turns the others away, and an idle one runs
them. -/
theorem underExclusiveUseNoOperationIsRefused : Obligations.UnderExclusiveUseNoOperationIsRefused := by
  unfold Obligations.UnderExclusiveUseNoOperationIsRefused
  intro i s hi h
  by_cases hfc : i = .toBytes ∨ i = .fromBytes
  · obtain ⟨t, hexec, same⟩ := exec_fc_sameCsa hfc s
    exact ⟨t, hexec, (sound_exec i hi).next hexec, fun hp => same.ph.trans hp, fun _ hto hfrom =>
      absurd hfc (not_or.2 ⟨hto, hfrom⟩), fun _ => same.ca⟩
  · obtain ⟨hto, hfrom⟩ := not_or.1 hfc
    by_cases hp : s.ph = .idle
    · obtain ⟨t, hexec, hidle, hca⟩ := exec_csa_exclusive i hto hfrom hp h
      exact ⟨t, hexec, (sound_exec i hi).next hexec, fun _ => hidle,
        fun _ _ _ => ⟨hca, hca ▸ caEnabled_addressWord ..⟩, fun hfc' => absurd hfc' hfc⟩
    · exact ⟨s, exec_csa_busy hto hfrom hp, hi, fun hp' => hp', fun hp' => absurd hp' hp, fun _ => rfl⟩

/-! ### An operation in progress ends -/

/-- The port cycles still to come, at most, of an operation in this phase (R110). -/
def cyclesLeft : Phase → Nat
  | .idle => 0
  | .addr => 3
  | .dread => 2
  | .dwrite => 1

theorem cyclesLeft_le (p : Phase) : cyclesLeft p ≤ 3 := by
  cases p <;> decide

theorem cyclesLeft_eq_zero {p : Phase} (h : cyclesLeft p = 0) : p = .idle := by
  cases p with
  | idle => rfl
  | _ => cases h

theorem cyclesLeft_afterAddr {op : BitVec 4} {p : Phase} (ho : afterAddr op = some p) : cyclesLeft p < 3 := by
  cases p with
  | addr => revert op; decide
  | _ => decide

/-- Every port cycle brings the end of the operation nearer (R110). -/
theorem portCycle_cyclesLeft {s t : State} (hp : s.ph ≠ .idle) (h : portCycle s = .next t) :
    cyclesLeft t.ph < cyclesLeft s.ph := by
  rcases portCycle_cases h with ⟨hph, -⟩ | ⟨p, hph, ho, rfl⟩ | ⟨hph, -, rfl⟩ | ⟨hph, -, rfl⟩ | ⟨hph, -, rfl⟩ |
    ⟨v, hph, -, -, rfl⟩
  · exact absurd hph hp
  · rw [hph]
    exact cyclesLeft_afterAddr ho
  all_goals simp [hph, cyclesLeft]

section CanGoOn

variable {s t : State}

/-- The phase fits the operation, and no data cycle is to come while `CA[31] = 0`, unless the address cycle comes
first. -/
def CanGoOn (s : State) : Prop :=
  phaseOfOp s.op s.ph = true ∧ (s.ph = .idle ∨ s.ph = .addr ∨ caEnabled s.ca = true)

theorem op_of_dread {op : BitVec 4} (h : phaseOfOp op .dread = true) :
    op = opReadDword ∨ op = opReadWord ∨ op = opWriteWord := by
  revert op; decide

theorem writeValue_of_dwrite (h : phaseOfOp s.op .dwrite = true) : ∃ v, writeValue s = some v := by
  have hop : s.op = opWriteDword ∨ s.op = opWriteWord := by
    generalize s.op = op at h
    revert op; decide
  rcases hop with ho | ho
  · exact ⟨_, writeValue_writeDword ho⟩
  · exact ⟨_, writeValue_writeWord ho⟩

/-- An operation that can go on has its port cycle performed, and can go on after it; where that was the last one, `ST`
is `OK` (R110). -/
theorem portCycle_goesOn (h : CanGoOn s) (hp : s.ph ≠ .idle) :
    ∃ t, portCycle s = .next t ∧ CanGoOn t ∧ (t.ph = .idle → t.csaSt = .ok) := by
  obtain ⟨hfit, henabled⟩ := h
  have hca : s.ph ≠ .addr → caEnabled s.ca = true := fun ha => (henabled.resolve_left hp).resolve_left ha
  cases hph : s.ph with
  | idle => exact absurd hph hp
  | addr =>
    obtain ⟨p, ho, hfit'⟩ := afterAddr_of_phase (hph ▸ hfit)
    exact ⟨_, portCycle_addr hph ho, ⟨hfit', .inr (.inr (caEnabled_addressWord ..))⟩,
      fun hidle => absurd hidle (afterAddr_ne_idle ho)⟩
  | dread =>
    rcases op_of_dread (hph ▸ hfit) with ho | ho | ho
    · exact ⟨_, portCycle_dread_readDword hph ho, ⟨rfl, .inl rfl⟩, fun _ => rfl⟩
    · exact ⟨_, portCycle_dread_readWord hph ho, ⟨rfl, .inl rfl⟩, fun _ => rfl⟩
    · have hfit' : phaseOfOp s.op .dwrite = true := by rw [ho]; rfl
      exact ⟨_, portCycle_dread_writeWord hph ho, ⟨hfit', .inr (.inr (hca (by simp [hph])))⟩, nofun⟩
  | dwrite =>
    obtain ⟨v, hv⟩ := writeValue_of_dwrite (hph ▸ hfit)
    exact ⟨_, portCycle_dwrite hph hv (hca (by simp [hph])), ⟨rfl, .inl rfl⟩, fun _ => rfl⟩

/-- So is a step of the sequencer under exclusive use, with what falls in the gap before it. -/
theorem tick_goesOn {n : Nat} (h : CanGoOn s) (hp : s.ph ≠ .idle) (hex : s.ExclusivePorts (n + 1)) :
    ∃ t, tick s = .next t ∧ CanGoOn t ∧ (t.ph = .idle → t.csaSt = .ok) ∧ cyclesLeft t.ph < cyclesLeft s.ph ∧
      t.gaps = s.gaps.drop 1 ∧ t.ExclusivePorts n := by
  obtain ⟨u, htick, same, hexu, -⟩ := tick_exclusive hex hp
  have hu : CanGoOn u := by
    rw [CanGoOn, same.op, same.ph, same.ca]
    exact h
  have hpu : u.ph ≠ .idle := same.ph.trans_ne hp
  obtain ⟨t, hcycle, hgo, hst⟩ := portCycle_goesOn hu hpu
  have hgaps : t.gaps = u.gaps := (sameProgram_portCycle hcycle).2
  refine ⟨t, htick.trans hcycle, hgo, hst, ?_, hgaps.trans same.gaps, ?_⟩
  · exact (portCycle_cyclesLeft hpu hcycle).trans_eq (congrArg cyclesLeft same.ph)
  · rw [State.ExclusivePorts, hgaps]
    exact hexu

/-- Under exclusive use an operation that can go on ends within the cycles it still has (R212), and the sequencer then
stays idle. -/
theorem ends_exclusive (n : Nat) : ∀ {s : State}, cyclesLeft s.ph ≤ n → s.ExclusivePorts n → CanGoOn s →
    ∃ k t, k ≤ n ∧ runSteps k s = .next t ∧ t.ph = .idle ∧ ((s.ph = .idle → s.csaSt = .ok) → t.csaSt = .ok) ∧
      t.gaps = s.gaps.drop k ∧ ∀ m, n ≤ m → runTicks m s = .next t := by
  induction n with
  | zero =>
    intro s hleft _ _
    have hp : s.ph = .idle := cyclesLeft_eq_zero (Nat.le_zero.1 hleft)
    exact ⟨0, s, le_rfl, rfl, hp, fun h => h hp, rfl, fun m _ => runTicks_idle m hp⟩
  | succ n ih =>
    intro s hleft hex hgo
    by_cases hp : s.ph = .idle
    · exact ⟨0, s, Nat.zero_le _, rfl, hp, fun h => h hp, rfl, fun m _ => runTicks_idle m hp⟩
    · obtain ⟨t, htick, hgot, hst, hfewer, hgaps, hext⟩ := tick_goesOn hgo hp hex
      obtain ⟨k, u, hk, hrun, hidle, hok, hdrop, hticks⟩ := ih (by omega) hext hgot
      refine ⟨k + 1, u, by omega, ?_, hidle, fun _ => hok hst, ?_, fun m hm => ?_⟩
      · rw [runSteps_tick k hp, htick, andThen_next, hrun]
      · rw [hdrop, hgaps, List.drop_drop, Nat.add_comm]
      · obtain ⟨m, rfl⟩ := Nat.exists_eq_add_of_le' (show 1 ≤ m by omega)
        rw [runTicks, htick, andThen_next, hticks m (by omega)]

theorem exclusivePorts_of_quiet {n : Nat} (hq : s.Quiet n) : s.ExclusivePorts n := by
  intro g hg x hx
  rw [hq g hg] at hx
  cases hx

end CanGoOn

/-- Settles O27: each step performs one of the at most three cycles the operation has left. -/
theorem operationInProgressTerminates : Obligations.OperationInProgressTerminates := by
  unfold Obligations.OperationInProgressTerminates
  intro s hcsa hp hq hca
  obtain ⟨k, t, hk, hrun, hidle, hok, -, -⟩ :=
    ends_exclusive 3 (cyclesLeft_le _) (exclusivePorts_of_quiet hq) ⟨hcsa.1, .inr hca⟩
  exact ⟨k, t, hk, hrun, hidle, hok fun h => absurd h hp⟩

/-! ### Waiting for the unit -/

section Waiting

variable {s t : State}

/-- How many steps of the sequencer are left at most, whatever the gaps hold: each takes a gap, in which a reset can let
another operation begin, and after the last gap only port cycles are left. -/
def ticksLeft (s : State) : Nat := if s.gaps = [] then cyclesLeft s.ph else s.gaps.length + 3

theorem ticksLeft_le (s : State) : ticksLeft s ≤ s.gaps.length + 3 := by
  have := cyclesLeft_le s.ph
  unfold ticksLeft
  split <;> omega

theorem ticksLeft_tick (hp : s.ph ≠ .idle) (h : tick s = .next t) : ticksLeft t < ticksLeft s := by
  have hgaps : t.gaps = s.gaps.drop 1 := (tick_program hp h).2
  cases hg : s.gaps with
  | nil =>
    rw [tick_quiet hp (by simp [hg])] at h
    have hfewer := portCycle_cyclesLeft (s := { s with gaps := s.gaps.drop 1 }) hp h
    rw [hg, List.drop_nil] at hgaps
    rw [ticksLeft, ticksLeft, if_pos hgaps, if_pos hg]
    exact hfewer
  | cons g gs =>
    rw [hg, List.drop_one, List.tail_cons] at hgaps
    have hle := ticksLeft_le t
    rw [hgaps] at hle
    have hs : ticksLeft s = gs.length + 1 + 3 := by rw [ticksLeft, if_neg (by simp [hg]), hg, List.length_cons]
    omega

theorem idle_of_ticksLeft_eq_zero (h : ticksLeft s = 0) : s.ph = .idle := by
  unfold ticksLeft at h
  split at h
  · exact cyclesLeft_eq_zero h
  · omega

/-- A run of the sequencer that is long enough and answers a next state ends idle, and is a run of the machine. -/
theorem runTicks_ends (n : Nat) : ∀ {s : State}, ticksLeft s ≤ n → runTicks n s = .next t →
    t.ph = .idle ∧ ∃ k, runSteps k s = .next t := by
  induction n with
  | zero =>
    intro s hleft h
    cases h
    exact ⟨idle_of_ticksLeft_eq_zero (Nat.le_zero.1 hleft), 0, rfl⟩
  | succ n ih =>
    intro s hleft h
    by_cases hp : s.ph = .idle
    · rw [runTicks_idle _ hp] at h
      cases h
      exact ⟨hp, 0, rfl⟩
    · rw [runTicks, andThen_eq_next] at h
      obtain ⟨u, htick, hrun⟩ := h
      have hfewer := ticksLeft_tick hp htick
      obtain ⟨hidle, k, hsteps⟩ := ih (by omega) hrun
      exact ⟨hidle, k + 1, by rw [runSteps_tick k hp, htick, andThen_next, hsteps]⟩

/-- From a legal state a wait ends with the unit idle, unless the operation in progress is refused (log 11). -/
theorem waitIdle_cases (hi : s.Inv) :
    (∃ (t : State) (k : Nat), waitIdle s = .next t ∧ t.ph = .idle ∧ t.Inv ∧ runSteps k s = .next t) ∨
      waitIdle s = .refused .dataWriteWhileDisabled := by
  have hsound := sound_waitIdle hi
  cases hw : waitIdle s with
  | next t =>
    obtain ⟨hidle, k, hrun⟩ := runTicks_ends _ (ticksLeft_le s) hw
    exact .inl ⟨t, k, rfl, hidle, hsound.next hw, hrun⟩
  | fault f => exact absurd hw (hsound.not_fault f)
  | refused x => rw [hsound.refused hw]; exact .inr rfl

theorem phaseOfOp_of_inv (h : s.Inv) : phaseOfOp s.op s.ph = true := by
  obtain ⟨-, -, ⟨hfit, -⟩, -⟩ := h
  exact hfit

/-- Under exclusive use a wait ends with the unit idle, and what is left of the schedule keeps the ports (R69). -/
theorem waitIdle_exclusive (hi : s.Inv) (hex : ∀ g ∈ s.gaps, ∀ x ∈ g, x.keepsPorts = true)
    (hca : s.ph = .idle ∨ s.ph = .addr ∨ caEnabled s.ca = true) :
    ∃ u, waitIdle s = .next u ∧ u.ph = .idle ∧ u.Inv ∧ u.ExclusivePorts 3 := by
  obtain ⟨k, u, -, -, hidle, -, hdrop, hticks⟩ :=
    ends_exclusive 3 (cyclesLeft_le _) (fun g hg => hex g (List.mem_of_mem_take hg)) ⟨phaseOfOp_of_inv hi, hca⟩
  have hw : waitIdle s = .next u := hticks _ (Nat.le_add_left _ _)
  refine ⟨u, hw, hidle, (sound_waitIdle hi).next hw, fun g hg => hex g ?_⟩
  rw [hdrop] at hg
  exact List.mem_of_mem_drop (List.mem_of_mem_take hg)

end Waiting

/-- Settles O50: the wait runs as many steps as can be left; the command then finds the unit idle, and O46 runs it. -/
theorem waitingClientGetsTheUnit : Obligations.WaitingClientGetsTheUnit := by
  unfold Obligations.WaitingClientGetsTheUnit
  refine ⟨fun s hi => waitIdle_cases hi, fun s hp => waitIdle_idle hp, fun i s hi hex hca => ?_⟩
  obtain ⟨u, hw, hidle, hinv, hexu⟩ := waitIdle_exclusive hi hex hca
  obtain ⟨t, hexec, -, hidle', -, -⟩ := underExclusiveUseNoOperationIsRefused i u hinv hexu
  refine ⟨u, t, hw, hidle, hexec, hidle' hidle, ?_⟩
  rw [issue, hw, andThen_next, hexec, andThen_next, waitIdle_idle (hidle' hidle)]

end Sys2Proof.Machine
end

section
/-! PROOFS. The pseudo-instructions (spec/30_encoding.md R94), alone and with another client's commands between theirs
(R213). -/

namespace Sys2Proof.Machine

/-! ### A command that has run -/

/-- What a quiet operation of unit CSA leaves for the commands after it: `n` gaps are still quiet, and the record has
grown by `l`. -/
structure Ran (n : Nat) (s t : State) (l : List PortCycle) : Prop where
  inv : s.Inv → t.Inv
  idle : t.ph = .idle
  quiet : t.Quiet n
  status : t.csaSt = .ok
  target : t.target = s.target
  present : t.present = s.present
  record : grewBy s t l

section Ran

variable {n m : Nat} {s t u : State} {l k : List PortCycle} {r : CfgSel}

theorem Ran.ramPresent (h : Ran n s t l) (hr : s.RamPresent r) : t.RamPresent r :=
  ⟨h.target.trans hr.1, h.present ▸ hr.2⟩

theorem grewBy_trans (h : grewBy s t l) (h' : grewBy t u k) : grewBy s u (l ++ k) := by
  rw [grewBy] at h h' ⊢
  rw [h', h, List.map_append, List.append_assoc]

/-- Under `RamTarget` a register reads by the store alone. -/
theorem cfgRead_ram_congr (q : CfgSel) (hram : s.target = .ram) (htarget : t.target = s.target)
    (hpresent : t.present = s.present) (hcs : t.cs = s.cs) (habsent : t.absent = s.absent) :
    cfgRead q t = cfgRead q s := by
  simp only [cfgRead, targetAnswer, htarget, hram, hpresent, hcs, habsent]

variable (bus : BitVec 8) (dev : BitVec 5) (fn : BitVec 3) (off : BitVec 8)

/-- A quiet `READ_WORD`: its lane is in `RD`, and under `RamTarget` every register reads as before. -/
theorem exec_readWord_ran (hp : s.ph = .idle) (hq : s.Quiet (2 + n)) :
    ∃ t, exec (.readWord bus dev fn off) s = .next t ∧
      Ran n s t [.aw (addressWord bus dev fn off), .dr (cfgRead (operandSel bus dev fn off) s)] ∧
      t.rdLow = laneRead (cfgRead (operandSel bus dev fn off) s) off ∧
      (s.target = .ram → ∀ q, cfgRead q t = cfgRead q s) := by
  have hexec := exec_readWord_quiet bus dev fn off hp (quiet_mono (Nat.le_add_right 2 n) hq)
  exact ⟨_, hexec, ⟨fun hi => (sound_exec _ hi).next hexec, hp, take_drop_of_take le_rfl hq, rfl, rfl, rfl, rfl⟩,
    value_of_latch _, fun hram q => cfgRead_ram_congr q hram rfl rfl rfl rfl⟩

/-- A quiet `WRITE_WORD` on a present register of `RamTarget`. -/
theorem exec_writeWord_ran (v : Half) (hi : s.Inv) (hp : s.ph = .idle) (hq : s.Quiet (3 + n))
    (hr : s.RamPresent (operandSel bus dev fn off)) :
    ∃ t, exec (.writeWord bus dev fn off v) s = .next t ∧
      Ran n s t [.aw (addressWord bus dev fn off), .dr (cfgRead (operandSel bus dev fn off) s),
        .dw (laneMerge (cfgRead (operandSel bus dev fn off) s) off v)] ∧
      cfgRead (operandSel bus dev fn off) t = laneMerge (cfgRead (operandSel bus dev fn off) s) off v := by
  have hexec := exec_writeWord_quiet bus dev fn off v hp (quiet_mono (Nat.le_add_right 3 n) hq)
  exact ⟨_, hexec, ⟨fun hi => (sound_exec _ hi).next hexec, hp, take_drop_of_take le_rfl hq, rfl, rfl, rfl, rfl⟩,
    cfgRead_of_cs_eq_write32 _ hi hr rfl rfl (cfgWrite_cs_present _ hr)⟩

/-- A quiet `WRITE_DWORD` on a present register of `RamTarget`. -/
theorem exec_writeDword_ran (w : Dword) (hi : s.Inv) (hp : s.ph = .idle) (hq : s.Quiet (2 + n))
    (hr : s.RamPresent (operandSel bus dev fn off)) :
    ∃ t, exec (.writeDword bus dev fn off w) s = .next t ∧
      Ran n s t [.aw (addressWord bus dev fn off), .dw w] ∧ cfgRead (operandSel bus dev fn off) t = w := by
  have hexec := exec_writeDword_quiet bus dev fn off w hp (quiet_mono (Nat.le_add_right 2 n) hq)
  exact ⟨_, hexec, ⟨fun hi => (sound_exec _ hi).next hexec, hp, take_drop_of_take le_rfl hq, rfl, rfl, rfl, rfl⟩,
    cfgRead_of_cs_eq_write32 w hi hr rfl rfl (cfgWrite_cs_present w hr)⟩

end Ran

/-! ### The expansions -/

section Expansions

variable {bus : BitVec 8} {dev : BitVec 5} {fn : BitVec 3} {off : BitVec 8} {early late : List Input}
  {s t u v w : State}

theorem takeInputs_nil (s : State) : takeInputs [] s = .next s := rfl

/-- Another client's command word, taken whole (R213, log 32). -/
theorem takeInputs_command {i : Instr} (h : exec i s = .next t) (hp : t.ph = .idle) :
    takeInputs [.command (encode i)] s = .next t := by
  rw [takeInputs, takeInput_command (decode_encode i), h, andThen_next, waitIdle_idle hp, andThen_next, takeInputs_nil]

/-- The read of an expansion, when what others do before the client reads `RD` leaves `u`. -/
theorem issueRead_of_next (hread : exec (.readWord bus dev fn off) s = .next t) (hs : s.ph = .idle) (ht : t.ph = .idle)
    (hearly : takeInputs early t = .next u) : issueRead bus dev fn off early s = .next u := by
  rw [issueRead, issue_idle hs hread ht, andThen_next, hearly]

/-- `UPDATE_WORD` is its `WRITE_WORD`, of the value computed from the `RD` the client reads. -/
theorem updateWord_of_next (clr set : Half) (hread : issueRead bus dev fn off early s = .next u)
    (hlate : takeInputs late u = .next v) (hv : v.ph = .idle)
    (hwrite : exec (.writeWord bus dev fn off (updateValue u.rdLow clr set)) v = .next w) (hw : w.ph = .idle) :
    updateWord bus dev fn off clr set early late s = .next w := by
  rw [updateWord, hread, andThen_next, hlate, andThen_next, issue_idle hv hwrite hw]

/-- `READ_PAIR` joins the two words the client reads. -/
theorem readPair_of_next (hread : issueRead bus dev fn off early s = .next u) (hlate : takeInputs late u = .next v)
    (hread' : issueRead bus dev fn (off + 2#8) [] v = .next w) :
    readPair bus dev fn off early late [] s = .next (w.rdLow ++ u.rdLow, w) := by
  simp only [readPair, hread, hlate, andThen_next, hread', withAnswer]

/-- Two words of a register, at `off` and `off + 2` for a dword-aligned `off` (R94): one register, both lanes. -/
theorem pair_offsets (off : BitVec 8) : off.extractLsb' 0 2 = 0#2 →
    off.getLsbD 1 = false ∧ (off + 2#8).getLsbD 1 = true ∧ (off + 2#8).extractLsb' 2 6 = off.extractLsb' 2 6 := by
  revert off; decide

theorem append_halves (d : Dword) : (d.extractLsb' 16 16 ++ d.extractLsb' 0 16 : BitVec (16 + 16)) = d := by
  rw [BitVec.extractLsb'_append_extractLsb'_eq_extractLsb' (by rfl)]
  simp

/-- `READ_PAIR` at a dword-aligned offset, where the register read as `x` first and as `y` then. -/
theorem readPair_eq_append {n : Nat} {x y : Dword} (halign : off.extractLsb' 0 2 = 0#2)
    (hread : issueRead bus dev fn off early s = .next u) (hlow : u.rdLow = laneRead x off)
    (hlate : takeInputs late u = .next v) (hv : v.ph = .idle) (hq : v.Quiet (2 + n))
    (hy : cfgRead (operandSel bus dev fn off) v = y) :
    ∃ w, readPair bus dev fn off early late [] s =
      .next ((y.extractLsb' 16 16 ++ x.extractLsb' 0 16 : BitVec (16 + 16)), w) := by
  obtain ⟨hlane, hlane', hreg⟩ := pair_offsets off halign
  obtain ⟨w, hexec, ran, hhigh, -⟩ := exec_readWord_ran bus dev fn (off + 2#8) hv hq
  have hread' := issueRead_of_next hexec hv ran.idle (takeInputs_nil w)
  refine ⟨w, ?_⟩
  rw [readPair_of_next hread hlate hread', hhigh, hlow, operandSel_congr bus dev fn (off + 2#8) hreg, hy, laneRead_eq,
    laneRead_eq, hlane, hlane']
  rfl

/-- A quiet `PROBE` compares the low word of register 0 with that of `P_ABSENT`, whatever the target (R94, R56). -/
theorem probe_quiet {n : Nat} (hp : s.ph = .idle) (hq : s.Quiet (2 + n)) :
    ∃ t, probe bus dev fn [] s = .next
      (decide ((cfgRead ⟨bus, dev, fn, 0⟩ s).extractLsb' 0 16 = s.absent.extractLsb' 0 16), t) := by
  obtain ⟨t, hexec, ran, hlow, -⟩ := exec_readWord_ran bus dev fn 0#8 hp hq
  refine ⟨t, ?_⟩
  simp only [probe, issueRead_of_next hexec hp ran.idle (takeInputs_nil t), withAnswer, hlow, laneRead_eq]
  rfl

end Expansions

/-- Settles O48: each expansion is its commands one after the other, and a read leaves the store as it was. -/
theorem pseudoInstructions : Obligations.PseudoInstructions := by
  unfold Obligations.PseudoInstructions
  intro bus dev fn off clr set s hp hq
  obtain ⟨t, hexec, ran, hlow, hsame⟩ := exec_readWord_ran (n := 3) bus dev fn off hp hq
  have hread := issueRead_of_next hexec hp ran.idle (takeInputs_nil t)
  refine ⟨fun hi hr => ?_, fun hr halign => ?_, ?_⟩
  · obtain ⟨u, hexec', ran', hvalue⟩ := exec_writeWord_ran (n := 0) bus dev fn off (updateValue t.rdLow clr set)
      (ran.inv hi) ran.idle ran.quiet (ran.ramPresent hr)
    refine ⟨u, updateWord_of_next clr set hread (takeInputs_nil t) ran.idle hexec' ran'.idle, ran'.status, ?_⟩
    rw [hvalue, hlow, hsame hr.1]
    rfl
  · obtain ⟨w, hpair⟩ := readPair_eq_append (n := 1) halign hread hlow (takeInputs_nil t) ran.idle ran.quiet
      (hsame hr.1 _)
    exact ⟨_, w, _, hpair, exec_readDword_quiet bus dev fn off hp (quiet_mono (by omega) hq), append_halves _⟩
  · obtain ⟨u, hprobe⟩ := probe_quiet (bus := bus) (dev := dev) (fn := fn) (n := 3) hp hq
    refine ⟨_, u, hprobe, decide_eq_true_iff, fun habsent => decide_eq_true ?_⟩
    rw [cfgRead_of_no_answer habsent]

/-- Settles O49: each command of either client runs whole from the state the one before it left, and the client's
arithmetic takes `RD` as it stands when read. -/
theorem pseudoInstructionsAmongOtherCommands : Obligations.PseudoInstructionsAmongOtherCommands := by
  unfold Obligations.PseudoInstructionsAmongOtherCommands
  intro bus bus' dev dev' fn fn' off off' clr set x s hi hp hq hr
  obtain ⟨t, hexec, ran, hlow, hsame⟩ := exec_readWord_ran (n := 5) bus dev fn off hp hq
  have hread := issueRead_of_next hexec hp ran.idle (takeInputs_nil t)
  have hit : t.Inv := ran.inv hi
  have hrt : t.RamPresent (operandSel bus dev fn off) := ran.ramPresent hr
  obtain ⟨u, hother, ranu, hx⟩ := exec_writeDword_ran (n := 3) bus dev fn off x hit ran.idle ran.quiet hrt
  have hlate := takeInputs_command hother ranu.idle
  refine ⟨?_, ?_, fun halign => readPair_eq_append (n := 1) halign hread hlow hlate ranu.idle ranu.quiet hx⟩
  · obtain ⟨v, hwrite, ranv, hvalue⟩ := exec_writeWord_ran (n := 0) bus dev fn off (updateValue t.rdLow clr set)
      (ranu.inv hit) ranu.idle ranu.quiet (ranu.ramPresent hrt)
    rw [hx] at hvalue
    have hrecord := grewBy_trans (grewBy_trans ran.record ranu.record) ranv.record
    rw [hx] at hrecord
    refine ⟨v, updateValue t.rdLow clr set, updateWord_of_next clr set hread hlate ranu.idle hwrite ranv.idle,
      congrArg (updateValue · clr set) hlow, ranv.status, hvalue, hrecord⟩
  · obtain ⟨u', hother', ranu', hlow', hsame'⟩ := exec_readWord_ran (n := 3) bus' dev' fn' off' ran.idle ran.quiet
    have hearly := issueRead_of_next hexec hp ran.idle (takeInputs_command hother' ranu'.idle)
    obtain ⟨v, hwrite, ranv, hvalue⟩ := exec_writeWord_ran (n := 0) bus dev fn off (updateValue u'.rdLow clr set)
      (ranu'.inv hit) ranu'.idle ranu'.quiet (ranu'.ramPresent hrt)
    refine ⟨v, updateWord_of_next clr set hearly (takeInputs_nil u') ranu'.idle hwrite ranv.idle, ?_⟩
    rw [hvalue, hlow', hsame' hrt.1, hsame hr.1, hsame hr.1]
    rfl

end Sys2Proof.Machine
end
